-- ==== Sys2Proof/Word.lean ====
section
/-! DEFINITION. The two widths of the block (00_scope.md R7, R11): a byte of a frame and a 16-bit register
value, register address or CRC. Every quantity is unsigned (R11). -/

namespace Sys2Proof

/-- `u8`: a byte of a frame (00_scope.md R11). -/
abbrev Byte := BitVec 8

/-- `u16`: a register value, a register address, a quantity or a CRC (00_scope.md R11). -/
abbrev Word := BitVec 16

end Sys2Proof
end

