-- ==== Sys2Proof/Machine/Operands.lean ====
section
/-! DEFINITION. Field assembly: the two byte orders of a frame (20_memory.md R60 to R62, 30_encoding.md R95)
and the data of a multi-register frame. -/

namespace Sys2Proof

/-- `hi8(v) = v[15:8]` (00_scope.md R11). -/
def hi8 (v : Word) : Byte := v.extractLsb' 8 8

/-- `lo8(v) = v[7:0]` (00_scope.md R11). -/
def lo8 (v : Word) : Byte := v.extractLsb' 0 8

/-- `be16(a, b) = 256 a + b`: a 16-bit field from its high byte and its low byte (00_scope.md R11). -/
def be16 (a b : Byte) : Word := a ++ b

/-- Register values as frame bytes, most significant byte first (20_memory.md R60). -/
def bytesOf : List Word → List Byte
  | [] => []
  | v :: vs => hi8 v :: lo8 v :: bytesOf vs

/-- `value[i] = be16(data[2i], data[2i+1])` (30_encoding.md R95). An odd byte at the end is no value: a frame
that has one is answered with exception 0x03 before its data is used (42_dispatch.md R176). -/
def wordsOf : List Byte → List Word
  | a :: b :: rest => be16 a b :: wordsOf rest
  | [_] => []
  | [] => []

end Sys2Proof
end

