-- ==== Sys2Proof/Machine/Crc.lean ====
section
/-! DEFINITION. The CRC-16 generator and checker (40_crc.md): polynomial 0xA001, right-shifting, initial value
0xFFFF, no final inversion; sent low byte first. -/

namespace Sys2Proof

/-- One of the eight shifts of 40_crc.md R120. -/
def crcShift (crc : Word) : Word :=
  if crc.getLsbD 0 then (crc >>> 1) ^^^ 0xA001 else crc >>> 1

/-- `k` shifts. -/
def crcShifts : Nat → Word → Word
  | 0, crc => crc
  | k + 1, crc => crcShifts k (crcShift crc)

/-- One byte into the register (40_crc.md R120). -/
def crcByte (crc : Word) (b : Byte) : Word :=
  crcShifts 8 (crc ^^^ b.setWidth 16)

/-- `run(c0, s)`: rule R120 started from `c0` (40_crc.md R125). -/
def crcRun (c0 : Word) (s : List Byte) : Word :=
  s.foldl crcByte c0

/-- `crc16(s)` (40_crc.md R120). -/
def crc16 (s : List Byte) : Word :=
  crcRun 0xFFFF s

/-- The table `T` (40_crc.md R122), from its definition there. -/
def crcTable (i : Byte) : Word :=
  crcShifts 8 (i.setWidth 16)

/-- One byte into the register, table-driven (40_crc.md R122). -/
def crcTableByte (crc : Word) (b : Byte) : Word :=
  (crc >>> 8) ^^^ crcTable (lo8 (crc ^^^ b.setWidth 16))

/-- `crc16_table(s)` (40_crc.md R122). -/
def crc16Table (s : List Byte) : Word :=
  s.foldl crcTableByte 0xFFFF

/-- A CRC as the last two bytes of a frame, low byte first (20_memory.md R61). -/
def crcBytes (c : Word) : List Byte :=
  [lo8 c, hi8 c]

/-- Seal a frame body (40_crc.md R123). -/
def sealFrame (body : List Byte) : List Byte :=
  body ++ crcBytes (crc16 body)

/-- The check of 40_crc.md R124 on a whole frame. A frame of fewer than two bytes holds no CRC and fails. -/
def crcOk (frame : List Byte) : Bool :=
  match frame.drop (frame.length - 2) with
  | [lo, hi] => crc16 (frame.take (frame.length - 2)) == be16 hi lo
  | _ => false

end Sys2Proof
end

