-- ==== Sys2Proof/Config.lean ====
section
/-! DEFINITION. The parameters of 00_scope.md R7 that have one value in the spec, and the free values: what
the spec leaves to the host's callbacks and to the transport. A parameter that differs between blocks
(`TX_LEVEL`, `BLOCKING_FLUSH`, `BAUD`) is a field of `Machine.State`, never written, so that a statement
over all states covers all its values. -/

namespace Sys2Proof.Config

/-- `BUF_CAP` (00_scope.md R7): the Frame Buffer's capacity in bytes. -/
abbrev bufCap : Nat := 256

/-- `MAX_READ_QTY` (00_scope.md R7). -/
abbrev maxReadQty : Nat := 125

/-- `MAX_WRITE_QTY` (00_scope.md R7). -/
abbrev maxWriteQty : Nat := 123

/-- The number of register addresses of one bank (10_state.md R20). -/
abbrev addressSpace : Nat := 65536

/-- The least and the greatest legal `SLAVE_ADDR` (00_scope.md R7, 10_state.md R31). -/
abbrev minSlaveAddr : Nat := 1

@[inherit_doc minSlaveAddr]
abbrev maxSlaveAddr : Nat := 247

/-- The default of `T_SILENCE` in seconds (60_exceptions.md R308): 3.5 characters of 11 bits at `baud`, and
1750 microseconds above 19200 baud. The model is untimed (R340): no rule of the step reads it. -/
def silenceSeconds (baud : Nat) : Rat :=
  if 19200 < baud then 1750 / 1000000 else (385 / 10) / baud

/-- FREE VALUE (10_state.md R23, 93_implementation_defined.md U8; assumption log 3). What the host's callback
`handle` answers when it is called with `(address, value)` and no answer stands in `State.hostAnswers`; the
first argument is the draw counter, so that a callback with a state of its own is covered too. -/
opaque callbackAnswer (draw handle : Nat) (address value : Word) : Word

/-- FREE VALUE (45_direction_and_polling.md R253, R267; assumption log 4). Whether the transport accepts a
response, where no verdict stands in `State.txVerdicts`. -/
opaque txAccepts (draw : Nat) : Bool

/-- FREE VALUE (45_direction_and_polling.md R267, 93_implementation_defined.md U12; assumption log 4). Whether
byte `i` of a response reaches the line although the write of it failed. -/
opaque txKeeps (draw i : Nat) : Bool

/-- FREE VALUE (93_implementation_defined.md U14; assumption log 4). How many bytes leave the transmitter during a
`step()` that sends a response: before the write (`place` 0), between the write and the flush request (1) and
between that request and the completion test (2). -/
opaque txLeaves (draw place : Nat) : Nat

end Sys2Proof.Config
end

