-- ==== Sys2Proof/Syntax.lean ====
section
/-! DEFINITION. The frames of the block, one constructor per row of spec/opcode_table.json: the five request
kinds and the five response kinds of 30_encoding.md R93, R94 and R96. -/

namespace Sys2Proof

/-- A frame without its CRC (30_encoding.md R91). `addr` is byte 0. The CRC bytes are no operand: they are a
function of the rest (40_crc.md R123). -/
inductive Instr where
  /-- `read-holding-registers`, function 0x03, format RQ-R. -/
  | readHoldingRegisters (addr : Byte) (start qty : Word)
  /-- `read-input-registers`, function 0x04, format RQ-R. -/
  | readInputRegisters (addr : Byte) (start qty : Word)
  /-- `write-single-holding-register`, function 0x06, format RQ-W1. -/
  | writeSingleHoldingRegister (addr : Byte) (reg value : Word)
  /-- `write-multiple-holding-registers`, function 0x10, format RQ-WM: `data` is the `bc` bytes after the byte
  count, which need not be twice `qty`. -/
  | writeMultipleHoldingRegisters (addr : Byte) (start qty : Word) (bc : Byte) (data : List Byte)
  /-- `unsupported-function`, every other function code `fc`, format RQ-U. -/
  | unsupportedFunction (addr fc : Byte) (payload : List Byte)
  /-- Normal response to 0x03, format RS-R: the byte count is `2 * |values|`. -/
  | readHoldingRegistersResponse (addr : Byte) (values : List Word)
  /-- Normal response to 0x04, format RS-R. -/
  | readInputRegistersResponse (addr : Byte) (values : List Word)
  /-- Normal response to 0x06, format RS-W1. -/
  | writeSingleHoldingRegisterResponse (addr : Byte) (reg value : Word)
  /-- Normal response to 0x10, format RS-WM. -/
  | writeMultipleHoldingRegistersResponse (addr : Byte) (start qty : Word)
  /-- Exception response, format RS-X: `fc` is byte 1 as it stands in the response, bit 7 set. -/
  | exceptionResponse (addr fc code : Byte)
  deriving DecidableEq, Repr

end Sys2Proof
end

