-- ==== Sys2Proof/WellFormed.lean ====
section
/-! DEFINITION. Which terms of `Instr` are frames: the checks on operands that their types do not make. -/

namespace Sys2Proof

/-- The four function codes the block supports (30_encoding.md R96, R99). -/
def supportedFunction (fc : Byte) : Bool :=
  fc == 0x03 || fc == 0x04 || fc == 0x06 || fc == 0x10

/-- A legal slave address, 1 to 247 (10_state.md R31); byte 0 of every response (43_serializer.md R207). -/
def legalSlaveAddr (a : Byte) : Bool :=
  Config.minSlaveAddr ≤ a.toNat && a.toNat ≤ Config.maxSlaveAddr

/-- The number of registers a read may ask for (42_dispatch.md R171, R172). -/
def legalReadCount (n : Nat) : Bool :=
  1 ≤ n && n ≤ Config.maxReadQty

/-- The number of registers function 0x10 may write (42_dispatch.md R176). -/
def legalWriteCount (n : Nat) : Bool :=
  1 ≤ n && n ≤ Config.maxWriteQty

/-- An exception code the block sends (60_exceptions.md R290). -/
def legalExceptionCode (c : Byte) : Bool :=
  c == 0x01 || c == 0x02 || c == 0x03

/-- A frame of the block. A request may hold any field value (30_encoding.md R100: an illegal value is
answered, not undecodable), but its length must be the one its function code gives (R97) and fit the buffer; a
response is one the block sends (R94). -/
def Instr.wellFormed : Instr → Bool
  | .readHoldingRegisters _ _ _ => true
  | .readInputRegisters _ _ _ => true
  | .writeSingleHoldingRegister _ _ _ => true
  | .writeMultipleHoldingRegisters _ _ _ bc data =>
      data.length == bc.toNat && 9 + data.length ≤ Config.bufCap
  | .unsupportedFunction _ fc payload =>
      !supportedFunction fc && 4 + payload.length ≤ Config.bufCap
  | .readHoldingRegistersResponse addr values => legalSlaveAddr addr && legalReadCount values.length
  | .readInputRegistersResponse addr values => legalSlaveAddr addr && legalReadCount values.length
  | .writeSingleHoldingRegisterResponse addr _ _ => legalSlaveAddr addr
  | .writeMultipleHoldingRegistersResponse addr _ qty => legalSlaveAddr addr && legalWriteCount qty.toNat
  | .exceptionResponse addr fc code => legalSlaveAddr addr && fc.getLsbD 7 && legalExceptionCode code

/-- Whether a frame is a request (30_encoding.md R102: `kind`). -/
def Instr.isRequest : Instr → Bool
  | .readHoldingRegisters _ _ _ => true
  | .readInputRegisters _ _ _ => true
  | .writeSingleHoldingRegister _ _ _ => true
  | .writeMultipleHoldingRegisters _ _ _ _ _ => true
  | .unsupportedFunction _ _ _ => true
  | .readHoldingRegistersResponse _ _ => false
  | .readInputRegistersResponse _ _ => false
  | .writeSingleHoldingRegisterResponse _ _ _ => false
  | .writeMultipleHoldingRegistersResponse _ _ _ => false
  | .exceptionResponse _ _ _ => false

end Sys2Proof
end

