-- ==== Sys2Proof/Decode.lean ====
section
/-! DEFINITION. Decoding a delimited frame (30_encoding.md R91 to R102) and encoding one. A request and a
response of one function code begin with the same two bytes, so there are two decoders: `decodeRequest` reads
what the block receives, `decodeResponse` what it sends (R102: `kind`). The CRC is checked by validation
(41_frame_parser.md R150), not here: the function code alone selects the operation (R96). -/

namespace Sys2Proof

/-- Why bytes are no frame. -/
inductive DecodeError where
  /-- Fewer than 4 bytes: address, function and CRC do not fit (30_encoding.md R91). -/
  | tooShort
  /-- More than `BUF_CAP` bytes (30_encoding.md R91). -/
  | tooLong
  /-- Not the length the function code gives (30_encoding.md R97). -/
  | wrongLength
  /-- A response whose byte count is not that of its data (30_encoding.md R94). -/
  | badByteCount
  /-- A response whose function byte is none the block sends (30_encoding.md R94). -/
  | notAResponse
  /-- A response whose address byte no block can have (43_serializer.md R207). -/
  | badResponder
  /-- A response with a quantity or code the block never sends (30_encoding.md R94, 60_exceptions.md R290). -/
  | badResponseField
  deriving DecidableEq, Repr

/-- The bytes between the function code and the CRC (30_encoding.md R92), `rest` being all after byte 1. -/
def payloadOf (rest : List Byte) : List Byte :=
  rest.take (rest.length - 2)

/-- The payload of a request as an instruction (30_encoding.md R93, R95). -/
def decodeRequestPayload (addr fc : Byte) (payload : List Byte) : Except DecodeError Instr :=
  if fc = 0x03 then
    match payload with
    | [a, b, c, d] => .ok (.readHoldingRegisters addr (be16 a b) (be16 c d))
    | _ => .error .wrongLength
  else if fc = 0x04 then
    match payload with
    | [a, b, c, d] => .ok (.readInputRegisters addr (be16 a b) (be16 c d))
    | _ => .error .wrongLength
  else if fc = 0x06 then
    match payload with
    | [a, b, c, d] => .ok (.writeSingleHoldingRegister addr (be16 a b) (be16 c d))
    | _ => .error .wrongLength
  else if fc = 0x10 then
    match payload with
    | a :: b :: c :: d :: bc :: data =>
        if data.length = bc.toNat then
          .ok (.writeMultipleHoldingRegisters addr (be16 a b) (be16 c d) bc data)
        else .error .wrongLength
    | _ => .error .wrongLength
  else .ok (.unsupportedFunction addr fc payload)

/-- The request a delimited frame holds (30_encoding.md R93, R96). -/
def decodeRequest (frame : List Byte) : Except DecodeError Instr :=
  match frame with
  | addr :: fc :: rest =>
      if rest.length < 2 then .error .tooShort
      else if Config.bufCap < frame.length then .error .tooLong
      else decodeRequestPayload addr fc (payloadOf rest)
  | _ => .error .tooShort

/-- The payload of a response as an instruction (30_encoding.md R94). -/
def decodeResponsePayload (addr fc : Byte) (payload : List Byte) : Except DecodeError Instr :=
  if fc = 0x03 then
    match payload with
    | bc :: data =>
        if bc.toNat = data.length ∧ data.length = 2 * (wordsOf data).length then
          .ok (.readHoldingRegistersResponse addr (wordsOf data))
        else .error .badByteCount
    | [] => .error .wrongLength
  else if fc = 0x04 then
    match payload with
    | bc :: data =>
        if bc.toNat = data.length ∧ data.length = 2 * (wordsOf data).length then
          .ok (.readInputRegistersResponse addr (wordsOf data))
        else .error .badByteCount
    | [] => .error .wrongLength
  else if fc = 0x06 then
    match payload with
    | [a, b, c, d] => .ok (.writeSingleHoldingRegisterResponse addr (be16 a b) (be16 c d))
    | _ => .error .wrongLength
  else if fc = 0x10 then
    match payload with
    | [a, b, c, d] => .ok (.writeMultipleHoldingRegistersResponse addr (be16 a b) (be16 c d))
    | _ => .error .wrongLength
  else if fc.getLsbD 7 then
    match payload with
    | [code] => .ok (.exceptionResponse addr fc code)
    | _ => .error .wrongLength
  else .error .notAResponse

/-- The response a delimited frame holds (30_encoding.md R94), rejected where the block sends no such frame. -/
def decodeResponse (frame : List Byte) : Except DecodeError Instr :=
  match frame with
  | addr :: fc :: rest =>
      if rest.length < 2 then .error .tooShort
      else if !legalSlaveAddr addr then .error .badResponder
      else match decodeResponsePayload addr fc (payloadOf rest) with
        | .ok i => if i.wellFormed then .ok i else .error .badResponseField
        | .error e => .error e
  | _ => .error .tooShort

/-- The body of a read response (43_serializer.md R201). -/
def readBody (addr fc : Byte) (values : List Word) : List Byte :=
  addr :: fc :: BitVec.ofNat 8 (2 * values.length) :: bytesOf values

/-- Address, function code and two 16-bit fields: a request of format RQ-R or RQ-W1 and the response to a write
(30_encoding.md R93; 43_serializer.md R203, R204). -/
def twoFieldBody (addr fc : Byte) (x y : Word) : List Byte :=
  [addr, fc, hi8 x, lo8 x, hi8 y, lo8 y]

/-- The body of an exception response, `fc` being the function byte as sent (43_serializer.md R202). -/
def exceptionBody (addr fc code : Byte) : List Byte :=
  [addr, fc, code]

/-- The bytes of a frame before its CRC (30_encoding.md R93, R94). -/
def bodyOf : Instr → List Byte
  | .readHoldingRegisters addr start qty => twoFieldBody addr 0x03 start qty
  | .readInputRegisters addr start qty => twoFieldBody addr 0x04 start qty
  | .writeSingleHoldingRegister addr reg value => twoFieldBody addr 0x06 reg value
  | .writeMultipleHoldingRegisters addr start qty bc data =>
      twoFieldBody addr 0x10 start qty ++ bc :: data
  | .unsupportedFunction addr fc payload => addr :: fc :: payload
  | .readHoldingRegistersResponse addr values => readBody addr 0x03 values
  | .readInputRegistersResponse addr values => readBody addr 0x04 values
  | .writeSingleHoldingRegisterResponse addr reg value => twoFieldBody addr 0x06 reg value
  | .writeMultipleHoldingRegistersResponse addr start qty => twoFieldBody addr 0x10 start qty
  | .exceptionResponse addr fc code => exceptionBody addr fc code

/-- The whole frame, first byte first on the wire (30_encoding.md R91, R101). -/
def encode (i : Instr) : List Byte :=
  sealFrame (bodyOf i)

/-- A row of spec/opcode_table.json: `match` and `mask` apply to `be16(buf[0], buf[1])` (30_encoding.md R102). -/
structure OpcodeRow where
  mnemonic : String
  request : Bool
  bits : Word
  mask : Word
  deriving DecidableEq, Repr

/-- spec/opcode_table.json, in its order. -/
def opcodeTable : List OpcodeRow :=
  [⟨"read-holding-registers", true, 0x0003, 0x00FF⟩,
   ⟨"read-input-registers", true, 0x0004, 0x00FF⟩,
   ⟨"write-single-holding-register", true, 0x0006, 0x00FF⟩,
   ⟨"write-multiple-holding-registers", true, 0x0010, 0x00FF⟩,
   ⟨"unsupported-function", true, 0x0000, 0x0000⟩,
   ⟨"read-holding-registers.response", false, 0x0003, 0x00FF⟩,
   ⟨"read-input-registers.response", false, 0x0004, 0x00FF⟩,
   ⟨"write-single-holding-register.response", false, 0x0006, 0x00FF⟩,
   ⟨"write-multiple-holding-registers.response", false, 0x0010, 0x00FF⟩,
   ⟨"exception.response", false, 0x0080, 0x0080⟩]

/-- Rows of one kind are tried in order and the first that matches wins (30_encoding.md R102). -/
def tableLookup (request : Bool) (w : Word) : Option String :=
  (opcodeTable.find? fun r => r.request == request && w &&& r.mask == r.bits).map OpcodeRow.mnemonic

/-- The mnemonic of an instruction's row (30_encoding.md R96). -/
def Instr.mnemonic : Instr → String
  | .readHoldingRegisters _ _ _ => "read-holding-registers"
  | .readInputRegisters _ _ _ => "read-input-registers"
  | .writeSingleHoldingRegister _ _ _ => "write-single-holding-register"
  | .writeMultipleHoldingRegisters _ _ _ _ _ => "write-multiple-holding-registers"
  | .unsupportedFunction _ _ _ => "unsupported-function"
  | .readHoldingRegistersResponse _ _ => "read-holding-registers.response"
  | .readInputRegistersResponse _ _ => "read-input-registers.response"
  | .writeSingleHoldingRegisterResponse _ _ _ => "write-single-holding-register.response"
  | .writeMultipleHoldingRegistersResponse _ _ _ => "write-multiple-holding-registers.response"
  | .exceptionResponse _ _ _ => "exception.response"

/-- Byte `k` of the frame that the table word `w` begins: the table's words are `be16` of two bytes
(30_encoding.md R102), so an even byte is the high half of its word. -/
def tableByte (w k : Nat) : Byte :=
  BitVec.ofNat 8 (w >>> (16 * (k / 2) + if k % 2 = 0 then 8 else 0))

/-- Bytes `k` to `k + n - 1` of that frame. -/
def tableBytes (w : Nat) : Nat → Nat → List Byte
  | _, 0 => []
  | k, n + 1 => tableByte w k :: tableBytes w (k + 1) n

/-- The number of body bytes of the frame that `w` begins: the function code's length less the CRC
(41_frame_parser.md R143); for a function code without one, what `nbits` gives, at least 2. -/
def tableBodyLength (nbits w : Nat) : Nat :=
  let fc := tableByte w 1
  if fc = 0x03 ∨ fc = 0x04 ∨ fc = 0x06 then 6
  else if fc = 0x10 then 7 + (tableByte w 6).toNat
  else max 2 (nbits / 8 - 2)

/-- The frame whose first `nbits` bits are `w`, every later operand bit 0, sealed with its CRC. -/
def tableFrame (nbits w : Nat) : List Byte :=
  let v := w % 2 ^ nbits
  sealFrame (tableBytes v 0 (tableBodyLength nbits v))

/-- The request the decoder reads from a table word. The block fetches requests only: the word of a response row
is that of the request row with the same function code (assumption log 8). -/
def decodeTableWord (nbits w : Nat) : Option Instr :=
  match decodeRequest (tableFrame nbits w) with
  | .ok i => some i
  | .error _ => none

end Sys2Proof
end

