-- ==== Sys2Proof/Machine/State.lean ====
section
/-! DEFINITION. The state of the block (10_state.md), of the transport and line it is attached to (R38), and
the script of moves that the other agents make (00_scope.md R9). Plain data throughout. -/

namespace Sys2Proof.Machine

/-- A sparse map by number in one canonical form: keys strictly rising, absent keys unlisted
(`Cells.wf` in Ops.lean). -/
abbrev Cells (α : Type) := List (Nat × α)

/-- One register bank (10_state.md R20, R21): the declared addresses with their 16-bit values. An unlisted
address is not declared and has no value. -/
abbrev Memory := Cells Word

/-- The two register namespaces (10_state.md R20). -/
inductive Space where
  | holding
  | input
  deriving DecidableEq, Repr

/-- The direction of an access, in a callback's key (10_state.md R23). -/
inductive Access where
  | read
  | write
  deriving DecidableEq, Repr

/-- A successful declaration (10_state.md R22). -/
structure RegRange where
  space : Space
  start : Word
  count : Word
  deriving DecidableEq, Repr

/-- `fe_state` (10_state.md R24). -/
inductive FeState where
  | idle
  | accumulating
  | validating
  | dispatching
  | responding
  | rejected
  deriving DecidableEq, Repr

/-- `dir_state` (10_state.md R34). -/
inductive DirState where
  | receiving
  | transmitting
  deriving DecidableEq, Repr

/-- An item of the RX stream (30_encoding.md R90). -/
inductive RxItem where
  | byte (b : Byte)
  | gap
  | err
  deriving DecidableEq, Repr

/-- Why a frame is discarded silently (41_frame_parser.md R152). -/
inductive RejectReason where
  | crcMismatch
  | addressMismatch
  | unsupportedLength
  deriving DecidableEq, Repr

/-- The system's trace (45_direction_and_polling.md R257): the block's three output events, and `wire` when a
byte has physically left. -/
inductive Event where
  | dir (level : Bool)
  | tx (bytes : List Byte)
  | flushReq
  | wire (b : Byte)
  deriving DecidableEq, Repr

/-- One invocation of a callback, with its arguments (00_scope.md R10 (c)). `handle` names the host function. -/
structure CallRecord where
  space : Space
  access : Access
  handle : Nat
  address : Nat
  value : Word
  deriving DecidableEq, Repr

/-- What an operation returned to the host (44_register_store.md R220, R222, R223, R224;
45_direction_and_polling.md R258). -/
inductive HostResult where
  | success
  | alreadyExists
  | invalidRange
  | outOfRange
  | value (v : Word)
  | bound
  | replaced
  | done
  | configError
  deriving DecidableEq, Repr

/-- A move of the host, of the line or of the transmitter (00_scope.md R9). -/
inductive Move where
  /-- The host calls `step()`. -/
  | callStep
  /-- The host calls `setup(addr, pin_bound)`. -/
  | callSetup (addr : Byte) (pinBound : Bool)
  /-- The host calls `declare_range`. -/
  | callDeclareRange (space : Space) (start count initial : Word)
  /-- The host calls `read`. -/
  | callRead (space : Space) (address : Word)
  /-- The host calls `write`. -/
  | callWrite (space : Space) (address value : Word)
  /-- The host calls `bind_callback` with the function named `handle`. -/
  | callBindCallback (space : Space) (address : Word) (access : Access) (count : Word) (handle : Nat)
  /-- The line delivers a byte without error. -/
  | lineByte (b : Byte)
  /-- The transport damages or loses a byte. -/
  | lineError
  /-- The line has been idle for `T_SILENCE`. -/
  | lineSilence
  /-- The oldest byte of the TX stream has physically left. -/
  | wireByte
  deriving DecidableEq, Repr

/-- What the transport does with one response (45_direction_and_polling.md R253, R267): whether it takes it;
where it does not, which of its bytes (by index) reach the line all the same; and how many bytes the transmitter
puts on the line before the write, between the write and the flush request, and between that request and the
completion test. -/
structure TxVerdict where
  accepted : Bool
  keep : List Bool
  leaveBefore : Nat
  leaveBetween : Nat
  leaveAfter : Nat
  deriving DecidableEq, Repr

/-- The parameters of 00_scope.md R7 that are fixed for the life of a block and differ between blocks. No step
writes them. -/
structure Params where
  /-- `TX_LEVEL`. -/
  txLevel : Bool
  /-- `BLOCKING_FLUSH`. -/
  blockingFlush : Bool
  /-- `BAUD`. -/
  baud : BitVec 32
  deriving DecidableEq, Repr

/-- The whole state. INVENTORY.md lists each field with its rule and its reset value. -/
structure State where
  /-- `HR` (R20, R21). -/
  holding : Memory
  /-- `IR` (R20, R21). -/
  input : Memory
  /-- `ranges`, oldest first (R22). -/
  ranges : List RegRange
  /-- `cb(Holding, a, Read)` (R23). -/
  cbHoldingRead : Cells Nat
  /-- `cb(Holding, a, Write)` (R23). -/
  cbHoldingWrite : Cells Nat
  /-- `cb(Input, a, Read)` (R23). -/
  cbInputRead : Cells Nat
  /-- `cb(Input, a, Write)` (R23). -/
  cbInputWrite : Cells Nat
  /-- `fe_state` (R24). -/
  feState : FeState
  /-- `buf` (R26). -/
  buf : Vector Byte 256
  /-- `len` (R27). -/
  len : Nat
  /-- `tx_pending` (R29). -/
  txPending : Bool
  /-- `slave_addr` (R31). -/
  slaveAddr : Byte
  /-- `has_dir_pin` (R32). -/
  hasDirPin : Bool
  /-- `setup_done` (R33). -/
  setupDone : Bool
  /-- `dir_state` (R34). -/
  dirState : DirState
  /-- `dir_out` (R35); without meaning where `hasDirPin` is false. -/
  dirOut : Bool
  /-- The block's parameters (00_scope.md R7). -/
  params : Params
  /-- The RX stream, oldest first (R38). -/
  rx : List RxItem
  /-- The TX stream, oldest first (R38): the bytes written that have not physically left. -/
  tx : List Byte
  /-- The silence detector (R40): a `Byte` or `Err` has come since the last `Gap` (30_encoding.md R90). -/
  gapArmed : Bool
  /-- The system's trace, oldest first (45_direction_and_polling.md R257). -/
  trace : List Event
  /-- The callback invocations, oldest first (00_scope.md R10 (c)). -/
  calls : List CallRecord
  /-- The results returned to the host, oldest first (00_scope.md R10 (d)). -/
  results : List HostResult
  /-- The moves the other agents make next, oldest first. Empty: the host calls `step()` again. -/
  agenda : List Move
  /-- The answers the host's callbacks give next; beyond them an answer is a free value. -/
  hostAnswers : List Word
  /-- The verdicts the transport gives next; beyond them a verdict is a free value. -/
  txVerdicts : List TxVerdict
  /-- The model's own: how many free values the run has drawn. -/
  draws : Nat
  deriving DecidableEq, Repr

/-- Why the machine stops with a fault. Neither is raised from a state a run of the block can be in. -/
inductive Fault where
  /-- Raised by dispatch where the validated frame has not the length of its function code; the parser never
  hands one on. Safe: the machine stops. -/
  | frameNotDecodable
  /-- Raised by `feed` in `Validating`, `Dispatching`, `Responding` or `Rejected`, where 41_frame_parser.md R140
  and R153 say that no item is fed. Safe: the machine stops. -/
  | itemInTransientState
  deriving DecidableEq, Repr

/-- Why a step has no meaning. -/
inductive Refusal where
  /-- An instruction that `exec` has no meaning for. No arm raises it. Safe. -/
  | notModelled (mnemonic : String)
  deriving DecidableEq, Repr

/-- The state right after reset (70_reset_and_hazards.md R320 to R322; 10_state.md R36). The values the spec
leaves unspecified (`buf`, `slaveAddr`, `dirOut`, the streams, two parameters) are assumption log 1's. -/
def State.reset : State where
  holding := []
  input := []
  ranges := []
  cbHoldingRead := []
  cbHoldingWrite := []
  cbInputRead := []
  cbInputWrite := []
  feState := .idle
  buf := Vector.replicate 256 0
  len := 0
  txPending := false
  slaveAddr := 0
  hasDirPin := false
  setupDone := false
  dirState := .receiving
  dirOut := false
  params := ⟨true, false, 19200⟩
  rx := []
  tx := []
  gapArmed := false
  trace := []
  calls := []
  results := []
  agenda := []
  hostAnswers := []
  txVerdicts := []
  draws := 0

end Sys2Proof.Machine
end

