-- ==== Sys2Proof/Machine/Flags.lean ====
section
/-! DEFINITION. The conditions the rules test. The block has no arithmetic condition codes (10_state.md R30): its
one stored flag is `tx_pending` (R29), and every other condition is computed from `buf`, `len` and the
configuration (R28, R30). -/

namespace Sys2Proof.Machine

/-- The contents of the Frame Buffer, `buf[0 .. len-1]` (10_state.md R26, R27). -/
def State.frame (s : State) : List Byte :=
  s.buf.toList.take s.len

/-- `is_broadcast`, of an address byte (10_state.md R28). -/
def isBroadcast (addr : Byte) : Bool :=
  addr == 0

/-- `response_ready` (10_state.md R30). -/
def State.responseReady (s : State) : Bool :=
  s.feState == .responding

/-- `addr_ok` (41_frame_parser.md R150). -/
def addrOk (slaveAddr : Byte) : List Byte → Bool
  | [] => false
  | addr :: _ => addr == slaveAddr || isBroadcast addr

/-- The byte count and the quantity of a function 0x10 request agree and are legal (42_dispatch.md R176). -/
def legalWriteFields (qty : Word) (bc : Byte) : Bool :=
  legalWriteCount qty.toNat && bc.toNat == 2 * qty.toNat

/-- `flush_complete()` (45_direction_and_polling.md R253): every byte written has physically left. -/
def State.flushComplete (s : State) : Bool :=
  s.tx.isEmpty

/-- `rx_avail()` (45_direction_and_polling.md R251). -/
def State.rxAvail (s : State) : Bool :=
  !s.rx.isEmpty

/-- What the frame so far says of its own length (41_frame_parser.md R143). -/
inductive Expected where
  /-- The function code, or the byte count of function 0x10, is not yet in. -/
  | need
  /-- The total length. -/
  | fixed (n : Nat)
  /-- Longer than `BUF_CAP`. -/
  | tooLong
  /-- No derivable length: closed by the `Gap` that follows. -/
  | openEnded
  deriving DecidableEq, Repr

/-- `expected_len` of the bytes received so far (41_frame_parser.md R143). -/
def expectedLen (frame : List Byte) : Expected :=
  match frame with
  | _ :: fc :: rest =>
      if fc = 0x03 ∨ fc = 0x04 ∨ fc = 0x06 then .fixed 8
      else if fc = 0x10 then
        match rest with
        | _ :: _ :: _ :: _ :: bc :: _ =>
            if Config.bufCap < 9 + bc.toNat then .tooLong else .fixed (9 + bc.toNat)
        | _ => .need
      else .openEnded
  | _ => .need

end Sys2Proof.Machine
end

