-- ==== Sys2Proof/Machine/Ops.lean ====
section
/-! DEFINITION. The named operations: sparse maps, the Register Store (44_register_store.md), callbacks, the
Frame Buffer, the serializer (43_serializer.md), raising an exception and ending a request
(60_exceptions.md R292, R296, R297). -/

namespace Sys2Proof.Machine

/-! ## Sparse maps -/

/-- What a map holds at a key. -/
def Cells.get {α : Type} : Cells α → Nat → Option α
  | [], _ => none
  | (k, v) :: rest, a => if a = k then some v else Cells.get rest a

/-- Store at a key, keeping keys strictly rising. -/
def Cells.set {α : Type} : Cells α → Nat → α → Cells α
  | [], a, v => [(a, v)]
  | (k, w) :: rest, a, v =>
      if a < k then (a, v) :: (k, w) :: rest
      else if a = k then (k, v) :: rest
      else (k, w) :: Cells.set rest a v

/-- The canonical form: keys strictly rising and below 65536. -/
def Cells.wf {α : Type} : Cells α → Bool
  | [] => true
  | (k, _) :: rest =>
      decide (k < Config.addressSpace) && rest.all (fun c => decide (k < c.1)) && Cells.wf rest

/-- The canonical form of a register bank: addresses strictly rising; every listed address has a value and an
unlisted one is not declared, so no entry equals what an unlisted address reads as. -/
def Memory.wf (m : Memory) : Bool :=
  Cells.wf m

/-! ## Banks and callbacks by name -/

/-- `bank(ns)` (44_register_store.md R220). -/
def State.bank (s : State) : Space → Memory
  | .holding => s.holding
  | .input => s.input

/-- Replace a bank. -/
def State.setBank (s : State) (sp : Space) (m : Memory) : State :=
  match sp with
  | .holding => { s with holding := m }
  | .input => { s with input := m }

/-- The callbacks of one namespace and direction (10_state.md R23). -/
def State.callbacks (s : State) : Space → Access → Cells Nat
  | .holding, .read => s.cbHoldingRead
  | .holding, .write => s.cbHoldingWrite
  | .input, .read => s.cbInputRead
  | .input, .write => s.cbInputWrite

/-- Replace the callbacks of one namespace and direction. -/
def State.setCallbacks (s : State) (sp : Space) (acc : Access) (m : Cells Nat) : State :=
  match sp, acc with
  | .holding, .read => { s with cbHoldingRead := m }
  | .holding, .write => { s with cbHoldingWrite := m }
  | .input, .read => { s with cbInputRead := m }
  | .input, .write => { s with cbInputWrite := m }

/-- `HR[a]`, `IR[a]`: the raw stored value, no callback (00_scope.md R12); none where not declared. -/
def State.reg (s : State) (sp : Space) (a : Nat) : Option Word :=
  (s.bank sp).get a

/-- `declared(ns, a)` (44_register_store.md R221). -/
def State.declared (s : State) (sp : Space) (a : Nat) : Bool :=
  (s.reg sp a).isSome

/-- `cb(ns, a, dir)` (10_state.md R23). -/
def State.callback (s : State) (sp : Space) (acc : Access) (a : Nat) : Option Nat :=
  (s.callbacks sp acc).get a

/-- `span_ok(ns, start, qty)` (42_dispatch.md R173, 20_memory.md R70). -/
def spanOk (sp : Space) (start qty : Nat) (s : State) : Bool :=
  decide (start + qty ≤ Config.addressSpace) && (List.range qty).all fun i => s.declared sp (start + i)

/-! ## Callbacks -/

/-- What the host's callback answers next: its scripted answer, else a free value. -/
def callbackResult (handle address : Nat) (value : Word) (s : State) : Word :=
  match s.hostAnswers with
  | v :: _ => v
  | [] => Config.callbackAnswer s.draws handle (BitVec.ofNat 16 address) value

/-- Record an invocation and use up its answer. -/
def noteCall (c : CallRecord) (s : State) : State :=
  { s with calls := s.calls ++ [c], hostAnswers := s.hostAnswers.tail, draws := s.draws + 1 }

/-- What an access to `a` uses in place of `value`, and the state after the callback bound to it, if any, has run
(44_register_store.md R222, R223, R225). -/
def throughCallback (sp : Space) (acc : Access) (a : Nat) (value : Word) (s : State) : Word × State :=
  match s.callback sp acc a with
  | none => (value, s)
  | some h => (callbackResult h a value s, noteCall ⟨sp, acc, h, a, value⟩ s)

/-! ## The Register Store -/

/-- `read(ns, a)`, `MemRead(ns, a, 1)` (44_register_store.md R222): none is `OutOfRange`. -/
def readReg (sp : Space) (a : Nat) (s : State) : Option Word × State :=
  match s.reg sp a with
  | none => (none, s)
  | some v => ((throughCallback sp .read a v s).1, (throughCallback sp .read a v s).2)

/-- `write(ns, a, v)`, `MemWrite(ns, a, 1, v)` (44_register_store.md R223): false is `OutOfRange`. -/
def writeReg (sp : Space) (a : Nat) (v : Word) (s : State) : Bool × State :=
  match s.reg sp a with
  | none => (false, s)
  | some _ =>
      let r := throughCallback sp .write a v s
      (true, r.2.setBank sp ((r.2.bank sp).set a r.1))

/-- `qty` reads in ascending address order (20_memory.md R65). -/
def readSpan (sp : Space) : Nat → Nat → State → Option (List Word) × State
  | _, 0, s => (some [], s)
  | a, n + 1, s =>
      match readReg sp a s with
      | (none, t) => (none, t)
      | (some v, t) =>
          match readSpan sp (a + 1) n t with
          | (none, u) => (none, u)
          | (some vs, u) => (some (v :: vs), u)

/-- Writes in ascending address order (20_memory.md R65). -/
def writeSpan (sp : Space) : Nat → List Word → State → Bool × State
  | _, [], s => (true, s)
  | a, v :: vs, s =>
      match writeReg sp a v s with
      | (false, t) => (false, t)
      | (true, t) => writeSpan sp (a + 1) vs t

/-- Allocate `n` registers from `a` on (44_register_store.md R220). -/
def allocate (initial : Word) : Nat → Nat → Memory → Memory
  | _, 0, m => m
  | a, n + 1, m => allocate initial (a + 1) n (m.set a initial)

/-- Whether a range shares an address with `start .. start + count - 1` (44_register_store.md R220). -/
def RegRange.overlaps (r : RegRange) (sp : Space) (start count : Word) : Bool :=
  r.space == sp && decide (r.start.toNat < start.toNat + count.toNat)
    && decide (start.toNat < r.start.toNat + r.count.toNat)

/-- `declare_range(ns, start, count, initial)` (44_register_store.md R220). -/
def declareRange (sp : Space) (start count initial : Word) (s : State) : HostResult × State :=
  if Config.addressSpace < start.toNat + count.toNat then (.invalidRange, s)
  else if count = 0 then (.success, s)
  else if (⟨sp, start, count⟩ : RegRange) ∈ s.ranges then (.success, s)
  else if s.ranges.any (fun r => r.overlaps sp start count) then (.alreadyExists, s)
  else
    let t := s.setBank sp (allocate initial start.toNat count.toNat (s.bank sp))
    (.success, { t with ranges := t.ranges ++ [⟨sp, start, count⟩] })

/-- Bind `handle` at `n` addresses from `a` on (44_register_store.md R224). -/
def bindAll (handle : Nat) : Nat → Nat → Cells Nat → Cells Nat
  | _, 0, m => m
  | a, n + 1, m => bindAll handle (a + 1) n (m.set a handle)

/-- `bind_callback(ns, address, direction, count, f)` (44_register_store.md R224). -/
def bindCallback (sp : Space) (address : Word) (acc : Access) (count : Word) (handle : Nat) (s : State) :
    HostResult × State :=
  if Config.addressSpace < address.toNat + count.toNat then (.invalidRange, s)
  else
    let replaced := (List.range count.toNat).any fun i => (s.callback sp acc (address.toNat + i)).isSome
    (if replaced then .replaced else .bound,
      s.setCallbacks sp acc (bindAll handle address.toNat count.toNat (s.callbacks sp acc)))

/-! ## Output events -/

/-- Append an event to the trace (45_direction_and_polling.md R257). -/
def emit (e : Event) (s : State) : State :=
  { s with trace := s.trace ++ [e] }

/-! ## The Frame Buffer -/

/-- `buf[len] <- b ; len <- len + 1` (41_frame_parser.md R142). -/
def appendByte (b : Byte) (s : State) : State :=
  { s with buf := s.buf.setIfInBounds s.len b, len := s.len + 1 }

/-- Bytes into a buffer from index `i` on. -/
def loadBytes : List Byte → Nat → Vector Byte 256 → Vector Byte 256
  | [], _, buf => buf
  | b :: bs, i, buf => loadBytes bs (i + 1) (buf.setIfInBounds i b)

/-- `buf[0 .. |f|-1] <- f ; len <- |f|` (43_serializer.md R200). -/
def storeFrame (f : List Byte) (s : State) : State :=
  { s with buf := loadBytes f 0 s.buf, len := f.length }

/-- `len <- 0 ; fe_state <- Idle`: the buffer is empty again (10_state.md R27). -/
def clearFrame (s : State) : State :=
  { s with len := 0, feState := .idle }

/-- `raise Reject(reason)` (41_frame_parser.md R152): no rule reads the reason. -/
def raiseReject (_reason : RejectReason) (s : State) : State :=
  clearFrame { s with feState := .rejected }

/-! ## Ending a request -/

/-- Serialize a response body: seal it, overwrite the Frame Buffer with it, and hold it until phase 3 hands it to
the transport (43_serializer.md R200, R208; 42_dispatch.md R170). -/
def sendBody (body : List Byte) (s : State) : State :=
  { storeFrame (sealFrame body) s with feState := .responding }

/-- The end of `dispatch()` (42_dispatch.md R170): a broadcast's outcome is dropped (R180), any other is
serialized. `addr` is the request's address byte. -/
def respond (addr : Byte) (body : List Byte) (s : State) : State :=
  if isBroadcast addr then clearFrame s else sendBody body s

/-- `raise Exception(code)` (60_exceptions.md R292, R296): the exception response in place of the normal one.
Nothing is saved, no mode changes and control goes to no handler. `fc` is the request's function code. -/
def raiseException (addr fc code : Byte) (s : State) : State :=
  respond addr (exceptionBody s.slaveAddr (fc ||| 0x80) code) s

/-- What stands in place of a return from an exception (60_exceptions.md R297): once the response, normal or
exception, is with the transport the engine is `Idle` and ready for the next frame. -/
def endResponse (s : State) : State :=
  clearFrame s

end Sys2Proof.Machine
end

