-- ==== Sys2Proof/Machine/Direction.lean ====
section
/-! DEFINITION. The Direction Controller and the transmit side of the transport (45_direction_and_polling.md R253 to
R260, R267). -/

namespace Sys2Proof.Machine

/-- `set_level(l)` (R255, R257): drive the direction output and record the level. -/
def setLevel (l : Bool) (s : State) : State :=
  emit (.dir l) { s with dirOut := l }

/-- `set_level(l)` where a pin is bound (R255, R270). -/
def drivePin (l : Bool) (s : State) : State :=
  if s.hasDirPin then setLevel l s else s

/-- `assert_transmit()` (R259). -/
def assertTransmit (s : State) : State :=
  if s.dirState = .transmitting then s
  else { drivePin s.params.txLevel s with dirState := .transmitting }

/-- `assert_receive()` (R260). -/
def assertReceive (s : State) : State :=
  if s.dirState = .receiving then s
  else { drivePin (!s.params.txLevel) s with dirState := .receiving }

/-- The oldest byte of the TX stream physically leaves (00_scope.md R9, R253). -/
def wireOne (s : State) : State :=
  match s.tx with
  | [] => s
  | b :: rest => emit (.wire b) { s with tx := rest }

/-- `n` bytes leave. -/
def wireMany : Nat → State → State
  | 0, s => s
  | n + 1, s => wireMany n (wireOne s)

/-- The transport's verdict on the next response: the scripted one, else a free value (R253, R267). -/
def nextVerdict (s : State) : TxVerdict :=
  match s.txVerdicts with
  | v :: _ => v
  | [] => ⟨Config.txAccepts s.draws, (List.range Config.bufCap).map (Config.txKeeps s.draws),
      Config.txLeaves s.draws 0, Config.txLeaves s.draws 1, Config.txLeaves s.draws 2⟩

/-- The bytes of a response that enter the TX stream (R253, R267): all where the write is accepted, else those the
transport happened to take. -/
def takenBytes (v : TxVerdict) (bytes : List Byte) : List Byte :=
  if v.accepted then bytes else ((bytes.zip v.keep).filter (·.2)).map (·.1)

/-- `tx_write(s)` (R253, R266, R267), under the transport's verdict. -/
def txWrite (v : TxVerdict) (bytes : List Byte) (s : State) : State :=
  emit (.tx bytes)
    { s with tx := s.tx ++ takenBytes v bytes, txVerdicts := s.txVerdicts.tail, draws := s.draws + 1 }

/-- `flush_request()` (R253, R254), and the bytes that leave by the completion test: all of them where the flush
blocks. -/
def flushRequest (v : TxVerdict) (s : State) : State :=
  let t := emit .flushReq s
  wireMany (if t.params.blockingFlush then t.tx.length else v.leaveAfter) t

end Sys2Proof.Machine
end

