-- ==== Sys2Proof/Machine/Reads.lean ====
section
/-! DEFINITION. Functions 0x03 and 0x04 (42_dispatch.md R171, R172). -/

namespace Sys2Proof.Machine

/-- A read of `qty` registers of bank `sp` (42_dispatch.md R171, R172, with the order of checks of R177). The last
arm is not reached: every address of a span that is declared can be read. -/
def readRequest (sp : Space) (fc addr : Byte) (start qty : Word) (s : State) : State :=
  if !legalReadCount qty.toNat then raiseException addr fc 0x03 s
  else if !spanOk sp start.toNat qty.toNat s then raiseException addr fc 0x02 s
  else
    match readSpan sp start.toNat qty.toNat s with
    | (some vs, t) => respond addr (readBody t.slaveAddr fc vs) t
    | (none, t) => raiseException addr fc 0x02 t

/-- `read-holding-registers` (42_dispatch.md R171). -/
def execReadHoldingRegisters (addr : Byte) (start qty : Word) (s : State) : Host.Outcome State Fault Refusal :=
  .next (readRequest .holding 0x03 addr start qty s)

/-- `read-input-registers` (42_dispatch.md R172). -/
def execReadInputRegisters (addr : Byte) (start qty : Word) (s : State) : Host.Outcome State Fault Refusal :=
  .next (readRequest .input 0x04 addr start qty s)

end Sys2Proof.Machine
end

