-- ==== Sys2Proof/Machine/Responses.lean ====
section
/-! DEFINITION. The response rows of the table (43_serializer.md R200 to R204): what the block does with a response
is to serialize it into the Frame Buffer, whence phase 3 of the same `step()` hands it to the transport (R208). -/

namespace Sys2Proof.Machine

/-- `read-holding-registers.response` (43_serializer.md R201). -/
def execReadHoldingRegistersResponse (addr : Byte) (values : List Word) (s : State) :
    Host.Outcome State Fault Refusal :=
  .next (sendBody (readBody addr 0x03 values) s)

/-- `read-input-registers.response` (43_serializer.md R201). -/
def execReadInputRegistersResponse (addr : Byte) (values : List Word) (s : State) :
    Host.Outcome State Fault Refusal :=
  .next (sendBody (readBody addr 0x04 values) s)

/-- `write-single-holding-register.response` (43_serializer.md R203). -/
def execWriteSingleHoldingRegisterResponse (addr : Byte) (reg value : Word) (s : State) :
    Host.Outcome State Fault Refusal :=
  .next (sendBody (twoFieldBody addr 0x06 reg value) s)

/-- `write-multiple-holding-registers.response` (43_serializer.md R204). -/
def execWriteMultipleHoldingRegistersResponse (addr : Byte) (start qty : Word) (s : State) :
    Host.Outcome State Fault Refusal :=
  .next (sendBody (twoFieldBody addr 0x10 start qty) s)

/-- `exception.response` (43_serializer.md R202). -/
def execExceptionResponse (addr fc code : Byte) (s : State) : Host.Outcome State Fault Refusal :=
  .next (sendBody (exceptionBody addr fc code) s)

end Sys2Proof.Machine
end

