-- ==== Sys2Proof/Machine/Unsupported.lean ====
section
/-! DEFINITION. Every other function code (42_dispatch.md R178). -/

namespace Sys2Proof.Machine

/-- `unsupported-function` (42_dispatch.md R178): exception 0x01; the payload is not interpreted. -/
def execUnsupportedFunction (addr fc : Byte) (_payload : List Byte) (s : State) :
    Host.Outcome State Fault Refusal :=
  .next (raiseException addr fc 0x01 s)

end Sys2Proof.Machine
end

