-- ==== Sys2Proof/Machine/Writes.lean ====
section
/-! DEFINITION. Functions 0x06 and 0x10 (42_dispatch.md R174, R176). -/

namespace Sys2Proof.Machine

/-- Write `values` from `start` on in Holding and answer with the two fields `start` and `y` as received
(42_dispatch.md R174, R176). The last arm is not reached: every address of a declared span can be written. -/
def writeRequest (fc addr : Byte) (start y : Word) (values : List Word) (s : State) : State :=
  if !spanOk .holding start.toNat values.length s then raiseException addr fc 0x02 s
  else
    match writeSpan .holding start.toNat values s with
    | (true, t) => respond addr (twoFieldBody t.slaveAddr fc start y) t
    | (false, t) => raiseException addr fc 0x02 t

/-- `write-single-holding-register` (42_dispatch.md R174). -/
def execWriteSingleHoldingRegister (addr : Byte) (reg value : Word) (s : State) :
    Host.Outcome State Fault Refusal :=
  .next (writeRequest 0x06 addr reg value [value] s)

/-- `write-multiple-holding-registers` (42_dispatch.md R176). With legal fields the data are `bc = 2 qty` bytes, that is
`qty` values. -/
def execWriteMultipleHoldingRegisters (addr : Byte) (start qty : Word) (bc : Byte) (data : List Byte) (s : State) :
    Host.Outcome State Fault Refusal :=
  .next (if !legalWriteFields qty bc then raiseException addr 0x10 0x03 s
    else writeRequest 0x10 addr start qty (wordsOf data) s)

end Sys2Proof.Machine
end

