-- ==== Sys2Proof/Machine/Dispatch.lean ====
section
/-! DEFINITION. `execute` by function code (42_dispatch.md R170, 30_encoding.md R96), one arm per constructor. -/

namespace Sys2Proof.Machine

def exec (i : Instr) (s : State) : Host.Outcome State Fault Refusal :=
  match i with
  | .readHoldingRegisters addr start qty => Sys2Proof.Machine.execReadHoldingRegisters addr start qty s
  | .readInputRegisters addr start qty => Sys2Proof.Machine.execReadInputRegisters addr start qty s
  | .writeSingleHoldingRegister addr reg value => Sys2Proof.Machine.execWriteSingleHoldingRegister addr reg value s
  | .writeMultipleHoldingRegisters addr start qty bc data => Sys2Proof.Machine.execWriteMultipleHoldingRegisters addr start qty bc data s
  | .unsupportedFunction addr fc payload => Sys2Proof.Machine.execUnsupportedFunction addr fc payload s
  | .readHoldingRegistersResponse addr values => Sys2Proof.Machine.execReadHoldingRegistersResponse addr values s
  | .readInputRegistersResponse addr values => Sys2Proof.Machine.execReadInputRegistersResponse addr values s
  | .writeSingleHoldingRegisterResponse addr reg value => Sys2Proof.Machine.execWriteSingleHoldingRegisterResponse addr reg value s
  | .writeMultipleHoldingRegistersResponse addr start qty => Sys2Proof.Machine.execWriteMultipleHoldingRegistersResponse addr start qty s
  | .exceptionResponse addr fc code => Sys2Proof.Machine.execExceptionResponse addr fc code s

end Sys2Proof.Machine
end

