-- ==== Sys2Proof/Machine/FrameEngine.lean ====
section
/-! DEFINITION. The receive-side parser (41_frame_parser.md): `feed(item)`, the completion test, validation and the
entry into dispatch. -/

namespace Sys2Proof.Machine

/-- Go on from a next state; a fault or a refusal stops. -/
def andThen (o : Host.Outcome State Fault Refusal) (f : State → Host.Outcome State Fault Refusal) :
    Host.Outcome State Fault Refusal :=
  match o with
  | .next s => f s
  | .fault r => .fault r
  | .refused r => .refused r

/-- `dispatch()` (42_dispatch.md R170): the instruction that the Frame Buffer holds. -/
def dispatch (s : State) : Host.Outcome State Fault Refusal :=
  match decodeRequest s.frame with
  | .ok i => exec i { s with feState := .dispatching }
  | .error _ => .fault .frameNotDecodable

/-- `validate()` (41_frame_parser.md R150): CRC first, then the address. -/
def validate (s : State) : Host.Outcome State Fault Refusal :=
  let t := { s with feState := .validating }
  if !crcOk t.frame then .next (raiseReject .crcMismatch t)
  else if !addrOk t.slaveAddr t.frame then .next (raiseReject .addressMismatch t)
  else dispatch t

/-- The completion test after an append (41_frame_parser.md R144, R147). -/
def checkComplete (s : State) : Host.Outcome State Fault Refusal :=
  match expectedLen s.frame with
  | .fixed n => if s.len = n then validate s else .next s
  | .tooLong => .next (raiseReject .unsupportedLength s)
  | .need => .next s
  | .openEnded => .next s

/-- An item in `Idle` (41_frame_parser.md R141, R145, R149). -/
def feedIdle (item : RxItem) (s : State) : Host.Outcome State Fault Refusal :=
  match item with
  | .byte b => checkComplete (appendByte b { s with len := 0, feState := .accumulating })
  | .gap => .next s
  | .err => .next (clearFrame s)

/-- An item in `Accumulating` (41_frame_parser.md R142, R146, R148, R149). -/
def feedAccumulating (item : RxItem) (s : State) : Host.Outcome State Fault Refusal :=
  match item with
  | .byte b =>
      if s.len < Config.bufCap then checkComplete (appendByte b s)
      else .next (raiseReject .unsupportedLength s)
  | .gap =>
      if expectedLen s.frame = .openEnded ∧ 4 ≤ s.len then validate s else .next (clearFrame s)
  | .err => .next (clearFrame s)

/-- `feed(item)` (41_frame_parser.md R140, R153). -/
def feed (item : RxItem) (s : State) : Host.Outcome State Fault Refusal :=
  match s.feState with
  | .idle => feedIdle item s
  | .accumulating => feedAccumulating item s
  | .validating => .fault .itemInTransientState
  | .dispatching => .fault .itemInTransientState
  | .responding => .fault .itemInTransientState
  | .rejected => .fault .itemInTransientState

end Sys2Proof.Machine
end

