-- ==== Sys2Proof/Machine/Driver.lean ====
section
/-! DEFINITION. The Polling Driver's `step()`, `setup()`, the host's Register API calls and the moves of the line and
of the transmitter (45_direction_and_polling.md R258 to R267; 00_scope.md R9). -/

namespace Sys2Proof.Machine

/-- Phase 1, release (R263). -/
def releasePhase (s : State) : State :=
  let t := if s.txPending && s.flushComplete then { s with txPending := false } else s
  if t.txPending then t else assertReceive t

/-- Phase 2, drain (R264): `items` is the RX stream. -/
def drain : List RxItem → State → Host.Outcome State Fault Refusal
  | [], s => .next { s with rx := [] }
  | item :: rest, s =>
      if s.responseReady then .next { s with rx := item :: rest }
      else andThen (feed item { s with rx := rest }) (drain rest)

/-- The response is handed to the transport and a flush requested (R266, R267); under the verdict `v` the
transmitter moves at three places (R253). -/
def sendResponse (v : TxVerdict) (s : State) : State :=
  let written := txWrite v s.frame (assertTransmit (wireMany v.leaveBefore s))
  flushRequest v (wireMany v.leaveBetween (endResponse written))

/-- Phase 3, transmit (R266). -/
def transmitPhase (s : State) : State :=
  if s.responseReady then
    let t := sendResponse (nextVerdict s) s
    if t.params.blockingFlush || t.flushComplete then assertReceive { t with txPending := false }
    else { t with txPending := true }
  else s

/-- `step()` (R262); before `setup` it does nothing (70_reset_and_hazards.md R324). -/
def pollStep (s : State) : Host.Outcome State Fault Refusal :=
  if s.setupDone then
    andThen (drain s.rx (releasePhase s)) fun t => .next (transmitPhase t)
  else .next s

/-- Note what an operation returned to the host (00_scope.md R10 (d)). -/
def noteResult (r : HostResult) (s : State) : State :=
  { s with results := s.results ++ [r] }

/-- The state that `setup` leaves (R258). -/
def configure (addr : Byte) (pinBound : Bool) (s : State) : State :=
  let t := clearFrame { s with slaveAddr := addr, hasDirPin := pinBound, txPending := false, dirState := .receiving }
  { drivePin (!t.params.txLevel) t with setupDone := true }

/-- `setup(addr, pin_bound)` (R258, 70_reset_and_hazards.md R324). -/
def setup (addr : Byte) (pinBound : Bool) (s : State) : HostResult × State :=
  if s.setupDone then (.configError, s)
  else if !legalSlaveAddr addr then (.configError, s)
  else (.done, configure addr pinBound s)

/-- The host's `read` (44_register_store.md R222, R226). -/
def hostRead (sp : Space) (a : Word) (s : State) : HostResult × State :=
  match readReg sp a.toNat s with
  | (some v, t) => (.value v, t)
  | (none, t) => (.outOfRange, t)

/-- The host's `write` (44_register_store.md R223, R226). -/
def hostWrite (sp : Space) (a v : Word) (s : State) : HostResult × State :=
  match writeReg sp a.toNat v s with
  | (true, t) => (.success, t)
  | (false, t) => (.outOfRange, t)

/-- A host call that returns a result. -/
def hostCall (r : HostResult × State) : Host.Outcome State Fault Refusal :=
  .next (noteResult r.1 r.2)

/-- An item other than a gap reaches the RX stream (30_encoding.md R90). -/
def receiveItem (item : RxItem) (s : State) : State :=
  { s with rx := s.rx ++ [item], gapArmed := true }

/-- `T_SILENCE` of this block, its default (60_exceptions.md R308); no rule of the step reads it. -/
def State.silenceSeconds (s : State) : Rat :=
  Config.silenceSeconds s.params.baud.toNat

/-- The silence detector (30_encoding.md R90, 60_exceptions.md R308): one `Gap` per idle period, and only after an
item. -/
def receiveSilence (s : State) : State :=
  if s.gapArmed then { s with rx := s.rx ++ [.gap], gapArmed := false } else s

/-- One move of the host, the line or the transmitter (00_scope.md R9). -/
def perform (m : Move) (s : State) : Host.Outcome State Fault Refusal :=
  match m with
  | .callStep => pollStep s
  | .callSetup addr pinBound => hostCall (setup addr pinBound s)
  | .callDeclareRange sp start count initial => hostCall (declareRange sp start count initial s)
  | .callRead sp a => hostCall (hostRead sp a s)
  | .callWrite sp a v => hostCall (hostWrite sp a v s)
  | .callBindCallback sp a acc count handle => hostCall (bindCallback sp a acc count handle s)
  | .lineByte b => .next (receiveItem (.byte b) s)
  | .lineError => .next (receiveItem .err s)
  | .lineSilence => .next (receiveSilence s)
  | .wireByte => .next (wireOne s)

/-- The next move: the first of the agenda, or, where it is empty, the host's next call of `step()`
(70_reset_and_hazards.md R325). -/
def nextMove (s : State) : Host.Outcome State Fault Refusal :=
  match s.agenda with
  | [] => pollStep s
  | m :: rest => perform m { s with agenda := rest }

end Sys2Proof.Machine
end

