-- ==== Sys2Proof/Machine/Step.lean ====
section
/-! DEFINITION. One step of the system: one move of one agent (00_scope.md R9, 70_reset_and_hazards.md R340), and where
the next instruction is fetched from: the RX stream, through the parser. -/

namespace Sys2Proof.Machine

def step (s : State) : Host.Outcome State Fault Refusal :=
  nextMove s

/-- The items that carry a frame: its bytes, and a `Gap` where the function code gives it no length
(41_frame_parser.md R157). -/
def frameItems (frame : List Byte) : List RxItem :=
  frame.map .byte ++ if expectedLen frame = .openEnded then [.gap] else []

/-- The slave address under which a frame with this address byte is executed: the byte itself where it is a legal
address; for a broadcast, the one configured, or 1 where none is. -/
def addressFor (configured addr : Byte) : Byte :=
  if legalSlaveAddr addr then addr
  else if legalSlaveAddr configured then configured else 1

/-- The frame that a table word begins, waiting in the RX stream of a block that is set up, idle and about to be
stepped (assumption log 9). -/
def State.withFetchWord (s : State) (nbits w : Nat) : State :=
  let frame := tableFrame nbits w
  { s with
    rx := frameItems frame
    agenda := []
    feState := .idle
    len := 0
    setupDone := true
    slaveAddr := addressFor s.slaveAddr (frame.headD 0) }

end Sys2Proof.Machine
end

