-- ==== Sys2Proof/Machine/Ports.lean ====
section
/-! DEFINITION. A receive item as a port, 10 bits (30_encoding.md R90, 45_direction_and_polling.md R274):
`kind[1:0]`, 0 a byte, 1 a gap, 2 an error, 3 never produced, above `data[7:0]`. No other rule depends on it. -/

namespace Sys2Proof.Machine

/-- An item on the port; the data bits of a gap or an error are 0. -/
def portOfItem : RxItem → BitVec 10
  | .byte b => (0 : BitVec 2) ++ b
  | .gap => (1 : BitVec 2) ++ (0 : Byte)
  | .err => (2 : BitVec 2) ++ (0 : Byte)

/-- The item on the port; the kind 3 is none, and `data` is meaningful for a byte only. -/
def itemOfPort (p : BitVec 10) : Option RxItem :=
  if p.extractLsb' 8 2 = 0 then some (.byte (p.extractLsb' 0 8))
  else if p.extractLsb' 8 2 = 1 then some .gap
  else if p.extractLsb' 8 2 = 2 then some .err
  else none

end Sys2Proof.Machine
end

