-- ==== Sys2Proof/Safety.lean ====
section
/-! DEFINITION. What counts as a safe state and a safe run, in the terms the statements use: the invariants of
10_state.md R41 (three groups), the properties of the output trace (45_direction_and_polling.md R261, R268), and a
few abbreviations. -/

namespace Sys2Proof.Machine

/-- Address `a` of bank `sp` lies in the range (10_state.md R22). -/
def RegRange.covers (r : RegRange) (sp : Space) (a : Nat) : Prop :=
  r.space = sp ∧ r.start.toNat ≤ a ∧ a < r.start.toNat + r.count.toNat

/-- The Register Store is as 10_state.md R22, R41 and 44_register_store.md R220, R221 say: every map in its
canonical form; each range non-empty and inside the address space; the ranges of one bank pairwise disjoint; an
address declared exactly where a range covers it. -/
structure StoreInv (s : State) : Prop where
  memory : ∀ sp, Memory.wf (s.bank sp) = true
  callbacks : ∀ sp acc, Cells.wf (s.callbacks sp acc) = true
  inside : ∀ r ∈ s.ranges, 0 < r.count.toNat ∧ r.start.toNat + r.count.toNat ≤ Config.addressSpace
  disjoint : s.ranges.Pairwise fun r q => r.overlaps q.space q.start q.count = false
  declared : ∀ sp a, s.declared sp a = true ↔ ∃ r ∈ s.ranges, r.covers sp a

/-- The frame so far is not complete (41_frame_parser.md R144: `len > n` cannot occur, and a complete or too long
frame is not kept). -/
def partialFrame (frame : List Byte) : Prop :=
  match expectedLen frame with
  | .fixed n => frame.length < n
  | .tooLong => False
  | .need => True
  | .openEnded => True

/-- The Frame Engine between two moves (10_state.md R25, R27, R31, R41): `Idle` with an empty buffer, or
`Accumulating` with a partial frame that fits; the slave address legal once `setup` has run; nothing received
before. -/
structure EngineInv (s : State) : Prop where
  engine : (s.feState = .idle ∧ s.len = 0) ∨
    (s.feState = .accumulating ∧ 1 ≤ s.len ∧ s.len ≤ Config.bufCap ∧ partialFrame s.frame)
  slave : s.setupDone = true → legalSlaveAddr s.slaveAddr = true
  fresh : s.setupDone = false → s.feState = .idle

/-- The direction level after a trace, `level` being the one before it. -/
def levelAfter : Option Bool → List Event → Option Bool
  | level, [] => level
  | _, .dir l :: rest => levelAfter (some l) rest
  | level, .tx _ :: rest => levelAfter level rest
  | level, .flushReq :: rest => levelAfter level rest
  | level, .wire _ :: rest => levelAfter level rest

/-- Every response is written, and every byte leaves, while the output is at the transmit level
(45_direction_and_polling.md R268). -/
def sentUnderTransmit (txLevel : Bool) : Option Bool → List Event → Bool
  | _, [] => true
  | _, .dir l :: rest => sentUnderTransmit txLevel (some l) rest
  | level, .tx _ :: rest => level == some txLevel && sentUnderTransmit txLevel level rest
  | level, .flushReq :: rest => sentUnderTransmit txLevel level rest
  | level, .wire _ :: rest => level == some txLevel && sentUnderTransmit txLevel level rest

/-- The `Dir` events alternate (45_direction_and_polling.md R261). -/
def dirAlternates : Option Bool → List Event → Bool
  | _, [] => true
  | level, .dir l :: rest => level != some l && dirAlternates (some l) rest
  | level, .tx _ :: rest => dirAlternates level rest
  | level, .flushReq :: rest => dirAlternates level rest
  | level, .wire _ :: rest => dirAlternates level rest

/-- The line (10_state.md R41; 45_direction_and_polling.md R261, R268): transmitting exactly while a flush is
pending; nothing waiting to leave otherwise; before `setup` nothing has been output; and with a pin bound the output
is at the transmit level exactly while transmitting, the trace ends at that level, every response and every byte
leaves under the transmit level, and `Dir` events alternate. -/
structure LineInv (s : State) : Prop where
  pending : s.dirState = .transmitting ↔ s.txPending = true
  queue : s.txPending = false → s.tx = []
  fresh : s.setupDone = false → s.trace = [] ∧ s.hasDirPin = false ∧ s.txPending = false
  pin : s.hasDirPin = true → (s.dirOut = s.params.txLevel ↔ s.dirState = .transmitting)
  level : s.hasDirPin = true → levelAfter none s.trace = some s.dirOut
  guarded : s.hasDirPin = true → sentUnderTransmit s.params.txLevel none s.trace = true
  alternate : s.hasDirPin = true → dirAlternates none s.trace = true

/-- `Tx` events. -/
def isTx : Event → Bool
  | .dir _ => false
  | .tx _ => true
  | .flushReq => false
  | .wire _ => false

/-- The address byte of a request; of a response, the responder's. -/
def addressOf : Instr → Byte
  | .readHoldingRegisters addr _ _ => addr
  | .readInputRegisters addr _ _ => addr
  | .writeSingleHoldingRegister addr _ _ => addr
  | .writeMultipleHoldingRegisters addr _ _ _ _ => addr
  | .unsupportedFunction addr _ _ => addr
  | .readHoldingRegistersResponse addr _ => addr
  | .readInputRegistersResponse addr _ => addr
  | .writeSingleHoldingRegisterResponse addr _ _ => addr
  | .writeMultipleHoldingRegistersResponse addr _ _ => addr
  | .exceptionResponse addr _ _ => addr

/-- The same frame with another address byte. -/
def readdress (a : Byte) : Instr → Instr
  | .readHoldingRegisters _ start qty => .readHoldingRegisters a start qty
  | .readInputRegisters _ start qty => .readInputRegisters a start qty
  | .writeSingleHoldingRegister _ reg value => .writeSingleHoldingRegister a reg value
  | .writeMultipleHoldingRegisters _ start qty bc data => .writeMultipleHoldingRegisters a start qty bc data
  | .unsupportedFunction _ fc payload => .unsupportedFunction a fc payload
  | .readHoldingRegistersResponse _ values => .readHoldingRegistersResponse a values
  | .readInputRegistersResponse _ values => .readInputRegistersResponse a values
  | .writeSingleHoldingRegisterResponse _ reg value => .writeSingleHoldingRegisterResponse a reg value
  | .writeMultipleHoldingRegistersResponse _ start qty => .writeMultipleHoldingRegistersResponse a start qty
  | .exceptionResponse _ fc code => .exceptionResponse a fc code

/-- `t` is `s` but for the Frame Buffer, `len` and `fe_state`. -/
def SameButFrame (s t : State) : Prop :=
  t = { s with buf := t.buf, len := t.len, feState := t.feState }

/-- `t` is `s` but for what a callback's invocation leaves: its record, its answer used up, a draw counted. -/
def SameButCalls (s t : State) : Prop :=
  t = { s with calls := t.calls, hostAnswers := t.hostAnswers, draws := t.draws }

/-- The exception response `code` to function `fc` of request address `addr`, and nothing else
(60_exceptions.md R292, R296): 5 bytes in the Frame Buffer and `Responding`; for a broadcast the buffer emptied and
`Idle` (42_dispatch.md R180). -/
def RaisesException (addr fc code : Byte) (s t : State) : Prop :=
  SameButFrame s t ∧
    (addr ≠ 0 → t.feState = .responding ∧ t.len = 5 ∧ t.frame = sealFrame [s.slaveAddr, fc ||| 0x80, code]) ∧
    (addr = 0 → t.feState = .idle ∧ t.len = 0)

/-- Running the response `i` completes: the sealed `body` is in the Frame Buffer, the engine is `Responding`, and nothing
else changes (43_serializer.md R200, R208). -/
def Serializes (i : Instr) (body : List Byte) (s : State) : Prop :=
  ∃ t, exec i s = .next t ∧ t.frame = sealFrame body ∧ t.len = body.length + 2 ∧ t.feState = .responding ∧
    SameButFrame s t

/-- The registers `start .. start + |vs| - 1` of `sp` hold `vs` in `t`, and every other register of both banks is as in
`s`. -/
def Stored (sp : Space) (start : Nat) (vs : List Word) (s t : State) : Prop :=
  (∀ i (h : i < vs.length), t.reg sp (start + i) = some vs[i]) ∧
    (∀ a, (a < start ∨ start + vs.length ≤ a) → t.reg sp a = s.reg sp a) ∧
    (∀ sp' a, sp' ≠ sp → t.reg sp' a = s.reg sp' a)

/-- The call records that accesses to `start, start + 1, …` with `values` leave, in that order: one for each address
that has a callback (44_register_store.md R224, R225). -/
def callsOf (s : State) (sp : Space) (acc : Access) : Nat → List Word → List CallRecord
  | _, [] => []
  | a, v :: vs =>
      match s.callback sp acc a with
      | none => callsOf s sp acc (a + 1) vs
      | some h => ⟨sp, acc, h, a, v⟩ :: callsOf s sp acc (a + 1) vs

/-- How many of the `n` addresses from `start` on have a callback bound. -/
def boundCount (s : State) (sp : Space) (acc : Access) (start n : Nat) : Nat :=
  (List.range n).countP fun j => (s.callback sp acc (start + j)).isSome

/-- `s` once `k` callbacks have answered: their scripted answers used up and their draws counted (assumption log 3). -/
def State.afterAnswers (s : State) (k : Nat) : State :=
  { s with hostAnswers := s.hostAnswers.drop k, draws := s.draws + k }

/-- What access number `i` of a run from `start` on uses in place of `v`, where `s` is the state before the run: `v`
itself where no callback is bound, else the answer of the bound one to (address, `v`), given after the answers of the
bound addresses before it (44_register_store.md R222, R223, R225). -/
def accessResult (s : State) (sp : Space) (acc : Access) (start i : Nat) (v : Word) : Word :=
  match s.callback sp acc (start + i) with
  | none => v
  | some h => callbackResult h (start + i) v (s.afterAnswers (boundCount s sp acc start i))

end Sys2Proof.Machine
end

