-- ==== Sys2Proof/Certificates/Slice0/Obligations.lean ====
section
/-! DEFINITION. The statements for the provers. Each docstring names the rule or the section of the spec it comes
from, and the model's choice where it rests on one. -/

open Sys2Proof Sys2Proof.Machine

/-! ## Encoding and decoding -/

/-- 30_encoding.md section 2 (R91 to R95): encoding a well-formed request and decoding the bytes gives it back, with
every field at every value. -/
def Obligations.RequestEncodingRoundTrip : Prop :=
  ∀ i : Instr, i.wellFormed = true → i.isRequest = true → decodeRequest (encode i) = .ok i

/-- 30_encoding.md R94: the same of every response the block sends. -/
def Obligations.ResponseEncodingRoundTrip : Prop :=
  ∀ i : Instr, i.wellFormed = true → i.isRequest = false → decodeResponse (encode i) = .ok i

/-- 30_encoding.md sections 2 and 3, 40_crc.md R123, R124: no bit of a frame is dropped. A frame that decodes and passes
the CRC check is the encoding of what it decodes to, which is a well-formed request or response. -/
def Obligations.DecodedFrameReencodes : Prop :=
  ∀ (f : List Byte) (i : Instr), crcOk f = true →
    (decodeRequest f = .ok i → encode i = f ∧ i.wellFormed = true ∧ i.isRequest = true) ∧
    (decodeResponse f = .ok i → encode i = f ∧ i.wellFormed = true ∧ i.isRequest = false)

/-- 30_encoding.md R96, R102: the row of spec/opcode_table.json that first matches `be16` of the first two bytes, among
the rows of its kind, is the row of the instruction the frame decodes to. -/
def Obligations.OpcodeTableSelectsInstruction : Prop :=
  ∀ (a fc : Byte) (rest : List Byte) (i : Instr),
    (decodeRequest (a :: fc :: rest) = .ok i → tableLookup true (be16 a fc) = some i.mnemonic) ∧
    (decodeResponse (a :: fc :: rest) = .ok i → tableLookup false (be16 a fc) = some i.mnemonic)

/-- 95_test_vectors.md V1, V8, W1, M1, I1, X1 and A7: frames written out byte by byte decode to the instruction they
stand for. -/
def Obligations.SpecFramesDecode : Prop :=
  decodeRequest [0x11, 0x03, 0x00, 0x02, 0x00, 0x03, 0xA6, 0x9B] = .ok (.readHoldingRegisters 0x11 2 3) ∧
  decodeRequest [0x11, 0x04, 0x00, 0x00, 0x00, 0x01, 0x33, 0x5A] = .ok (.readInputRegisters 0x11 0 1) ∧
  decodeRequest [0x11, 0x06, 0x00, 0x05, 0x12, 0x34, 0x96, 0x2C] =
    .ok (.writeSingleHoldingRegister 0x11 5 0x1234) ∧
  decodeRequest [0x11, 0x10, 0x00, 0x00, 0x00, 0x02, 0x04, 0x00, 0x0A, 0x01, 0x02, 0x07, 0x3C] =
    .ok (.writeMultipleHoldingRegisters 0x11 0 2 4 [0x00, 0x0A, 0x01, 0x02]) ∧
  decodeRequest [0x11, 0x01, 0x00, 0x00, 0x00, 0x08, 0x3F, 0x5C] =
    .ok (.unsupportedFunction 0x11 0x01 [0x00, 0x00, 0x00, 0x08]) ∧
  decodeResponse [0x11, 0x03, 0x04, 0x00, 0x0A, 0x01, 0x02, 0x4B, 0xA1] =
    .ok (.readHoldingRegistersResponse 0x11 [0x000A, 0x0102]) ∧
  decodeResponse [0x11, 0x83, 0x02, 0xC1, 0x34] = .ok (.exceptionResponse 0x11 0x83 0x02)

/-- 30_encoding.md R90: a receive item crosses its 10-bit port unchanged, and kind 3 is no item. -/
def Obligations.ReceiveItemPortRoundTrip : Prop :=
  (∀ item : RxItem, itemOfPort (portOfItem item) = some item) ∧
  (∀ data : Byte, itemOfPort ((3 : BitVec 2) ++ data) = none)

/-! ## The CRC -/

/-- 40_crc.md R122: the table-driven form gives the same value as the bit-serial one, for every byte sequence. -/
def Obligations.CrcTableFormAgrees : Prop :=
  ∀ s : List Byte, crc16Table s = crc16 s

/-- 40_crc.md R125: the running form; feeding a CRC's own two bytes, low byte first, clears the register; so the check
of R124 is that the CRC of the whole frame is 0. -/
def Obligations.CrcRunningFormAndResidue : Prop :=
  (∀ s t : List Byte, crc16 (s ++ t) = crcRun (crc16 s) t) ∧
  (∀ c : Word, crcRun c [lo8 c, hi8 c] = 0) ∧
  (∀ f : List Byte, 4 ≤ f.length → (crcOk f = true ↔ crc16 f = 0))

/-- 40_crc.md R126, R121, R128, R129: values of the CRC that the spec prints. -/
def Obligations.CrcPrintedValues : Prop :=
  crc16 [] = 0xFFFF ∧ crc16 [0x00] = 0x40BF ∧ crc16 [0x01] = 0x807E ∧ crc16 [0xFF] = 0x00FF ∧
  crc16 [0x00, 0x00] = 0xB001 ∧ crc16 [0x00, 0x00, 0x00] = 0xC071 ∧ crc16 [0xFF, 0xFF] = 0x0000 ∧
  crc16 [0x11] = 0x4C7F ∧ crc16 [0x11, 0x03] = 0xE14D ∧
  crc16 [0x31, 0x32, 0x33, 0x34, 0x35, 0x36, 0x37, 0x38, 0x39] = 0x4B37 ∧
  crc16 [0x11, 0x03, 0x00, 0x02, 0x00, 0x03] = 0x9BA6 ∧ crc16 [0x01, 0x03, 0x00, 0x00, 0x00, 0x01] = 0x0A84

/-- 95_test_vectors.md V3: a frame that passes the CRC check fails it with its last byte changed. -/
def Obligations.CorruptedLastByteFailsCrc : Prop :=
  ∀ (f : List Byte) (x y : Byte), 3 ≤ f.length → crcOk (f ++ [x]) = true → y ≠ x → crcOk (f ++ [y]) = false

/-! ## The Register Store -/

/-- 44_register_store.md R222: `read` of an undeclared address is `OutOfRange`, runs no callback and changes nothing; of a
declared one it gives the stored value, or the bound Read callback's answer to it; what is stored never changes. -/
def Obligations.ReadRegisterContract : Prop :=
  ∀ (sp : Space) (a : Nat) (s : State),
    (s.declared sp a = false → readReg sp a s = (none, s)) ∧
    (∀ v, s.reg sp a = some v → s.callback sp .read a = none → readReg sp a s = (some v, s)) ∧
    (∀ v h, s.reg sp a = some v → s.callback sp .read a = some h →
      readReg sp a s = (some (callbackResult h a v s), noteCall ⟨sp, .read, h, a, v⟩ s)) ∧
    (∀ sp' b, (readReg sp a s).2.reg sp' b = s.reg sp' b)

/-- 44_register_store.md R223: `write` of an undeclared address is `OutOfRange` and changes nothing; of a declared one it
stores the value, or the bound Write callback's answer to it, in that register and no other. -/
def Obligations.WriteRegisterContract : Prop :=
  ∀ (sp : Space) (a : Nat) (v : Word) (s : State),
    (s.declared sp a = false → writeReg sp a v s = (false, s)) ∧
    (s.declared sp a = true → ∃ t, writeReg sp a v s = (true, t) ∧
      (s.callback sp .write a = none → Stored sp a [v] s t ∧ t.calls = s.calls) ∧
      (∀ h, s.callback sp .write a = some h →
        Stored sp a [callbackResult h a v s] s t ∧ t.calls = s.calls ++ [⟨sp, .write, h, a, v⟩]) ∧
      SameButCalls (s.setBank sp (t.bank sp)) t)

/-- 44_register_store.md R223, example; 95_test_vectors.md V5: with no callback bound, `write` then `read` returns what was
written; with a Write callback, what it answered. -/
def Obligations.ReadAfterWriteReturnsStored : Prop :=
  ∀ (sp : Space) (a : Nat) (v : Word) (s t : State), writeReg sp a v s = (true, t) →
    s.callback sp .read a = none →
    (s.callback sp .write a = none → readReg sp a t = (some v, t)) ∧
    (∀ h, s.callback sp .write a = some h → readReg sp a t = (some (callbackResult h a v s), t))

/-- 44_register_store.md R220: `declare_range` path by path, its result, what it allocates and that every other path changes
nothing. -/
def Obligations.DeclareRangeContract : Prop :=
  ∀ (sp : Space) (start count initial : Word) (s : State),
    (65536 < start.toNat + count.toNat → declareRange sp start count initial s = (.invalidRange, s)) ∧
    (start.toNat + count.toNat ≤ 65536 → count = 0 → declareRange sp start count initial s = (.success, s)) ∧
    (start.toNat + count.toNat ≤ 65536 → (⟨sp, start, count⟩ : RegRange) ∈ s.ranges →
      declareRange sp start count initial s = (.success, s)) ∧
    (start.toNat + count.toNat ≤ 65536 → count ≠ 0 → (⟨sp, start, count⟩ : RegRange) ∉ s.ranges →
      (∃ r ∈ s.ranges, ∃ a, r.covers sp a ∧ start.toNat ≤ a ∧ a < start.toNat + count.toNat) →
      declareRange sp start count initial s = (.alreadyExists, s)) ∧
    (start.toNat + count.toNat ≤ 65536 → count ≠ 0 →
      (∀ r ∈ s.ranges, r.space = sp → start.toNat + count.toNat ≤ r.start.toNat ∨
        r.start.toNat + r.count.toNat ≤ start.toNat) →
      ∃ t, declareRange sp start count initial s = (.success, t) ∧
        Stored sp start.toNat (List.replicate count.toNat initial) s t ∧
        t.ranges = s.ranges ++ [⟨sp, start, count⟩] ∧
        t = { s.setBank sp (t.bank sp) with ranges := t.ranges })

/-- 44_register_store.md R224: `bind_callback` binds the function at exactly the addresses of the run, replacing what was
bound there, and says whether it replaced any; a run past 65535 binds nothing. -/
def Obligations.BindCallbackContract : Prop :=
  ∀ (sp : Space) (address : Word) (acc : Access) (count : Word) (handle : Nat) (s : State),
    (65536 < address.toNat + count.toNat → bindCallback sp address acc count handle s = (.invalidRange, s)) ∧
    (address.toNat + count.toNat ≤ 65536 → ∃ r t, bindCallback sp address acc count handle s = (r, t) ∧
      (r = .replaced ∨ r = .bound) ∧
      (r = .replaced ↔ ∃ a h, address.toNat ≤ a ∧ a < address.toNat + count.toNat ∧
        s.callback sp acc a = some h) ∧
      (∀ sp' acc' a, t.callback sp' acc' a =
        if sp' = sp ∧ acc' = acc ∧ address.toNat ≤ a ∧ a < address.toNat + count.toNat then some handle
        else s.callback sp' acc' a) ∧
      t = s.setCallbacks sp acc (t.callbacks sp acc))

/-- 20_memory.md R70, 42_dispatch.md R173: the span check is in natural numbers, with no wrap from 65535 to 0, and asks only
whether each address is declared. -/
def Obligations.SpanCheckHasNoWrap : Prop :=
  ∀ (sp : Space) (start qty : Word) (s : State),
    spanOk sp start.toNat qty.toNat s = true ↔
      start.toNat + qty.toNat ≤ 65536 ∧ ∀ i, i < qty.toNat → s.declared sp (start.toNat + i) = true

/-- 20_memory.md R65; 44_register_store.md R222, R225: reading a declared run gives one value for each address, the stored one
where no Read callback is bound, else the bound one's answer to it; the bound ones are called in ascending order, each
once, with the stored value; and nothing else changes. Which answer a call gets, after the answers of the calls before
it, is assumption log 3's (`accessResult`). -/
def Obligations.ReadRunInAddressOrder : Prop :=
  ∀ (sp : Space) (start n : Nat) (s : State), (∀ i, i < n → s.declared sp (start + i) = true) →
    ∃ (stored vs : List Word) (t : State), readSpan sp start n s = (some vs, t) ∧
      vs.length = n ∧ stored.length = n ∧
      (∀ i (h : i < stored.length), s.reg sp (start + i) = some stored[i]) ∧
      (∀ i (h : i < vs.length) (h' : i < stored.length), vs[i] = accessResult s sp .read start i stored[i]) ∧
      t.calls = s.calls ++ callsOf s sp .read start stored ∧ SameButCalls s t

/-- 20_memory.md R65; 44_register_store.md R223 to R225: writing a declared run stores one value for each address, the given
one where no Write callback is bound, else the bound one's answer to it; the bound ones are called in ascending order,
each once, with the given value; every other register is unchanged. Which answer a call gets is assumption log 3's
(`accessResult`). -/
def Obligations.WriteRunInAddressOrder : Prop :=
  ∀ (sp : Space) (start : Nat) (vs : List Word) (s : State),
    (∀ i, i < vs.length → s.declared sp (start + i) = true) →
    ∃ (stored : List Word) (t : State), writeSpan sp start vs s = (true, t) ∧ stored.length = vs.length ∧
      Stored sp start stored s t ∧
      (∀ i (h : i < vs.length) (h' : i < stored.length), stored[i] = accessResult s sp .write start i vs[i]) ∧
      t.calls = s.calls ++ callsOf s sp .write start vs ∧ SameButCalls (s.setBank sp (t.bank sp)) t

/-! ## The requests: results and frames -/

/-- 42_dispatch.md R171, R172, R179; 43_serializer.md R201: a legal unicast read of a declared span completes. The response
holds the responder's address, the function code, the byte count and one value for each register in address order, high
byte first: the stored value where no Read callback is bound, else the bound one's answer to it (`accessResult`, assumption
log 3). Nothing but the Frame Buffer and the callback bookkeeping changes: no register, no flag, no output. -/
def Obligations.ReadRequestsAnswerRegisters : Prop :=
  ∀ (s : State) (addr : Byte) (start qty : Word) (sp : Space) (fc : Byte),
    (sp = .holding ∧ fc = 0x03 ∨ sp = .input ∧ fc = 0x04) →
    addr ≠ 0 → 1 ≤ qty.toNat → qty.toNat ≤ 125 → spanOk sp start.toNat qty.toNat s = true →
    ∃ (vs stored : List Word) (t : State),
      exec (if sp = .holding then .readHoldingRegisters addr start qty
        else .readInputRegisters addr start qty) s = .next t ∧
      vs.length = qty.toNat ∧ stored.length = qty.toNat ∧
      (∀ i (h : i < stored.length), s.reg sp (start.toNat + i) = some stored[i]) ∧
      (∀ i (h : i < vs.length) (h' : i < stored.length),
        vs[i] = accessResult s sp .read start.toNat i stored[i]) ∧
      t.frame = sealFrame (s.slaveAddr :: fc :: BitVec.ofNat 8 (2 * qty.toNat) :: bytesOf vs) ∧
      t.feState = .responding ∧ t.len = 5 + 2 * qty.toNat ∧
      t.calls = s.calls ++ callsOf s sp .read start.toNat stored ∧
      t = { s with buf := t.buf, len := t.len, feState := t.feState, calls := t.calls,
                   hostAnswers := t.hostAnswers, draws := t.draws }

/-- 42_dispatch.md R171, R172: with no Read callback on the span, the payload is the stored values and no callback runs. The
conclusion is put through the meaning of a response row, its serialization, which is the model's reading (assumption
log 7). -/
def Obligations.UncallbackedReadAnswersStoredValues : Prop :=
  ∀ (s : State) (addr : Byte) (start qty : Word) (stored : List Word), addr ≠ 0 →
    1 ≤ qty.toNat → qty.toNat ≤ 125 → stored.length = qty.toNat →
    start.toNat + qty.toNat ≤ 65536 →
    ((∀ i (h : i < stored.length), s.reg .holding (start.toNat + i) = some stored[i] ∧
        s.callback .holding .read (start.toNat + i) = none) →
      exec (.readHoldingRegisters addr start qty) s =
        exec (.readHoldingRegistersResponse s.slaveAddr stored) s) ∧
    ((∀ i (h : i < stored.length), s.reg .input (start.toNat + i) = some stored[i] ∧
        s.callback .input .read (start.toNat + i) = none) →
      exec (.readInputRegisters addr start qty) s =
        exec (.readInputRegistersResponse s.slaveAddr stored) s)

/-- 42_dispatch.md R174, R179; 43_serializer.md R203: a unicast write-single to a declared register completes. The register
holds the value, or the Write callback's answer to it; every other register is unchanged; the response repeats register
and value as received. Nothing else but the callback bookkeeping changes. -/
def Obligations.WriteSingleStoresAndEchoes : Prop :=
  ∀ (s : State) (addr : Byte) (reg value : Word), addr ≠ 0 → s.declared .holding reg.toNat = true →
    ∃ (stored : Word) (t : State), exec (.writeSingleHoldingRegister addr reg value) s = .next t ∧
      Stored .holding reg.toNat [stored] s t ∧
      (s.callback .holding .write reg.toNat = none → stored = value ∧ t.calls = s.calls) ∧
      (∀ h, s.callback .holding .write reg.toNat = some h → stored = callbackResult h reg.toNat value s ∧
        t.calls = s.calls ++ [⟨.holding, .write, h, reg.toNat, value⟩]) ∧
      t.frame = sealFrame [s.slaveAddr, 0x06, hi8 reg, lo8 reg, hi8 value, lo8 value] ∧
      t.feState = .responding ∧ t.len = 8 ∧
      t = { s with holding := t.holding, buf := t.buf, len := t.len, feState := t.feState,
                   calls := t.calls, hostAnswers := t.hostAnswers, draws := t.draws }

/-- 42_dispatch.md R176, R179; 43_serializer.md R204: a unicast write-multiple with legal fields to a declared span completes.
The span holds the values in address order, or, where a Write callback is bound, its answer to the value, given after the
answers of the bound addresses before it (`accessResult`, assumption log 3); every other register is unchanged; the
response repeats start and quantity. Nothing else but the callback bookkeeping changes. -/
def Obligations.WriteMultipleStoresSpan : Prop :=
  ∀ (s : State) (addr : Byte) (start qty : Word) (bc : Byte) (data : List Byte), addr ≠ 0 →
    1 ≤ qty.toNat → qty.toNat ≤ 123 → bc.toNat = 2 * qty.toNat → data.length = bc.toNat →
    spanOk .holding start.toNat qty.toNat s = true →
    ∃ (stored : List Word) (t : State),
      exec (.writeMultipleHoldingRegisters addr start qty bc data) s = .next t ∧
      stored.length = qty.toNat ∧ Stored .holding start.toNat stored s t ∧
      (∀ i (h : i < stored.length) (h' : 2 * i + 1 < data.length),
        stored[i] = accessResult s .holding .write start.toNat i (be16 data[2 * i] data[2 * i + 1])) ∧
      t.calls = s.calls ++ callsOf s .holding .write start.toNat (wordsOf data) ∧
      t.frame = sealFrame [s.slaveAddr, 0x10, hi8 start, lo8 start, hi8 qty, lo8 qty] ∧
      t.feState = .responding ∧ t.len = 8 ∧
      t = { s with holding := t.holding, buf := t.buf, len := t.len, feState := t.feState,
                   calls := t.calls, hostAnswers := t.hostAnswers, draws := t.draws }

/-- 42_dispatch.md R178, 60_exceptions.md R290: every unsupported function code, whatever its payload, completes with exception
0x01, and nothing else changes; a broadcast one ends silently (R180). -/
def Obligations.UnsupportedFunctionRaisesIllegalFunction : Prop :=
  ∀ (s : State) (addr fc : Byte) (payload : List Byte),
    ∃ t, exec (.unsupportedFunction addr fc payload) s = .next t ∧ RaisesException addr fc 0x01 s t

/-- 42_dispatch.md R171, R172, R176, R177, 60_exceptions.md R290: an illegal quantity, or a byte count that is not twice the
quantity, gives exception 0x03, whatever is declared, and nothing else changes. -/
def Obligations.IllegalFieldsRaiseIllegalValue : Prop :=
  ∀ (s : State) (addr : Byte) (start qty : Word) (bc : Byte) (data : List Byte),
    (qty.toNat = 0 ∨ 125 < qty.toNat →
      (∃ t, exec (.readHoldingRegisters addr start qty) s = .next t ∧ RaisesException addr 0x03 0x03 s t) ∧
      (∃ t, exec (.readInputRegisters addr start qty) s = .next t ∧ RaisesException addr 0x04 0x03 s t)) ∧
    (qty.toNat = 0 ∨ 123 < qty.toNat ∨ bc.toNat ≠ 2 * qty.toNat →
      ∃ t, exec (.writeMultipleHoldingRegisters addr start qty bc data) s = .next t ∧
        RaisesException addr 0x10 0x03 s t)

/-- 42_dispatch.md R171 to R177, 20_memory.md R69, R70, 60_exceptions.md R290: with legal fields, a span not wholly declared in
the bank of the function code, or running past 65535, gives exception 0x02, and no register, callback or output is
touched. -/
def Obligations.UndeclaredSpanRaisesIllegalAddress : Prop :=
  ∀ (s : State) (addr : Byte) (start qty value : Word) (bc : Byte) (data : List Byte),
    (1 ≤ qty.toNat → qty.toNat ≤ 125 →
      (spanOk .holding start.toNat qty.toNat s = false →
        ∃ t, exec (.readHoldingRegisters addr start qty) s = .next t ∧ RaisesException addr 0x03 0x02 s t) ∧
      (spanOk .input start.toNat qty.toNat s = false →
        ∃ t, exec (.readInputRegisters addr start qty) s = .next t ∧ RaisesException addr 0x04 0x02 s t)) ∧
    (s.declared .holding start.toNat = false →
      ∃ t, exec (.writeSingleHoldingRegister addr start value) s = .next t ∧ RaisesException addr 0x06 0x02 s t) ∧
    (1 ≤ qty.toNat → qty.toNat ≤ 123 → bc.toNat = 2 * qty.toNat → data.length = bc.toNat →
      spanOk .holding start.toNat qty.toNat s = false →
      ∃ t, exec (.writeMultipleHoldingRegisters addr start qty bc data) s = .next t ∧
        RaisesException addr 0x10 0x02 s t)

/-- 42_dispatch.md R180: a broadcast request leaves the engine `Idle` with an empty buffer and outputs nothing; registers, callback
records and all other state are exactly what the same request addressed to a slave leaves. -/
def Obligations.BroadcastExecutesSilently : Prop :=
  ∀ (s : State) (i : Instr) (a : Byte), i.isRequest = true → a ≠ 0 →
    ∃ t u, exec (readdress 0 i) s = .next t ∧ exec (readdress a i) s = .next u ∧
      t.feState = .idle ∧ t.len = 0 ∧ t.trace = s.trace ∧ t.tx = s.tx ∧ SameButFrame u t

/-- 42_dispatch.md R181, 43_serializer.md R206, R207: every well-formed request not broadcast leaves exactly one response in the
Frame Buffer: a frame the block sends, with a good CRC, from its own address, of 5 to 255 bytes. -/
def Obligations.EveryUnicastRequestIsAnsweredOnce : Prop :=
  ∀ (s : State) (i : Instr), i.isRequest = true → i.wellFormed = true → addressOf i ≠ 0 →
    legalSlaveAddr s.slaveAddr = true →
    ∃ t r, exec i s = .next t ∧ t.feState = .responding ∧ crcOk t.frame = true ∧
      decodeResponse t.frame = .ok r ∧ addressOf r = s.slaveAddr ∧ 5 ≤ t.len ∧ t.len ≤ 255 ∧
      t.trace = s.trace ∧ t.tx = s.tx

/-- 43_serializer.md R200 to R204, R208: each of the five responses completes: its body, sealed with its own CRC, is in the
Frame Buffer, `len` is its length, the engine is `Responding`, and nothing else changes. That a response row's meaning is
its serialization is the model's reading (assumption log 7). -/
def Obligations.ResponsesAreSerialized : Prop :=
  ∀ (s : State) (addr : Byte),
    (∀ vs : List Word, vs.length ≤ 125 →
      Serializes (.readHoldingRegistersResponse addr vs)
        (addr :: 0x03 :: BitVec.ofNat 8 (2 * vs.length) :: bytesOf vs) s ∧
      Serializes (.readInputRegistersResponse addr vs)
        (addr :: 0x04 :: BitVec.ofNat 8 (2 * vs.length) :: bytesOf vs) s) ∧
    (∀ reg value : Word, Serializes (.writeSingleHoldingRegisterResponse addr reg value)
      [addr, 0x06, hi8 reg, lo8 reg, hi8 value, lo8 value] s) ∧
    (∀ start qty : Word, Serializes (.writeMultipleHoldingRegistersResponse addr start qty)
      [addr, 0x10, hi8 start, lo8 start, hi8 qty, lo8 qty] s) ∧
    (∀ fc code : Byte, Serializes (.exceptionResponse addr fc code) [addr, fc, code] s)

/-- 43_serializer.md R206: the lengths of the responses. -/
def Obligations.ResponseLengths : Prop :=
  (∀ a vs, (encode (.readHoldingRegistersResponse a vs)).length = 5 + 2 * vs.length) ∧
  (∀ a vs, (encode (.readInputRegistersResponse a vs)).length = 5 + 2 * vs.length) ∧
  (∀ a r v, (encode (.writeSingleHoldingRegisterResponse a r v)).length = 8) ∧
  (∀ a x q, (encode (.writeMultipleHoldingRegistersResponse a x q)).length = 8) ∧
  (∀ a f c, (encode (.exceptionResponse a f c)).length = 5) ∧
  (∀ i : Instr, i.isRequest = false → i.wellFormed = true →
    5 ≤ (encode i).length ∧ (encode i).length ≤ 255)

/-- 43_serializer.md R203: the response to a write-single request addressed to the block is byte for byte the request. -/
def Obligations.WriteSingleResponseEqualsRequest : Prop :=
  ∀ (s : State) (reg value : Word), s.slaveAddr ≠ 0 → s.declared .holding reg.toNat = true →
    ∃ t, exec (.writeSingleHoldingRegister s.slaveAddr reg value) s = .next t ∧
      t.frame = encode (.writeSingleHoldingRegister s.slaveAddr reg value)

/-! ## The receive-side parser -/

/-- 41_frame_parser.md R141: any byte received in `Idle` becomes byte 0 of a new frame. -/
def Obligations.FirstByteStartsFrame : Prop :=
  ∀ (s : State) (b : Byte), s.feState = .idle →
    ∃ t, feed (.byte b) s = .next t ∧ t.feState = .accumulating ∧ t.len = 1 ∧ t.frame = [b] ∧ SameButFrame s t

/-- 41_frame_parser.md R142, R144: a byte that does not complete the frame is appended, and nothing else changes. -/
def Obligations.ByteIsAppendedUntilComplete : Prop :=
  ∀ (s : State) (b : Byte), s.feState = .accumulating → s.len < 256 → partialFrame (s.frame ++ [b]) →
    ∃ t, feed (.byte b) s = .next t ∧ t.feState = .accumulating ∧ t.len = s.len + 1 ∧
      t.frame = s.frame ++ [b] ∧ SameButFrame s t

/-- 41_frame_parser.md R143, R144, R157: the expected length by function code, `expected_len` of a frame's first bytes; and the
byte with which a frame reaches a fixed expected length completes it: it is appended and the frame is validated. -/
def Obligations.ExpectedLengthByFunctionCode : Prop :=
  (∀ f : List Byte, f.length < 2 → expectedLen f = .need) ∧
  (∀ (a fc : Byte) (rest : List Byte), fc = 0x03 ∨ fc = 0x04 ∨ fc = 0x06 →
    expectedLen (a :: fc :: rest) = .fixed 8) ∧
  (∀ (a : Byte) (rest : List Byte), rest.length < 5 → expectedLen (a :: 0x10 :: rest) = .need) ∧
  (∀ (a w x y z bc : Byte) (rest : List Byte), expectedLen (a :: 0x10 :: w :: x :: y :: z :: bc :: rest) =
    if 248 ≤ bc.toNat then .tooLong else .fixed (9 + bc.toNat)) ∧
  (∀ (a fc : Byte) (rest : List Byte), supportedFunction fc = false →
    expectedLen (a :: fc :: rest) = .openEnded) ∧
  (∀ (s : State) (b : Byte) (n : Nat), s.feState = .accumulating → s.len < 256 →
    expectedLen (s.frame ++ [b]) = .fixed n → s.len + 1 = n →
    ∃ t, feed (.byte b) s = validate t ∧ t.frame = s.frame ++ [b] ∧ t.len = n ∧ t.feState = .accumulating ∧
      SameButFrame s t)

/-- 41_frame_parser.md R146: a gap discards a partial frame unless the frame is of undeclared length and has at least 4 bytes;
then it closes the frame. -/
def Obligations.GapClosesOpenFrameElseDiscards : Prop :=
  ∀ s : State, s.feState = .accumulating →
    (expectedLen s.frame = .openEnded ∧ 4 ≤ s.len → feed .gap s = validate s) ∧
    (¬(expectedLen s.frame = .openEnded ∧ 4 ≤ s.len) → feed .gap s = .next { s with len := 0, feState := .idle })

/-- 41_frame_parser.md R145, R149: a gap in `Idle` has no effect; a receive error discards what has accumulated, in `Idle`
nothing, with no response. -/
def Obligations.IdleGapAndErrorDiscard : Prop :=
  ∀ s : State,
    (s.feState = .idle → feed .gap s = .next s) ∧
    (s.feState = .idle ∨ s.feState = .accumulating →
      feed .err s = .next { s with len := 0, feState := .idle }) ∧
    (s.feState = .idle → s.len = 0 → feed .err s = .next s)

/-- 41_frame_parser.md R147, R148, R152: function 0x10 with a byte count of 248 or more is rejected at its seventh byte, and a byte
that finds the buffer full is dropped with the frame; either way the buffer is emptied and nothing else changes. -/
def Obligations.LengthFailuresAreSilent : Prop :=
  ∀ (s : State) (b : Byte), s.feState = .accumulating →
    (∀ a w x y z, s.frame = [a, 0x10, w, x, y, z] → s.len = 6 → 248 ≤ b.toNat →
      ∃ t, feed (.byte b) s = .next t ∧ t.feState = .idle ∧ t.len = 0 ∧ SameButFrame s t) ∧
    (s.len = 256 → feed (.byte b) s = .next { s with len := 0, feState := .idle })

/-- 41_frame_parser.md R150, R152; 40_crc.md R124; 30_encoding.md R98: a frame whose CRC fails, or whose address byte is neither
the block's nor 0, is discarded: the buffer is emptied, and no register, callback or output is touched. So is, at the byte
that completes it (R144; 95_test_vectors.md V3, V4), a frame of fixed length. -/
def Obligations.InvalidFramesAreSilent : Prop :=
  (∀ s : State, crcOk s.frame = false ∨
      (∃ a rest, s.frame = a :: rest ∧ a ≠ s.slaveAddr ∧ a ≠ 0) →
    validate s = .next { s with len := 0, feState := .idle }) ∧
  (∀ (s : State) (b : Byte) (n : Nat), s.feState = .accumulating → s.len < 256 →
    expectedLen (s.frame ++ [b]) = .fixed n → s.len + 1 = n →
    crcOk (s.frame ++ [b]) = false ∨ (∃ a rest, s.frame ++ [b] = a :: rest ∧ a ≠ s.slaveAddr ∧ a ≠ 0) →
    ∃ t, feed (.byte b) s = .next t ∧ t.feState = .idle ∧ t.len = 0 ∧ SameButFrame s t)

/-- 41_frame_parser.md R150, 42_dispatch.md R170: a frame with a good CRC addressed to the block or broadcast runs the instruction
it decodes to. -/
def Obligations.ValidFrameRunsItsInstruction : Prop :=
  ∀ (s : State) (i : Instr), crcOk s.frame = true → decodeRequest s.frame = .ok i →
    addressOf i = s.slaveAddr ∨ addressOf i = 0 →
    validate s = exec i { s with feState := .dispatching }

/-- 41_frame_parser.md R144, R154, 42_dispatch.md R170, 45_direction_and_polling.md R262 to R266: a step runs the decoded
instruction. Where the host calls `step()`, the engine is `Idle` and the RX stream begins with the items of a
well-formed request for this block, the step releases the line if it may, feeds the request's items, runs `exec` on the
decoded request, goes on draining (which ends at once where a response is ready) and transmits. -/
def Obligations.StepRunsTheWaitingRequest : Prop :=
  ∀ (s : State) (i : Instr) (rest : List RxItem), s.agenda = [] → s.setupDone = true → s.feState = .idle →
    s.len = 0 → i.wellFormed = true → i.isRequest = true → addressOf i = s.slaveAddr ∨ addressOf i = 0 →
    s.rx = frameItems (encode i) ++ rest →
    ∃ u : State, u.frame = encode i ∧ u.len = (encode i).length ∧ u.feState = .dispatching ∧ u.rx = rest ∧
      SameButFrame { releasePhase s with rx := rest } u ∧
      step s = andThen (exec i u) fun t => andThen (drain rest t) fun v => .next (transmitPhase v)

/-! ## setup, the Direction Controller and the Polling Driver -/

/-- 70_reset_and_hazards.md R321, 10_state.md R36: the state after reset, in every value the spec gives. -/
def Obligations.ResetState : Prop :=
  State.reset.setupDone = false ∧ State.reset.feState = .idle ∧ State.reset.len = 0 ∧
  State.reset.txPending = false ∧ State.reset.dirState = .receiving ∧ State.reset.hasDirPin = false ∧
  (∀ sp a, State.reset.declared sp a = false) ∧ State.reset.ranges = [] ∧
  (∀ sp acc a, State.reset.callback sp acc a = none)

/-- 45_direction_and_polling.md R258, 70_reset_and_hazards.md R323, R324: `setup`, once, with an address in 1..247, configures the
block and drives a bound pin to the receive level; any other `setup` is refused and changes nothing. -/
def Obligations.SetupConfiguresOnce : Prop :=
  ∀ (s : State) (addr : Byte) (pin : Bool),
    (s.setupDone = true → setup addr pin s = (.configError, s)) ∧
    (addr.toNat < 1 ∨ 247 < addr.toNat → setup addr pin s = (.configError, s)) ∧
    (s.setupDone = false → 1 ≤ addr.toNat → addr.toNat ≤ 247 →
      setup addr pin s = (.done,
        { s with slaveAddr := addr, hasDirPin := pin, feState := .idle, len := 0, txPending := false,
                 dirState := .receiving, setupDone := true,
                 dirOut := if pin then !s.params.txLevel else s.dirOut,
                 trace := if pin then s.trace ++ [.dir (!s.params.txLevel)] else s.trace }))

/-- 70_reset_and_hazards.md R324: `step()` before `setup` changes nothing, and with no other move waiting the machine stays where it
is. -/
def Obligations.StepBeforeSetupDoesNothing : Prop :=
  ∀ s : State, s.setupDone = false → pollStep s = .next s ∧ (s.agenda = [] → step s = .next s)

/-- 45_direction_and_polling.md R259, R260: the Direction Controller drives the pin only where one is bound and only on a change of
the recorded state. -/
def Obligations.DirectionControllerIsIdempotent : Prop :=
  ∀ s : State,
    (s.dirState = .transmitting → assertTransmit s = s) ∧
    (s.dirState = .receiving → assertReceive s = s) ∧
    (s.dirState = .receiving → s.hasDirPin = false → assertTransmit s = { s with dirState := .transmitting }) ∧
    (s.dirState = .transmitting → s.hasDirPin = false → assertReceive s = { s with dirState := .receiving }) ∧
    (s.dirState = .receiving → s.hasDirPin = true → assertTransmit s =
      { s with dirState := .transmitting, dirOut := s.params.txLevel,
               trace := s.trace ++ [.dir s.params.txLevel] }) ∧
    (s.dirState = .transmitting → s.hasDirPin = true → assertReceive s =
      { s with dirState := .receiving, dirOut := !s.params.txLevel,
               trace := s.trace ++ [.dir (!s.params.txLevel)] })

/-- 45_direction_and_polling.md R263: phase 1 releases the line when no flush is pending or the pending one has completed, and does
nothing while one is still pending. -/
def Obligations.ReleasePhaseWaitsForFlush : Prop :=
  ∀ s : State,
    (s.txPending = true → s.tx ≠ [] → releasePhase s = s) ∧
    (s.txPending = true → s.tx = [] → releasePhase s = assertReceive { s with txPending := false }) ∧
    (s.txPending = false → releasePhase s = assertReceive s)

/-- 45_direction_and_polling.md R264, R269: the drain stops at a ready response, leaving every remaining item in the RX stream. -/
def Obligations.DrainStopsAtResponse : Prop :=
  ∀ (items : List RxItem) (s t : State), drain items s = .next t →
    ∃ taken, items = taken ++ t.rx ∧ (t.rx = [] ∨ t.feState = .responding) ∧
      (s.feState = .responding → taken = [] ∧ t = { s with rx := items })

/-- 45_direction_and_polling.md R266, R259, R260, R268: phase 3 with a response ready. The trace gains, in this order and with bytes
leaving the line between: the transmit level if the line was at receive, the response, the flush request, and the receive
level if every byte has left by then; the engine is `Idle`, and the line is transmitting exactly while the flush is pending.
Bytes leave oldest first (R253): those that have left, followed by those still in the TX stream, are the old TX stream
followed by the bytes taken of the response, and none of the response leaves before it is written; an accepted response
is taken whole. Without a ready response phase 3 does nothing. This holds whether or not the transport accepts the
response (R267); its verdict is assumption log 4's. -/
def Obligations.TransmitPhaseOrdersItsOutputs : Prop :=
  ∀ s : State,
    (s.feState ≠ .responding → transmitPhase s = s) ∧
    (s.feState = .responding → ∃ w0 w1 w2 taken : List Byte,
      let t := transmitPhase s
      taken.Sublist s.frame ∧ ((nextVerdict s).accepted = true → taken = s.frame) ∧
        w0 <+: s.tx ∧ w0 ++ w1 ++ w2 ++ t.tx = s.tx ++ taken ∧
        t.trace = s.trace ++ w0.map .wire ++
          (if s.hasDirPin ∧ s.dirState = .receiving then [.dir s.params.txLevel] else []) ++
          [.tx s.frame] ++ w1.map .wire ++ [.flushReq] ++ w2.map .wire ++
          (if s.hasDirPin ∧ t.txPending = false then [.dir (!s.params.txLevel)] else []) ∧
        t.feState = .idle ∧ t.len = 0 ∧
        (t.txPending = true ↔ t.tx ≠ []) ∧ (t.dirState = .transmitting ↔ t.txPending = true) ∧
        (s.params.blockingFlush = true → t.txPending = false) ∧
        (∀ sp a, t.reg sp a = s.reg sp a) ∧ t.calls = s.calls ∧ t.rx = s.rx)

/-- 45_direction_and_polling.md R253, R267: the response enters the TX stream whole where the transport accepts it; where it fails,
only bytes of the response enter, in order, which ones being the transport's choice (assumption log 4); either way the
attempt is in the trace. -/
def Obligations.WriteTakesResponseInOrder : Prop :=
  ∀ (v : TxVerdict) (bytes : List Byte) (s : State),
    ∃ taken, (txWrite v bytes s).tx = s.tx ++ taken ∧ taken.Sublist bytes ∧
      (v.accepted = true → taken = bytes) ∧ (txWrite v bytes s).trace = s.trace ++ [.tx bytes]

/-- 45_direction_and_polling.md R264, R269: one `step()` hands at most one response to the transport, and never takes back an
output event. -/
def Obligations.AtMostOneResponsePerStep : Prop :=
  ∀ s t : State, pollStep s = .next t →
    ∃ added, t.trace = s.trace ++ added ∧ added.countP isTx ≤ 1

/-- 30_encoding.md R90, 60_exceptions.md R308: a `Gap` is produced only after an item, and at most once in an idle period. -/
def Obligations.SilenceYieldsOneGapPerIdlePeriod : Prop :=
  ∀ (s : State) (item : RxItem),
    (receiveSilence (receiveItem item s)).rx = s.rx ++ [item, .gap] ∧
    receiveSilence (receiveSilence s) = receiveSilence s ∧
    (s.gapArmed = false → receiveSilence s = s)

/-! ## Whole-machine rules and invariants -/

/-- 10_state.md R41, 44_register_store.md R220, R221: the Register Store is sound after reset. The canonical form of the maps
(the clauses `memory` and `callbacks` of `StoreInv`) is the model's choice, assumption log 2. -/
def Obligations.StoreSoundAtReset : Prop :=
  StoreInv State.reset

/-- 10_state.md R22, R41, 44_register_store.md R220, R221: every step keeps the Register Store sound: canonical maps, disjoint
ranges, and exactly the addresses of the ranges declared. The canonical form of the maps (the clauses `memory` and
`callbacks` of `StoreInv`) is the model's choice, assumption log 2, not a rule of the spec. -/
def Obligations.StepKeepsStoreSound : Prop :=
  ∀ s t : State, StoreInv s → step s = .next t → StoreInv t

/-- 10_state.md R25, R27, R41: the Frame Engine is between frames after reset. -/
def Obligations.EngineSoundAtReset : Prop :=
  EngineInv State.reset

/-- 10_state.md R25, R27, R31, R41: every step leaves the engine `Idle` with an empty buffer or `Accumulating` with a partial frame
that fits, and the slave address legal. -/
def Obligations.StepKeepsEngineSound : Prop :=
  ∀ s t : State, EngineInv s → step s = .next t → EngineInv t

/-- 10_state.md R41: the line is at rest after reset. That the TX stream is empty at reset (R322 leaves it to the transport) and
that no event has been output are the model's choice, assumption log 1. -/
def Obligations.LineSoundAtReset : Prop :=
  LineInv State.reset

/-- 10_state.md R41, 45_direction_and_polling.md R261, R268: every step keeps the direction discipline: transmitting exactly while a
flush is pending, every response written and every byte leaving under the transmit level, the level events
alternating. -/
def Obligations.StepKeepsDirectionDiscipline : Prop :=
  ∀ s t : State, LineInv s → step s = .next t → LineInv t

/-- 93_implementation_defined.md section 1 (no stuck case), 60_exceptions.md R293: from every sound state the next move of whichever
agent completes; the machine neither faults nor refuses. -/
def Obligations.EveryMoveCompletes : Prop :=
  ∀ s : State, EngineInv s → ∃ t, step s = .next t

/-- 60_exceptions.md R305: `step()` never changes the Input bank, and over any move an Input register changes only by the host's
`write(Input, …)` or `declare_range(Input, …)`. -/
def Obligations.InputChangesOnlyByHost : Prop :=
  (∀ s t : State, pollStep s = .next t → t.input = s.input) ∧
  (∀ s t : State, step s = .next t → t.input ≠ s.input →
    (∃ a v rest, s.agenda = .callWrite .input a v :: rest) ∨
    (∃ start count initial rest, s.agenda = .callDeclareRange .input start count initial :: rest))

/-- 10_state.md R21, 70_reset_and_hazards.md R327: no step undeclares an address, drops a range or unbinds a callback, and
`step()` itself declares and binds nothing. -/
def Obligations.DeclarationsAreNeverLost : Prop :=
  (∀ s t : State, step s = .next t →
    (∀ sp a, s.declared sp a = true → t.declared sp a = true) ∧
    (∀ r, r ∈ s.ranges → r ∈ t.ranges) ∧
    (∀ sp acc a, (s.callback sp acc a).isSome = true → (t.callback sp acc a).isSome = true)) ∧
  (∀ s t : State, pollStep s = .next t →
    (∀ sp a, t.declared sp a = s.declared sp a) ∧ t.ranges = s.ranges ∧
    (∀ sp acc a, t.callback sp acc a = s.callback sp acc a))

/-- 70_reset_and_hazards.md R327, 10_state.md R31 to R33: nothing that `setup` sets is changed by any later move; the parameters
never change. -/
def Obligations.ConfigurationIsFixedAfterSetup : Prop :=
  ∀ s t : State, step s = .next t → t.params = s.params ∧
    (s.setupDone = true → t.setupDone = true ∧ t.slaveAddr = s.slaveAddr ∧ t.hasDirPin = s.hasDirPin)

/-! ## The other agents' moves -/

/-- 00_scope.md R9, R10 (d); 44_register_store.md R220, R222 to R224, R226; 45_direction_and_polling.md R253, R258; 30_encoding.md
R90: a move does its operation. A host call does what the operation it names does, and its result, and no other, is
returned to the host; `read` and `write` of an undeclared address return `OutOfRange` and change nothing. A received
byte or error enters the RX stream; silence enters it as a gap once; the oldest byte of the TX stream leaves. `step()`
returns nothing to the host. That the moves wait in an agenda and the results stand in a list is the model's choice,
assumption logs 5, 14 and 15. -/
def Obligations.EveryMoveDoesItsOperation : Prop :=
  (∀ (s : State) (m : Move) (rest : List Move), s.agenda = m :: rest →
    let u : State := { s with agenda := rest }
    let returns (r : HostResult) (t : State) : Prop := step s = .next { t with results := s.results ++ [r] }
    (m = .callStep → step s = pollStep u) ∧
    (∀ addr pin r t, m = .callSetup addr pin → setup addr pin u = (r, t) → returns r t) ∧
    (∀ sp start count initial r t, m = .callDeclareRange sp start count initial →
      declareRange sp start count initial u = (r, t) → returns r t) ∧
    (∀ sp a acc count handle r t, m = .callBindCallback sp a acc count handle →
      bindCallback sp a acc count handle u = (r, t) → returns r t) ∧
    (∀ sp a, m = .callRead sp a →
      (s.declared sp a.toNat = false → returns .outOfRange u) ∧
      (s.declared sp a.toNat = true → ∃ v t, readReg sp a.toNat u = (some v, t) ∧ returns (.value v) t)) ∧
    (∀ sp a v, m = .callWrite sp a v →
      (s.declared sp a.toNat = false → returns .outOfRange u) ∧
      (s.declared sp a.toNat = true → ∃ t, writeReg sp a.toNat v u = (true, t) ∧ returns .success t)) ∧
    (∀ b, m = .lineByte b → step s = .next { u with rx := s.rx ++ [.byte b], gapArmed := true }) ∧
    (m = .lineError → step s = .next { u with rx := s.rx ++ [.err], gapArmed := true }) ∧
    (m = .lineSilence → s.gapArmed = true → step s = .next { u with rx := s.rx ++ [.gap], gapArmed := false }) ∧
    (m = .lineSilence → s.gapArmed = false → step s = .next u) ∧
    (m = .wireByte → s.tx = [] → step s = .next u) ∧
    (∀ b bs, m = .wireByte → s.tx = b :: bs → step s = .next { u with tx := bs, trace := s.trace ++ [.wire b] })) ∧
  (∀ s t : State, pollStep s = .next t → t.results = s.results ∧ t.agenda = s.agenda)
end

