-- ==== Sys2Proof/Laws/State.lean ====
section
/-! SUPPORT. One lemma per field per named update of the state, so that no later proof unfolds a record update. -/

namespace Sys2Proof.Machine

/-! ### Appending an output event -/

@[simp] theorem emit_holding (e : Event) (s : State) : (emit e s).holding = s.holding := rfl
@[simp] theorem emit_input (e : Event) (s : State) : (emit e s).input = s.input := rfl
@[simp] theorem emit_ranges (e : Event) (s : State) : (emit e s).ranges = s.ranges := rfl
@[simp] theorem emit_cbHoldingRead (e : Event) (s : State) : (emit e s).cbHoldingRead = s.cbHoldingRead := rfl
@[simp] theorem emit_cbHoldingWrite (e : Event) (s : State) : (emit e s).cbHoldingWrite = s.cbHoldingWrite := rfl
@[simp] theorem emit_cbInputRead (e : Event) (s : State) : (emit e s).cbInputRead = s.cbInputRead := rfl
@[simp] theorem emit_cbInputWrite (e : Event) (s : State) : (emit e s).cbInputWrite = s.cbInputWrite := rfl
@[simp] theorem emit_feState (e : Event) (s : State) : (emit e s).feState = s.feState := rfl
@[simp] theorem emit_buf (e : Event) (s : State) : (emit e s).buf = s.buf := rfl
@[simp] theorem emit_len (e : Event) (s : State) : (emit e s).len = s.len := rfl
@[simp] theorem emit_txPending (e : Event) (s : State) : (emit e s).txPending = s.txPending := rfl
@[simp] theorem emit_slaveAddr (e : Event) (s : State) : (emit e s).slaveAddr = s.slaveAddr := rfl
@[simp] theorem emit_hasDirPin (e : Event) (s : State) : (emit e s).hasDirPin = s.hasDirPin := rfl
@[simp] theorem emit_setupDone (e : Event) (s : State) : (emit e s).setupDone = s.setupDone := rfl
@[simp] theorem emit_dirState (e : Event) (s : State) : (emit e s).dirState = s.dirState := rfl
@[simp] theorem emit_dirOut (e : Event) (s : State) : (emit e s).dirOut = s.dirOut := rfl
@[simp] theorem emit_params (e : Event) (s : State) : (emit e s).params = s.params := rfl
@[simp] theorem emit_rx (e : Event) (s : State) : (emit e s).rx = s.rx := rfl
@[simp] theorem emit_tx (e : Event) (s : State) : (emit e s).tx = s.tx := rfl
@[simp] theorem emit_gapArmed (e : Event) (s : State) : (emit e s).gapArmed = s.gapArmed := rfl
@[simp] theorem emit_trace (e : Event) (s : State) : (emit e s).trace = s.trace ++ [e] := rfl
@[simp] theorem emit_calls (e : Event) (s : State) : (emit e s).calls = s.calls := rfl
@[simp] theorem emit_results (e : Event) (s : State) : (emit e s).results = s.results := rfl
@[simp] theorem emit_agenda (e : Event) (s : State) : (emit e s).agenda = s.agenda := rfl
@[simp] theorem emit_hostAnswers (e : Event) (s : State) : (emit e s).hostAnswers = s.hostAnswers := rfl
@[simp] theorem emit_txVerdicts (e : Event) (s : State) : (emit e s).txVerdicts = s.txVerdicts := rfl
@[simp] theorem emit_draws (e : Event) (s : State) : (emit e s).draws = s.draws := rfl

/-! ### Recording a callback's invocation -/

@[simp] theorem noteCall_holding (c : CallRecord) (s : State) : (noteCall c s).holding = s.holding := rfl
@[simp] theorem noteCall_input (c : CallRecord) (s : State) : (noteCall c s).input = s.input := rfl
@[simp] theorem noteCall_ranges (c : CallRecord) (s : State) : (noteCall c s).ranges = s.ranges := rfl
@[simp] theorem noteCall_cbHoldingRead (c : CallRecord) (s : State) : (noteCall c s).cbHoldingRead = s.cbHoldingRead := rfl
@[simp] theorem noteCall_cbHoldingWrite (c : CallRecord) (s : State) : (noteCall c s).cbHoldingWrite = s.cbHoldingWrite := rfl
@[simp] theorem noteCall_cbInputRead (c : CallRecord) (s : State) : (noteCall c s).cbInputRead = s.cbInputRead := rfl
@[simp] theorem noteCall_cbInputWrite (c : CallRecord) (s : State) : (noteCall c s).cbInputWrite = s.cbInputWrite := rfl
@[simp] theorem noteCall_feState (c : CallRecord) (s : State) : (noteCall c s).feState = s.feState := rfl
@[simp] theorem noteCall_buf (c : CallRecord) (s : State) : (noteCall c s).buf = s.buf := rfl
@[simp] theorem noteCall_len (c : CallRecord) (s : State) : (noteCall c s).len = s.len := rfl
@[simp] theorem noteCall_txPending (c : CallRecord) (s : State) : (noteCall c s).txPending = s.txPending := rfl
@[simp] theorem noteCall_slaveAddr (c : CallRecord) (s : State) : (noteCall c s).slaveAddr = s.slaveAddr := rfl
@[simp] theorem noteCall_hasDirPin (c : CallRecord) (s : State) : (noteCall c s).hasDirPin = s.hasDirPin := rfl
@[simp] theorem noteCall_setupDone (c : CallRecord) (s : State) : (noteCall c s).setupDone = s.setupDone := rfl
@[simp] theorem noteCall_dirState (c : CallRecord) (s : State) : (noteCall c s).dirState = s.dirState := rfl
@[simp] theorem noteCall_dirOut (c : CallRecord) (s : State) : (noteCall c s).dirOut = s.dirOut := rfl
@[simp] theorem noteCall_params (c : CallRecord) (s : State) : (noteCall c s).params = s.params := rfl
@[simp] theorem noteCall_rx (c : CallRecord) (s : State) : (noteCall c s).rx = s.rx := rfl
@[simp] theorem noteCall_tx (c : CallRecord) (s : State) : (noteCall c s).tx = s.tx := rfl
@[simp] theorem noteCall_gapArmed (c : CallRecord) (s : State) : (noteCall c s).gapArmed = s.gapArmed := rfl
@[simp] theorem noteCall_trace (c : CallRecord) (s : State) : (noteCall c s).trace = s.trace := rfl
@[simp] theorem noteCall_calls (c : CallRecord) (s : State) : (noteCall c s).calls = s.calls ++ [c] := rfl
@[simp] theorem noteCall_results (c : CallRecord) (s : State) : (noteCall c s).results = s.results := rfl
@[simp] theorem noteCall_agenda (c : CallRecord) (s : State) : (noteCall c s).agenda = s.agenda := rfl
@[simp] theorem noteCall_hostAnswers (c : CallRecord) (s : State) : (noteCall c s).hostAnswers = s.hostAnswers.tail := rfl
@[simp] theorem noteCall_txVerdicts (c : CallRecord) (s : State) : (noteCall c s).txVerdicts = s.txVerdicts := rfl
@[simp] theorem noteCall_draws (c : CallRecord) (s : State) : (noteCall c s).draws = s.draws + 1 := rfl

/-! ### Appending a received byte -/

@[simp] theorem appendByte_holding (b : Byte) (s : State) : (appendByte b s).holding = s.holding := rfl
@[simp] theorem appendByte_input (b : Byte) (s : State) : (appendByte b s).input = s.input := rfl
@[simp] theorem appendByte_ranges (b : Byte) (s : State) : (appendByte b s).ranges = s.ranges := rfl
@[simp] theorem appendByte_cbHoldingRead (b : Byte) (s : State) : (appendByte b s).cbHoldingRead = s.cbHoldingRead := rfl
@[simp] theorem appendByte_cbHoldingWrite (b : Byte) (s : State) : (appendByte b s).cbHoldingWrite = s.cbHoldingWrite := rfl
@[simp] theorem appendByte_cbInputRead (b : Byte) (s : State) : (appendByte b s).cbInputRead = s.cbInputRead := rfl
@[simp] theorem appendByte_cbInputWrite (b : Byte) (s : State) : (appendByte b s).cbInputWrite = s.cbInputWrite := rfl
@[simp] theorem appendByte_feState (b : Byte) (s : State) : (appendByte b s).feState = s.feState := rfl
@[simp] theorem appendByte_buf (b : Byte) (s : State) : (appendByte b s).buf = s.buf.setIfInBounds s.len b := rfl
@[simp] theorem appendByte_len (b : Byte) (s : State) : (appendByte b s).len = s.len + 1 := rfl
@[simp] theorem appendByte_txPending (b : Byte) (s : State) : (appendByte b s).txPending = s.txPending := rfl
@[simp] theorem appendByte_slaveAddr (b : Byte) (s : State) : (appendByte b s).slaveAddr = s.slaveAddr := rfl
@[simp] theorem appendByte_hasDirPin (b : Byte) (s : State) : (appendByte b s).hasDirPin = s.hasDirPin := rfl
@[simp] theorem appendByte_setupDone (b : Byte) (s : State) : (appendByte b s).setupDone = s.setupDone := rfl
@[simp] theorem appendByte_dirState (b : Byte) (s : State) : (appendByte b s).dirState = s.dirState := rfl
@[simp] theorem appendByte_dirOut (b : Byte) (s : State) : (appendByte b s).dirOut = s.dirOut := rfl
@[simp] theorem appendByte_params (b : Byte) (s : State) : (appendByte b s).params = s.params := rfl
@[simp] theorem appendByte_rx (b : Byte) (s : State) : (appendByte b s).rx = s.rx := rfl
@[simp] theorem appendByte_tx (b : Byte) (s : State) : (appendByte b s).tx = s.tx := rfl
@[simp] theorem appendByte_gapArmed (b : Byte) (s : State) : (appendByte b s).gapArmed = s.gapArmed := rfl
@[simp] theorem appendByte_trace (b : Byte) (s : State) : (appendByte b s).trace = s.trace := rfl
@[simp] theorem appendByte_calls (b : Byte) (s : State) : (appendByte b s).calls = s.calls := rfl
@[simp] theorem appendByte_results (b : Byte) (s : State) : (appendByte b s).results = s.results := rfl
@[simp] theorem appendByte_agenda (b : Byte) (s : State) : (appendByte b s).agenda = s.agenda := rfl
@[simp] theorem appendByte_hostAnswers (b : Byte) (s : State) : (appendByte b s).hostAnswers = s.hostAnswers := rfl
@[simp] theorem appendByte_txVerdicts (b : Byte) (s : State) : (appendByte b s).txVerdicts = s.txVerdicts := rfl
@[simp] theorem appendByte_draws (b : Byte) (s : State) : (appendByte b s).draws = s.draws := rfl

/-! ### Overwriting the Frame Buffer -/

@[simp] theorem storeFrame_holding (f : List Byte) (s : State) : (storeFrame f s).holding = s.holding := rfl
@[simp] theorem storeFrame_input (f : List Byte) (s : State) : (storeFrame f s).input = s.input := rfl
@[simp] theorem storeFrame_ranges (f : List Byte) (s : State) : (storeFrame f s).ranges = s.ranges := rfl
@[simp] theorem storeFrame_cbHoldingRead (f : List Byte) (s : State) : (storeFrame f s).cbHoldingRead = s.cbHoldingRead := rfl
@[simp] theorem storeFrame_cbHoldingWrite (f : List Byte) (s : State) : (storeFrame f s).cbHoldingWrite = s.cbHoldingWrite := rfl
@[simp] theorem storeFrame_cbInputRead (f : List Byte) (s : State) : (storeFrame f s).cbInputRead = s.cbInputRead := rfl
@[simp] theorem storeFrame_cbInputWrite (f : List Byte) (s : State) : (storeFrame f s).cbInputWrite = s.cbInputWrite := rfl
@[simp] theorem storeFrame_feState (f : List Byte) (s : State) : (storeFrame f s).feState = s.feState := rfl
@[simp] theorem storeFrame_buf (f : List Byte) (s : State) : (storeFrame f s).buf = loadBytes f 0 s.buf := rfl
@[simp] theorem storeFrame_len (f : List Byte) (s : State) : (storeFrame f s).len = f.length := rfl
@[simp] theorem storeFrame_txPending (f : List Byte) (s : State) : (storeFrame f s).txPending = s.txPending := rfl
@[simp] theorem storeFrame_slaveAddr (f : List Byte) (s : State) : (storeFrame f s).slaveAddr = s.slaveAddr := rfl
@[simp] theorem storeFrame_hasDirPin (f : List Byte) (s : State) : (storeFrame f s).hasDirPin = s.hasDirPin := rfl
@[simp] theorem storeFrame_setupDone (f : List Byte) (s : State) : (storeFrame f s).setupDone = s.setupDone := rfl
@[simp] theorem storeFrame_dirState (f : List Byte) (s : State) : (storeFrame f s).dirState = s.dirState := rfl
@[simp] theorem storeFrame_dirOut (f : List Byte) (s : State) : (storeFrame f s).dirOut = s.dirOut := rfl
@[simp] theorem storeFrame_params (f : List Byte) (s : State) : (storeFrame f s).params = s.params := rfl
@[simp] theorem storeFrame_rx (f : List Byte) (s : State) : (storeFrame f s).rx = s.rx := rfl
@[simp] theorem storeFrame_tx (f : List Byte) (s : State) : (storeFrame f s).tx = s.tx := rfl
@[simp] theorem storeFrame_gapArmed (f : List Byte) (s : State) : (storeFrame f s).gapArmed = s.gapArmed := rfl
@[simp] theorem storeFrame_trace (f : List Byte) (s : State) : (storeFrame f s).trace = s.trace := rfl
@[simp] theorem storeFrame_calls (f : List Byte) (s : State) : (storeFrame f s).calls = s.calls := rfl
@[simp] theorem storeFrame_results (f : List Byte) (s : State) : (storeFrame f s).results = s.results := rfl
@[simp] theorem storeFrame_agenda (f : List Byte) (s : State) : (storeFrame f s).agenda = s.agenda := rfl
@[simp] theorem storeFrame_hostAnswers (f : List Byte) (s : State) : (storeFrame f s).hostAnswers = s.hostAnswers := rfl
@[simp] theorem storeFrame_txVerdicts (f : List Byte) (s : State) : (storeFrame f s).txVerdicts = s.txVerdicts := rfl
@[simp] theorem storeFrame_draws (f : List Byte) (s : State) : (storeFrame f s).draws = s.draws := rfl

/-! ### Emptying the Frame Buffer -/

@[simp] theorem clearFrame_holding (s : State) : (clearFrame s).holding = s.holding := rfl
@[simp] theorem clearFrame_input (s : State) : (clearFrame s).input = s.input := rfl
@[simp] theorem clearFrame_ranges (s : State) : (clearFrame s).ranges = s.ranges := rfl
@[simp] theorem clearFrame_cbHoldingRead (s : State) : (clearFrame s).cbHoldingRead = s.cbHoldingRead := rfl
@[simp] theorem clearFrame_cbHoldingWrite (s : State) : (clearFrame s).cbHoldingWrite = s.cbHoldingWrite := rfl
@[simp] theorem clearFrame_cbInputRead (s : State) : (clearFrame s).cbInputRead = s.cbInputRead := rfl
@[simp] theorem clearFrame_cbInputWrite (s : State) : (clearFrame s).cbInputWrite = s.cbInputWrite := rfl
@[simp] theorem clearFrame_feState (s : State) : (clearFrame s).feState = .idle := rfl
@[simp] theorem clearFrame_buf (s : State) : (clearFrame s).buf = s.buf := rfl
@[simp] theorem clearFrame_len (s : State) : (clearFrame s).len = 0 := rfl
@[simp] theorem clearFrame_txPending (s : State) : (clearFrame s).txPending = s.txPending := rfl
@[simp] theorem clearFrame_slaveAddr (s : State) : (clearFrame s).slaveAddr = s.slaveAddr := rfl
@[simp] theorem clearFrame_hasDirPin (s : State) : (clearFrame s).hasDirPin = s.hasDirPin := rfl
@[simp] theorem clearFrame_setupDone (s : State) : (clearFrame s).setupDone = s.setupDone := rfl
@[simp] theorem clearFrame_dirState (s : State) : (clearFrame s).dirState = s.dirState := rfl
@[simp] theorem clearFrame_dirOut (s : State) : (clearFrame s).dirOut = s.dirOut := rfl
@[simp] theorem clearFrame_params (s : State) : (clearFrame s).params = s.params := rfl
@[simp] theorem clearFrame_rx (s : State) : (clearFrame s).rx = s.rx := rfl
@[simp] theorem clearFrame_tx (s : State) : (clearFrame s).tx = s.tx := rfl
@[simp] theorem clearFrame_gapArmed (s : State) : (clearFrame s).gapArmed = s.gapArmed := rfl
@[simp] theorem clearFrame_trace (s : State) : (clearFrame s).trace = s.trace := rfl
@[simp] theorem clearFrame_calls (s : State) : (clearFrame s).calls = s.calls := rfl
@[simp] theorem clearFrame_results (s : State) : (clearFrame s).results = s.results := rfl
@[simp] theorem clearFrame_agenda (s : State) : (clearFrame s).agenda = s.agenda := rfl
@[simp] theorem clearFrame_hostAnswers (s : State) : (clearFrame s).hostAnswers = s.hostAnswers := rfl
@[simp] theorem clearFrame_txVerdicts (s : State) : (clearFrame s).txVerdicts = s.txVerdicts := rfl
@[simp] theorem clearFrame_draws (s : State) : (clearFrame s).draws = s.draws := rfl

/-! ### Serializing a response -/

@[simp] theorem sendBody_holding (body : List Byte) (s : State) : (sendBody body s).holding = s.holding := rfl
@[simp] theorem sendBody_input (body : List Byte) (s : State) : (sendBody body s).input = s.input := rfl
@[simp] theorem sendBody_ranges (body : List Byte) (s : State) : (sendBody body s).ranges = s.ranges := rfl
@[simp] theorem sendBody_cbHoldingRead (body : List Byte) (s : State) : (sendBody body s).cbHoldingRead = s.cbHoldingRead := rfl
@[simp] theorem sendBody_cbHoldingWrite (body : List Byte) (s : State) : (sendBody body s).cbHoldingWrite = s.cbHoldingWrite := rfl
@[simp] theorem sendBody_cbInputRead (body : List Byte) (s : State) : (sendBody body s).cbInputRead = s.cbInputRead := rfl
@[simp] theorem sendBody_cbInputWrite (body : List Byte) (s : State) : (sendBody body s).cbInputWrite = s.cbInputWrite := rfl
@[simp] theorem sendBody_feState (body : List Byte) (s : State) : (sendBody body s).feState = .responding := rfl
@[simp] theorem sendBody_buf (body : List Byte) (s : State) : (sendBody body s).buf = loadBytes (sealFrame body) 0 s.buf := rfl
@[simp] theorem sendBody_len (body : List Byte) (s : State) : (sendBody body s).len = (sealFrame body).length := rfl
@[simp] theorem sendBody_txPending (body : List Byte) (s : State) : (sendBody body s).txPending = s.txPending := rfl
@[simp] theorem sendBody_slaveAddr (body : List Byte) (s : State) : (sendBody body s).slaveAddr = s.slaveAddr := rfl
@[simp] theorem sendBody_hasDirPin (body : List Byte) (s : State) : (sendBody body s).hasDirPin = s.hasDirPin := rfl
@[simp] theorem sendBody_setupDone (body : List Byte) (s : State) : (sendBody body s).setupDone = s.setupDone := rfl
@[simp] theorem sendBody_dirState (body : List Byte) (s : State) : (sendBody body s).dirState = s.dirState := rfl
@[simp] theorem sendBody_dirOut (body : List Byte) (s : State) : (sendBody body s).dirOut = s.dirOut := rfl
@[simp] theorem sendBody_params (body : List Byte) (s : State) : (sendBody body s).params = s.params := rfl
@[simp] theorem sendBody_rx (body : List Byte) (s : State) : (sendBody body s).rx = s.rx := rfl
@[simp] theorem sendBody_tx (body : List Byte) (s : State) : (sendBody body s).tx = s.tx := rfl
@[simp] theorem sendBody_gapArmed (body : List Byte) (s : State) : (sendBody body s).gapArmed = s.gapArmed := rfl
@[simp] theorem sendBody_trace (body : List Byte) (s : State) : (sendBody body s).trace = s.trace := rfl
@[simp] theorem sendBody_calls (body : List Byte) (s : State) : (sendBody body s).calls = s.calls := rfl
@[simp] theorem sendBody_results (body : List Byte) (s : State) : (sendBody body s).results = s.results := rfl
@[simp] theorem sendBody_agenda (body : List Byte) (s : State) : (sendBody body s).agenda = s.agenda := rfl
@[simp] theorem sendBody_hostAnswers (body : List Byte) (s : State) : (sendBody body s).hostAnswers = s.hostAnswers := rfl
@[simp] theorem sendBody_txVerdicts (body : List Byte) (s : State) : (sendBody body s).txVerdicts = s.txVerdicts := rfl
@[simp] theorem sendBody_draws (body : List Byte) (s : State) : (sendBody body s).draws = s.draws := rfl

/-! ### Driving the direction output -/

@[simp] theorem setLevel_holding (l : Bool) (s : State) : (setLevel l s).holding = s.holding := rfl
@[simp] theorem setLevel_input (l : Bool) (s : State) : (setLevel l s).input = s.input := rfl
@[simp] theorem setLevel_ranges (l : Bool) (s : State) : (setLevel l s).ranges = s.ranges := rfl
@[simp] theorem setLevel_cbHoldingRead (l : Bool) (s : State) : (setLevel l s).cbHoldingRead = s.cbHoldingRead := rfl
@[simp] theorem setLevel_cbHoldingWrite (l : Bool) (s : State) : (setLevel l s).cbHoldingWrite = s.cbHoldingWrite := rfl
@[simp] theorem setLevel_cbInputRead (l : Bool) (s : State) : (setLevel l s).cbInputRead = s.cbInputRead := rfl
@[simp] theorem setLevel_cbInputWrite (l : Bool) (s : State) : (setLevel l s).cbInputWrite = s.cbInputWrite := rfl
@[simp] theorem setLevel_feState (l : Bool) (s : State) : (setLevel l s).feState = s.feState := rfl
@[simp] theorem setLevel_buf (l : Bool) (s : State) : (setLevel l s).buf = s.buf := rfl
@[simp] theorem setLevel_len (l : Bool) (s : State) : (setLevel l s).len = s.len := rfl
@[simp] theorem setLevel_txPending (l : Bool) (s : State) : (setLevel l s).txPending = s.txPending := rfl
@[simp] theorem setLevel_slaveAddr (l : Bool) (s : State) : (setLevel l s).slaveAddr = s.slaveAddr := rfl
@[simp] theorem setLevel_hasDirPin (l : Bool) (s : State) : (setLevel l s).hasDirPin = s.hasDirPin := rfl
@[simp] theorem setLevel_setupDone (l : Bool) (s : State) : (setLevel l s).setupDone = s.setupDone := rfl
@[simp] theorem setLevel_dirState (l : Bool) (s : State) : (setLevel l s).dirState = s.dirState := rfl
@[simp] theorem setLevel_dirOut (l : Bool) (s : State) : (setLevel l s).dirOut = l := rfl
@[simp] theorem setLevel_params (l : Bool) (s : State) : (setLevel l s).params = s.params := rfl
@[simp] theorem setLevel_rx (l : Bool) (s : State) : (setLevel l s).rx = s.rx := rfl
@[simp] theorem setLevel_tx (l : Bool) (s : State) : (setLevel l s).tx = s.tx := rfl
@[simp] theorem setLevel_gapArmed (l : Bool) (s : State) : (setLevel l s).gapArmed = s.gapArmed := rfl
@[simp] theorem setLevel_trace (l : Bool) (s : State) : (setLevel l s).trace = s.trace ++ [.dir l] := rfl
@[simp] theorem setLevel_calls (l : Bool) (s : State) : (setLevel l s).calls = s.calls := rfl
@[simp] theorem setLevel_results (l : Bool) (s : State) : (setLevel l s).results = s.results := rfl
@[simp] theorem setLevel_agenda (l : Bool) (s : State) : (setLevel l s).agenda = s.agenda := rfl
@[simp] theorem setLevel_hostAnswers (l : Bool) (s : State) : (setLevel l s).hostAnswers = s.hostAnswers := rfl
@[simp] theorem setLevel_txVerdicts (l : Bool) (s : State) : (setLevel l s).txVerdicts = s.txVerdicts := rfl
@[simp] theorem setLevel_draws (l : Bool) (s : State) : (setLevel l s).draws = s.draws := rfl

/-! ### Handing bytes to the transport -/

@[simp] theorem txWrite_holding (v : TxVerdict) (bytes : List Byte) (s : State) : (txWrite v bytes s).holding = s.holding := rfl
@[simp] theorem txWrite_input (v : TxVerdict) (bytes : List Byte) (s : State) : (txWrite v bytes s).input = s.input := rfl
@[simp] theorem txWrite_ranges (v : TxVerdict) (bytes : List Byte) (s : State) : (txWrite v bytes s).ranges = s.ranges := rfl
@[simp] theorem txWrite_cbHoldingRead (v : TxVerdict) (bytes : List Byte) (s : State) : (txWrite v bytes s).cbHoldingRead = s.cbHoldingRead := rfl
@[simp] theorem txWrite_cbHoldingWrite (v : TxVerdict) (bytes : List Byte) (s : State) : (txWrite v bytes s).cbHoldingWrite = s.cbHoldingWrite := rfl
@[simp] theorem txWrite_cbInputRead (v : TxVerdict) (bytes : List Byte) (s : State) : (txWrite v bytes s).cbInputRead = s.cbInputRead := rfl
@[simp] theorem txWrite_cbInputWrite (v : TxVerdict) (bytes : List Byte) (s : State) : (txWrite v bytes s).cbInputWrite = s.cbInputWrite := rfl
@[simp] theorem txWrite_feState (v : TxVerdict) (bytes : List Byte) (s : State) : (txWrite v bytes s).feState = s.feState := rfl
@[simp] theorem txWrite_buf (v : TxVerdict) (bytes : List Byte) (s : State) : (txWrite v bytes s).buf = s.buf := rfl
@[simp] theorem txWrite_len (v : TxVerdict) (bytes : List Byte) (s : State) : (txWrite v bytes s).len = s.len := rfl
@[simp] theorem txWrite_txPending (v : TxVerdict) (bytes : List Byte) (s : State) : (txWrite v bytes s).txPending = s.txPending := rfl
@[simp] theorem txWrite_slaveAddr (v : TxVerdict) (bytes : List Byte) (s : State) : (txWrite v bytes s).slaveAddr = s.slaveAddr := rfl
@[simp] theorem txWrite_hasDirPin (v : TxVerdict) (bytes : List Byte) (s : State) : (txWrite v bytes s).hasDirPin = s.hasDirPin := rfl
@[simp] theorem txWrite_setupDone (v : TxVerdict) (bytes : List Byte) (s : State) : (txWrite v bytes s).setupDone = s.setupDone := rfl
@[simp] theorem txWrite_dirState (v : TxVerdict) (bytes : List Byte) (s : State) : (txWrite v bytes s).dirState = s.dirState := rfl
@[simp] theorem txWrite_dirOut (v : TxVerdict) (bytes : List Byte) (s : State) : (txWrite v bytes s).dirOut = s.dirOut := rfl
@[simp] theorem txWrite_params (v : TxVerdict) (bytes : List Byte) (s : State) : (txWrite v bytes s).params = s.params := rfl
@[simp] theorem txWrite_rx (v : TxVerdict) (bytes : List Byte) (s : State) : (txWrite v bytes s).rx = s.rx := rfl
@[simp] theorem txWrite_tx (v : TxVerdict) (bytes : List Byte) (s : State) : (txWrite v bytes s).tx = s.tx ++ takenBytes v bytes := rfl
@[simp] theorem txWrite_gapArmed (v : TxVerdict) (bytes : List Byte) (s : State) : (txWrite v bytes s).gapArmed = s.gapArmed := rfl
@[simp] theorem txWrite_trace (v : TxVerdict) (bytes : List Byte) (s : State) : (txWrite v bytes s).trace = s.trace ++ [.tx bytes] := rfl
@[simp] theorem txWrite_calls (v : TxVerdict) (bytes : List Byte) (s : State) : (txWrite v bytes s).calls = s.calls := rfl
@[simp] theorem txWrite_results (v : TxVerdict) (bytes : List Byte) (s : State) : (txWrite v bytes s).results = s.results := rfl
@[simp] theorem txWrite_agenda (v : TxVerdict) (bytes : List Byte) (s : State) : (txWrite v bytes s).agenda = s.agenda := rfl
@[simp] theorem txWrite_hostAnswers (v : TxVerdict) (bytes : List Byte) (s : State) : (txWrite v bytes s).hostAnswers = s.hostAnswers := rfl
@[simp] theorem txWrite_txVerdicts (v : TxVerdict) (bytes : List Byte) (s : State) : (txWrite v bytes s).txVerdicts = s.txVerdicts.tail := rfl
@[simp] theorem txWrite_draws (v : TxVerdict) (bytes : List Byte) (s : State) : (txWrite v bytes s).draws = s.draws + 1 := rfl

/-! ### Noting a result -/

@[simp] theorem noteResult_holding (r : HostResult) (s : State) : (noteResult r s).holding = s.holding := rfl
@[simp] theorem noteResult_input (r : HostResult) (s : State) : (noteResult r s).input = s.input := rfl
@[simp] theorem noteResult_ranges (r : HostResult) (s : State) : (noteResult r s).ranges = s.ranges := rfl
@[simp] theorem noteResult_cbHoldingRead (r : HostResult) (s : State) : (noteResult r s).cbHoldingRead = s.cbHoldingRead := rfl
@[simp] theorem noteResult_cbHoldingWrite (r : HostResult) (s : State) : (noteResult r s).cbHoldingWrite = s.cbHoldingWrite := rfl
@[simp] theorem noteResult_cbInputRead (r : HostResult) (s : State) : (noteResult r s).cbInputRead = s.cbInputRead := rfl
@[simp] theorem noteResult_cbInputWrite (r : HostResult) (s : State) : (noteResult r s).cbInputWrite = s.cbInputWrite := rfl
@[simp] theorem noteResult_feState (r : HostResult) (s : State) : (noteResult r s).feState = s.feState := rfl
@[simp] theorem noteResult_buf (r : HostResult) (s : State) : (noteResult r s).buf = s.buf := rfl
@[simp] theorem noteResult_len (r : HostResult) (s : State) : (noteResult r s).len = s.len := rfl
@[simp] theorem noteResult_txPending (r : HostResult) (s : State) : (noteResult r s).txPending = s.txPending := rfl
@[simp] theorem noteResult_slaveAddr (r : HostResult) (s : State) : (noteResult r s).slaveAddr = s.slaveAddr := rfl
@[simp] theorem noteResult_hasDirPin (r : HostResult) (s : State) : (noteResult r s).hasDirPin = s.hasDirPin := rfl
@[simp] theorem noteResult_setupDone (r : HostResult) (s : State) : (noteResult r s).setupDone = s.setupDone := rfl
@[simp] theorem noteResult_dirState (r : HostResult) (s : State) : (noteResult r s).dirState = s.dirState := rfl
@[simp] theorem noteResult_dirOut (r : HostResult) (s : State) : (noteResult r s).dirOut = s.dirOut := rfl
@[simp] theorem noteResult_params (r : HostResult) (s : State) : (noteResult r s).params = s.params := rfl
@[simp] theorem noteResult_rx (r : HostResult) (s : State) : (noteResult r s).rx = s.rx := rfl
@[simp] theorem noteResult_tx (r : HostResult) (s : State) : (noteResult r s).tx = s.tx := rfl
@[simp] theorem noteResult_gapArmed (r : HostResult) (s : State) : (noteResult r s).gapArmed = s.gapArmed := rfl
@[simp] theorem noteResult_trace (r : HostResult) (s : State) : (noteResult r s).trace = s.trace := rfl
@[simp] theorem noteResult_calls (r : HostResult) (s : State) : (noteResult r s).calls = s.calls := rfl
@[simp] theorem noteResult_results (r : HostResult) (s : State) : (noteResult r s).results = s.results ++ [r] := rfl
@[simp] theorem noteResult_agenda (r : HostResult) (s : State) : (noteResult r s).agenda = s.agenda := rfl
@[simp] theorem noteResult_hostAnswers (r : HostResult) (s : State) : (noteResult r s).hostAnswers = s.hostAnswers := rfl
@[simp] theorem noteResult_txVerdicts (r : HostResult) (s : State) : (noteResult r s).txVerdicts = s.txVerdicts := rfl
@[simp] theorem noteResult_draws (r : HostResult) (s : State) : (noteResult r s).draws = s.draws := rfl

/-! ### An item reaching the RX stream -/

@[simp] theorem receiveItem_holding (item : RxItem) (s : State) : (receiveItem item s).holding = s.holding := rfl
@[simp] theorem receiveItem_input (item : RxItem) (s : State) : (receiveItem item s).input = s.input := rfl
@[simp] theorem receiveItem_ranges (item : RxItem) (s : State) : (receiveItem item s).ranges = s.ranges := rfl
@[simp] theorem receiveItem_cbHoldingRead (item : RxItem) (s : State) : (receiveItem item s).cbHoldingRead = s.cbHoldingRead := rfl
@[simp] theorem receiveItem_cbHoldingWrite (item : RxItem) (s : State) : (receiveItem item s).cbHoldingWrite = s.cbHoldingWrite := rfl
@[simp] theorem receiveItem_cbInputRead (item : RxItem) (s : State) : (receiveItem item s).cbInputRead = s.cbInputRead := rfl
@[simp] theorem receiveItem_cbInputWrite (item : RxItem) (s : State) : (receiveItem item s).cbInputWrite = s.cbInputWrite := rfl
@[simp] theorem receiveItem_feState (item : RxItem) (s : State) : (receiveItem item s).feState = s.feState := rfl
@[simp] theorem receiveItem_buf (item : RxItem) (s : State) : (receiveItem item s).buf = s.buf := rfl
@[simp] theorem receiveItem_len (item : RxItem) (s : State) : (receiveItem item s).len = s.len := rfl
@[simp] theorem receiveItem_txPending (item : RxItem) (s : State) : (receiveItem item s).txPending = s.txPending := rfl
@[simp] theorem receiveItem_slaveAddr (item : RxItem) (s : State) : (receiveItem item s).slaveAddr = s.slaveAddr := rfl
@[simp] theorem receiveItem_hasDirPin (item : RxItem) (s : State) : (receiveItem item s).hasDirPin = s.hasDirPin := rfl
@[simp] theorem receiveItem_setupDone (item : RxItem) (s : State) : (receiveItem item s).setupDone = s.setupDone := rfl
@[simp] theorem receiveItem_dirState (item : RxItem) (s : State) : (receiveItem item s).dirState = s.dirState := rfl
@[simp] theorem receiveItem_dirOut (item : RxItem) (s : State) : (receiveItem item s).dirOut = s.dirOut := rfl
@[simp] theorem receiveItem_params (item : RxItem) (s : State) : (receiveItem item s).params = s.params := rfl
@[simp] theorem receiveItem_rx (item : RxItem) (s : State) : (receiveItem item s).rx = s.rx ++ [item] := rfl
@[simp] theorem receiveItem_tx (item : RxItem) (s : State) : (receiveItem item s).tx = s.tx := rfl
@[simp] theorem receiveItem_gapArmed (item : RxItem) (s : State) : (receiveItem item s).gapArmed = true := rfl
@[simp] theorem receiveItem_trace (item : RxItem) (s : State) : (receiveItem item s).trace = s.trace := rfl
@[simp] theorem receiveItem_calls (item : RxItem) (s : State) : (receiveItem item s).calls = s.calls := rfl
@[simp] theorem receiveItem_results (item : RxItem) (s : State) : (receiveItem item s).results = s.results := rfl
@[simp] theorem receiveItem_agenda (item : RxItem) (s : State) : (receiveItem item s).agenda = s.agenda := rfl
@[simp] theorem receiveItem_hostAnswers (item : RxItem) (s : State) : (receiveItem item s).hostAnswers = s.hostAnswers := rfl
@[simp] theorem receiveItem_txVerdicts (item : RxItem) (s : State) : (receiveItem item s).txVerdicts = s.txVerdicts := rfl
@[simp] theorem receiveItem_draws (item : RxItem) (s : State) : (receiveItem item s).draws = s.draws := rfl

/-! ### Replacing a bank or a callback map -/

@[simp] theorem setBank_ranges (s : State) (sp : Space) (m : Memory) : (s.setBank sp m).ranges = s.ranges := by cases sp <;> rfl
@[simp] theorem setBank_cbHoldingRead (s : State) (sp : Space) (m : Memory) : (s.setBank sp m).cbHoldingRead = s.cbHoldingRead := by cases sp <;> rfl
@[simp] theorem setBank_cbHoldingWrite (s : State) (sp : Space) (m : Memory) : (s.setBank sp m).cbHoldingWrite = s.cbHoldingWrite := by cases sp <;> rfl
@[simp] theorem setBank_cbInputRead (s : State) (sp : Space) (m : Memory) : (s.setBank sp m).cbInputRead = s.cbInputRead := by cases sp <;> rfl
@[simp] theorem setBank_cbInputWrite (s : State) (sp : Space) (m : Memory) : (s.setBank sp m).cbInputWrite = s.cbInputWrite := by cases sp <;> rfl
@[simp] theorem setBank_feState (s : State) (sp : Space) (m : Memory) : (s.setBank sp m).feState = s.feState := by cases sp <;> rfl
@[simp] theorem setBank_buf (s : State) (sp : Space) (m : Memory) : (s.setBank sp m).buf = s.buf := by cases sp <;> rfl
@[simp] theorem setBank_len (s : State) (sp : Space) (m : Memory) : (s.setBank sp m).len = s.len := by cases sp <;> rfl
@[simp] theorem setBank_txPending (s : State) (sp : Space) (m : Memory) : (s.setBank sp m).txPending = s.txPending := by cases sp <;> rfl
@[simp] theorem setBank_slaveAddr (s : State) (sp : Space) (m : Memory) : (s.setBank sp m).slaveAddr = s.slaveAddr := by cases sp <;> rfl
@[simp] theorem setBank_hasDirPin (s : State) (sp : Space) (m : Memory) : (s.setBank sp m).hasDirPin = s.hasDirPin := by cases sp <;> rfl
@[simp] theorem setBank_setupDone (s : State) (sp : Space) (m : Memory) : (s.setBank sp m).setupDone = s.setupDone := by cases sp <;> rfl
@[simp] theorem setBank_dirState (s : State) (sp : Space) (m : Memory) : (s.setBank sp m).dirState = s.dirState := by cases sp <;> rfl
@[simp] theorem setBank_dirOut (s : State) (sp : Space) (m : Memory) : (s.setBank sp m).dirOut = s.dirOut := by cases sp <;> rfl
@[simp] theorem setBank_params (s : State) (sp : Space) (m : Memory) : (s.setBank sp m).params = s.params := by cases sp <;> rfl
@[simp] theorem setBank_rx (s : State) (sp : Space) (m : Memory) : (s.setBank sp m).rx = s.rx := by cases sp <;> rfl
@[simp] theorem setBank_tx (s : State) (sp : Space) (m : Memory) : (s.setBank sp m).tx = s.tx := by cases sp <;> rfl
@[simp] theorem setBank_gapArmed (s : State) (sp : Space) (m : Memory) : (s.setBank sp m).gapArmed = s.gapArmed := by cases sp <;> rfl
@[simp] theorem setBank_trace (s : State) (sp : Space) (m : Memory) : (s.setBank sp m).trace = s.trace := by cases sp <;> rfl
@[simp] theorem setBank_calls (s : State) (sp : Space) (m : Memory) : (s.setBank sp m).calls = s.calls := by cases sp <;> rfl
@[simp] theorem setBank_results (s : State) (sp : Space) (m : Memory) : (s.setBank sp m).results = s.results := by cases sp <;> rfl
@[simp] theorem setBank_agenda (s : State) (sp : Space) (m : Memory) : (s.setBank sp m).agenda = s.agenda := by cases sp <;> rfl
@[simp] theorem setBank_hostAnswers (s : State) (sp : Space) (m : Memory) : (s.setBank sp m).hostAnswers = s.hostAnswers := by cases sp <;> rfl
@[simp] theorem setBank_txVerdicts (s : State) (sp : Space) (m : Memory) : (s.setBank sp m).txVerdicts = s.txVerdicts := by cases sp <;> rfl
@[simp] theorem setBank_draws (s : State) (sp : Space) (m : Memory) : (s.setBank sp m).draws = s.draws := by cases sp <;> rfl
@[simp] theorem setCallbacks_holding (s : State) (sp : Space) (acc : Access) (m : Cells Nat) : (s.setCallbacks sp acc m).holding = s.holding := by cases sp <;> cases acc <;> rfl
@[simp] theorem setCallbacks_input (s : State) (sp : Space) (acc : Access) (m : Cells Nat) : (s.setCallbacks sp acc m).input = s.input := by cases sp <;> cases acc <;> rfl
@[simp] theorem setCallbacks_ranges (s : State) (sp : Space) (acc : Access) (m : Cells Nat) : (s.setCallbacks sp acc m).ranges = s.ranges := by cases sp <;> cases acc <;> rfl
@[simp] theorem setCallbacks_feState (s : State) (sp : Space) (acc : Access) (m : Cells Nat) : (s.setCallbacks sp acc m).feState = s.feState := by cases sp <;> cases acc <;> rfl
@[simp] theorem setCallbacks_buf (s : State) (sp : Space) (acc : Access) (m : Cells Nat) : (s.setCallbacks sp acc m).buf = s.buf := by cases sp <;> cases acc <;> rfl
@[simp] theorem setCallbacks_len (s : State) (sp : Space) (acc : Access) (m : Cells Nat) : (s.setCallbacks sp acc m).len = s.len := by cases sp <;> cases acc <;> rfl
@[simp] theorem setCallbacks_txPending (s : State) (sp : Space) (acc : Access) (m : Cells Nat) : (s.setCallbacks sp acc m).txPending = s.txPending := by cases sp <;> cases acc <;> rfl
@[simp] theorem setCallbacks_slaveAddr (s : State) (sp : Space) (acc : Access) (m : Cells Nat) : (s.setCallbacks sp acc m).slaveAddr = s.slaveAddr := by cases sp <;> cases acc <;> rfl
@[simp] theorem setCallbacks_hasDirPin (s : State) (sp : Space) (acc : Access) (m : Cells Nat) : (s.setCallbacks sp acc m).hasDirPin = s.hasDirPin := by cases sp <;> cases acc <;> rfl
@[simp] theorem setCallbacks_setupDone (s : State) (sp : Space) (acc : Access) (m : Cells Nat) : (s.setCallbacks sp acc m).setupDone = s.setupDone := by cases sp <;> cases acc <;> rfl
@[simp] theorem setCallbacks_dirState (s : State) (sp : Space) (acc : Access) (m : Cells Nat) : (s.setCallbacks sp acc m).dirState = s.dirState := by cases sp <;> cases acc <;> rfl
@[simp] theorem setCallbacks_dirOut (s : State) (sp : Space) (acc : Access) (m : Cells Nat) : (s.setCallbacks sp acc m).dirOut = s.dirOut := by cases sp <;> cases acc <;> rfl
@[simp] theorem setCallbacks_params (s : State) (sp : Space) (acc : Access) (m : Cells Nat) : (s.setCallbacks sp acc m).params = s.params := by cases sp <;> cases acc <;> rfl
@[simp] theorem setCallbacks_rx (s : State) (sp : Space) (acc : Access) (m : Cells Nat) : (s.setCallbacks sp acc m).rx = s.rx := by cases sp <;> cases acc <;> rfl
@[simp] theorem setCallbacks_tx (s : State) (sp : Space) (acc : Access) (m : Cells Nat) : (s.setCallbacks sp acc m).tx = s.tx := by cases sp <;> cases acc <;> rfl
@[simp] theorem setCallbacks_gapArmed (s : State) (sp : Space) (acc : Access) (m : Cells Nat) : (s.setCallbacks sp acc m).gapArmed = s.gapArmed := by cases sp <;> cases acc <;> rfl
@[simp] theorem setCallbacks_trace (s : State) (sp : Space) (acc : Access) (m : Cells Nat) : (s.setCallbacks sp acc m).trace = s.trace := by cases sp <;> cases acc <;> rfl
@[simp] theorem setCallbacks_calls (s : State) (sp : Space) (acc : Access) (m : Cells Nat) : (s.setCallbacks sp acc m).calls = s.calls := by cases sp <;> cases acc <;> rfl
@[simp] theorem setCallbacks_results (s : State) (sp : Space) (acc : Access) (m : Cells Nat) : (s.setCallbacks sp acc m).results = s.results := by cases sp <;> cases acc <;> rfl
@[simp] theorem setCallbacks_agenda (s : State) (sp : Space) (acc : Access) (m : Cells Nat) : (s.setCallbacks sp acc m).agenda = s.agenda := by cases sp <;> cases acc <;> rfl
@[simp] theorem setCallbacks_hostAnswers (s : State) (sp : Space) (acc : Access) (m : Cells Nat) : (s.setCallbacks sp acc m).hostAnswers = s.hostAnswers := by cases sp <;> cases acc <;> rfl
@[simp] theorem setCallbacks_txVerdicts (s : State) (sp : Space) (acc : Access) (m : Cells Nat) : (s.setCallbacks sp acc m).txVerdicts = s.txVerdicts := by cases sp <;> cases acc <;> rfl
@[simp] theorem setCallbacks_draws (s : State) (sp : Space) (acc : Access) (m : Cells Nat) : (s.setCallbacks sp acc m).draws = s.draws := by cases sp <;> cases acc <;> rfl

@[simp] theorem bank_setBank (s : State) (sp : Space) (m : Memory) : (s.setBank sp m).bank sp = m := by cases sp <;> rfl

theorem bank_setBank_other (s : State) {sp sp' : Space} (m : Memory) (h : sp' ≠ sp) :
    (s.setBank sp m).bank sp' = s.bank sp' := by
  cases sp <;> cases sp' <;> first | rfl | exact absurd rfl h

@[simp] theorem callbacks_setBank (s : State) (sp sp' : Space) (acc : Access) (m : Memory) :
    (s.setBank sp m).callbacks sp' acc = s.callbacks sp' acc := by
  cases sp <;> cases sp' <;> cases acc <;> rfl

@[simp] theorem callbacks_setCallbacks (s : State) (sp : Space) (acc : Access) (m : Cells Nat) :
    (s.setCallbacks sp acc m).callbacks sp acc = m := by
  cases sp <;> cases acc <;> rfl

theorem callbacks_setCallbacks_other (s : State) {sp sp' : Space} {acc acc' : Access} (m : Cells Nat)
    (h : (sp', acc') ≠ (sp, acc)) : (s.setCallbacks sp acc m).callbacks sp' acc' = s.callbacks sp' acc' := by
  cases sp <;> cases sp' <;> cases acc <;> cases acc' <;> first | rfl | exact absurd rfl h

@[simp] theorem bank_setCallbacks (s : State) (sp sp' : Space) (acc : Access) (m : Cells Nat) :
    (s.setCallbacks sp acc m).bank sp' = s.bank sp' := by
  cases sp <;> cases sp' <;> cases acc <;> rfl

/-! ### Reading banks and callbacks through the updates -/

@[simp] theorem bank_emit (e : Event) (s : State) (sp : Space) : (emit e s).bank sp = s.bank sp := by cases sp <;> rfl
@[simp] theorem callbacks_emit (e : Event) (s : State) (sp : Space) (acc : Access) : (emit e s).callbacks sp acc = s.callbacks sp acc := by cases sp <;> cases acc <;> rfl
@[simp] theorem bank_noteCall (c : CallRecord) (s : State) (sp : Space) : (noteCall c s).bank sp = s.bank sp := by cases sp <;> rfl
@[simp] theorem callbacks_noteCall (c : CallRecord) (s : State) (sp : Space) (acc : Access) : (noteCall c s).callbacks sp acc = s.callbacks sp acc := by cases sp <;> cases acc <;> rfl
@[simp] theorem bank_appendByte (b : Byte) (s : State) (sp : Space) : (appendByte b s).bank sp = s.bank sp := by cases sp <;> rfl
@[simp] theorem callbacks_appendByte (b : Byte) (s : State) (sp : Space) (acc : Access) : (appendByte b s).callbacks sp acc = s.callbacks sp acc := by cases sp <;> cases acc <;> rfl
@[simp] theorem bank_storeFrame (f : List Byte) (s : State) (sp : Space) : (storeFrame f s).bank sp = s.bank sp := by cases sp <;> rfl
@[simp] theorem callbacks_storeFrame (f : List Byte) (s : State) (sp : Space) (acc : Access) : (storeFrame f s).callbacks sp acc = s.callbacks sp acc := by cases sp <;> cases acc <;> rfl
@[simp] theorem bank_clearFrame (s : State) (sp : Space) : (clearFrame s).bank sp = s.bank sp := by cases sp <;> rfl
@[simp] theorem callbacks_clearFrame (s : State) (sp : Space) (acc : Access) : (clearFrame s).callbacks sp acc = s.callbacks sp acc := by cases sp <;> cases acc <;> rfl
@[simp] theorem bank_sendBody (body : List Byte) (s : State) (sp : Space) : (sendBody body s).bank sp = s.bank sp := by cases sp <;> rfl
@[simp] theorem callbacks_sendBody (body : List Byte) (s : State) (sp : Space) (acc : Access) : (sendBody body s).callbacks sp acc = s.callbacks sp acc := by cases sp <;> cases acc <;> rfl
@[simp] theorem bank_setLevel (l : Bool) (s : State) (sp : Space) : (setLevel l s).bank sp = s.bank sp := by cases sp <;> rfl
@[simp] theorem callbacks_setLevel (l : Bool) (s : State) (sp : Space) (acc : Access) : (setLevel l s).callbacks sp acc = s.callbacks sp acc := by cases sp <;> cases acc <;> rfl
@[simp] theorem bank_txWrite (v : TxVerdict) (bytes : List Byte) (s : State) (sp : Space) : (txWrite v bytes s).bank sp = s.bank sp := by cases sp <;> rfl
@[simp] theorem callbacks_txWrite (v : TxVerdict) (bytes : List Byte) (s : State) (sp : Space) (acc : Access) : (txWrite v bytes s).callbacks sp acc = s.callbacks sp acc := by cases sp <;> cases acc <;> rfl
@[simp] theorem bank_noteResult (r : HostResult) (s : State) (sp : Space) : (noteResult r s).bank sp = s.bank sp := by cases sp <;> rfl
@[simp] theorem callbacks_noteResult (r : HostResult) (s : State) (sp : Space) (acc : Access) : (noteResult r s).callbacks sp acc = s.callbacks sp acc := by cases sp <;> cases acc <;> rfl
@[simp] theorem bank_receiveItem (item : RxItem) (s : State) (sp : Space) : (receiveItem item s).bank sp = s.bank sp := by cases sp <;> rfl
@[simp] theorem callbacks_receiveItem (item : RxItem) (s : State) (sp : Space) (acc : Access) : (receiveItem item s).callbacks sp acc = s.callbacks sp acc := by cases sp <;> cases acc <;> rfl

end Sys2Proof.Machine
end

