-- ==== Sys2Proof/Laws/Bytes.lean ====
section
/-! SUPPORT. Byte order, the data of a multi-register frame, the CRC as a fold, and the Frame Buffer as the list of its
valid bytes. -/

namespace Sys2Proof

/-! ## Byte order -/

@[simp] theorem be16_hi8_lo8 (v : Word) : be16 (hi8 v) (lo8 v) = v := by
  apply BitVec.eq_of_getLsbD_eq
  intro i hi
  simp only [be16, hi8, lo8, BitVec.getLsbD_append, BitVec.getLsbD_extractLsb']
  by_cases h : i < 8
  · simp [h]
  · simp [h, show i - 8 < 8 by omega, show 8 + (i - 8) = i by omega]

@[simp] theorem hi8_be16 (a b : Byte) : hi8 (be16 a b) = a := by
  apply BitVec.eq_of_getLsbD_eq
  intro i hi
  simp only [be16, hi8, BitVec.getLsbD_append, BitVec.getLsbD_extractLsb']
  simp [hi]

@[simp] theorem lo8_be16 (a b : Byte) : lo8 (be16 a b) = b := by
  apply BitVec.eq_of_getLsbD_eq
  intro i hi
  simp only [be16, lo8, BitVec.getLsbD_append, BitVec.getLsbD_extractLsb']
  simp [hi]

@[simp] theorem bytesOf_length (vs : List Word) : (bytesOf vs).length = 2 * vs.length := by
  induction vs with
  | nil => rfl
  | cons v vs ih => simp [bytesOf, ih]; omega

@[simp] theorem wordsOf_bytesOf (vs : List Word) : wordsOf (bytesOf vs) = vs := by
  induction vs with
  | nil => rfl
  | cons v vs ih => simp [bytesOf, wordsOf, ih]

/-- An even number of bytes holds half as many values (30_encoding.md R95). -/
theorem wordsOf_length (bs : List Byte) : (wordsOf bs).length = bs.length / 2 := by
  induction bs using wordsOf.induct with
  | case1 a b rest ih => simp [wordsOf, ih]; omega
  | case2 => simp [wordsOf]
  | case3 => rfl

theorem bytesOf_wordsOf (bs : List Byte) (h : bs.length % 2 = 0) : bytesOf (wordsOf bs) = bs := by
  induction bs using wordsOf.induct with
  | case1 a b rest ih =>
    simp only [wordsOf, bytesOf, hi8_be16, lo8_be16]
    rw [ih (by simp only [List.length_cons] at h; omega)]
  | case2 => simp at h
  | case3 => rfl

/-- Value `i` of the data of a multi-register frame (30_encoding.md R95). -/
theorem wordsOf_get (d : List Byte) (i : Nat) (h : i < (wordsOf d).length) (h' : 2 * i + 1 < d.length) :
    (wordsOf d)[i] = be16 d[2 * i] d[2 * i + 1] := by
  induction d using wordsOf.induct generalizing i with
  | case1 a b rest ih =>
    cases i with
    | zero => simp [wordsOf]
    | succ i =>
      simp only [wordsOf, List.getElem_cons_succ]
      rw [ih i (by simpa [wordsOf] using h) (by simp only [List.length_cons] at h'; omega)]
      rfl
  | case2 => simp [wordsOf] at h
  | case3 => simp [wordsOf] at h

/-! ## The CRC -/

theorem crcRun_append (c : Word) (s t : List Byte) : crcRun c (s ++ t) = crcRun (crcRun c s) t :=
  List.foldl_append

@[simp] theorem sealFrame_length (body : List Byte) : (sealFrame body).length = body.length + 2 := by
  simp [sealFrame, crcBytes]

/-- A sealed frame passes the check (40_crc.md R123, R124). -/
@[simp] theorem crcOk_sealFrame (body : List Byte) : crcOk (sealFrame body) = true := by
  simp [crcOk, sealFrame, crcBytes]

/-- A frame of a body and two bytes passes exactly where the two are the body's CRC, low byte first
(40_crc.md R124). -/
theorem crcOk_append (body : List Byte) (lo hi : Byte) :
    crcOk (body ++ [lo, hi]) = (crc16 body == be16 hi lo) := by
  simp [crcOk]

/-! ## Sealed frames under the decoder -/

theorem payloadOf_append (p c : List Byte) (h : c.length = 2) : payloadOf (p ++ c) = p := by
  simp [payloadOf, h]

/-- A sealed frame that fits decodes as its payload does (30_encoding.md R91, R92). -/
theorem decodeRequest_sealFrame (addr fc : Byte) (p : List Byte) (h : p.length + 4 ≤ 256) :
    decodeRequest (sealFrame (addr :: fc :: p)) = decodeRequestPayload addr fc p := by
  have hl : (crcBytes (crc16 (addr :: fc :: p))).length = 2 := rfl
  have hc : ¬ Config.bufCap < (sealFrame (addr :: fc :: p)).length := by
    rw [sealFrame_length]
    exact Nat.not_lt.mpr (by simp only [List.length_cons, Config.bufCap]; omega)
  unfold decodeRequest
  split
  · rename_i a f rest he
    cases he
    rw [if_neg (by simp [hl]), if_neg hc]
    exact congrArg (decodeRequestPayload addr fc) (payloadOf_append p _ hl)
  · rename_i hn
    exact (hn _ _ _ rfl).elim

namespace Machine

/-! ## The Frame Buffer -/

theorem loadBytes_get (f : List Byte) (i : Nat) (buf : Vector Byte 256) (j : Nat) (hj : j < 256) :
    (loadBytes f i buf)[j] = if h : i ≤ j ∧ j < i + f.length then f[j - i] else buf[j] := by
  induction f generalizing i buf with
  | nil => simp [loadBytes]
  | cons b bs ih =>
    simp only [loadBytes, ih, List.length_cons]
    by_cases h1 : i + 1 ≤ j ∧ j < i + 1 + bs.length
    · rw [dif_pos h1, dif_pos (by omega)]
      rw [List.getElem_cons, dif_neg (by omega)]
      congr 1
    · rw [dif_neg h1, Vector.getElem_setIfInBounds]
      by_cases h2 : i = j
      · subst h2
        rw [dif_pos (by omega)]; simp
      · rw [if_neg h2, dif_neg (by omega)]

theorem take_eq_of_getElem (buf : Vector Byte 256) (f : List Byte) (hf : f.length ≤ 256)
    (h : ∀ j (hj : j < f.length), buf[j] = f[j]) : buf.toList.take f.length = f := by
  apply List.ext_getElem
  · simp; omega
  · intro j h1 h2
    simpa using h j h2

/-- After a frame that fits is stored, the buffer holds exactly it (43_serializer.md R200). -/
@[simp] theorem frame_storeFrame (f : List Byte) (s : State) (hf : f.length ≤ 256) :
    (storeFrame f s).frame = f := by
  apply take_eq_of_getElem _ _ hf
  intro j hj
  simp only [storeFrame_buf]
  rw [loadBytes_get _ _ _ _ (by omega), dif_pos (by omega)]
  simp

theorem frame_sendBody (body : List Byte) (s : State) (hf : body.length ≤ 254) :
    (sendBody body s).frame = sealFrame body :=
  frame_storeFrame (sealFrame body) s (by simp; omega)

theorem frame_length (s : State) : s.frame.length = min s.len 256 := by
  simp [State.frame]

/-- An appended byte becomes the last of the frame (41_frame_parser.md R142). -/
theorem frame_appendByte (b : Byte) (s : State) (h : s.len < 256) :
    (appendByte b s).frame = s.frame ++ [b] := by
  unfold State.frame
  apply List.ext_getElem
  · simp only [appendByte_len, List.length_take, Vector.length_toList, List.length_append, List.length_singleton]
    omega
  · intro j h1 h2
    simp only [appendByte_len, List.length_take, Vector.length_toList] at h1
    simp only [appendByte_buf, List.getElem_take, Vector.getElem_toList]
    rw [Vector.getElem_setIfInBounds, List.getElem_append]
    by_cases hj : j < s.len
    · rw [if_neg (by omega), dif_pos (by simp; omega)]; simp
    · rw [if_pos (by omega), dif_neg (by simp; omega)]; simp

@[simp] theorem frame_empty (s : State) (h : s.len = 0) : s.frame = [] := by
  simp [State.frame, h]

end Machine

end Sys2Proof
end

