-- ==== Sys2Proof/Laws/Cells.lean ====
section
/-! SUPPORT. Sparse maps: what a store changes, and that the canonical form is kept. -/

namespace Sys2Proof.Machine

variable {α : Type}

@[simp] theorem Cells.get_nil (a : Nat) : Cells.get ([] : Cells α) a = none := rfl

theorem Cells.get_eq_none_of_below {m : Cells α} {a : Nat} (h : ∀ c ∈ m, a < c.1) : Cells.get m a = none := by
  induction m with
  | nil => rfl
  | cons c rest ih =>
    have hc := h c (by simp)
    simp only [Cells.get]
    rw [if_neg (by omega)]
    exact ih fun d hd => h d (by simp [hd])

/-- The canonical form of a non-empty map, as propositions. -/
theorem Cells.wf_cons {k : Nat} {v : α} {rest : Cells α} :
    Cells.wf ((k, v) :: rest) = true ↔ k < 65536 ∧ (∀ c ∈ rest, k < c.1) ∧ Cells.wf rest = true := by
  simp [Cells.wf, and_assoc]

/-- Reading after a store, in a map of any form: the value at the key, every other key as before. -/
theorem Cells.get_set (m : Cells α) (a b : Nat) (v : α) :
    Cells.get (Cells.set m a v) b = if b = a then some v else Cells.get m b := by
  induction m with
  | nil => simp [Cells.set, Cells.get]
  | cons c rest ih =>
    obtain ⟨k, w⟩ := c
    simp only [Cells.set]
    split
    · by_cases hb : b = a
      · simp [Cells.get, hb]
      · simp [Cells.get, hb]
    · split
      · rename_i hk
        by_cases hb : b = a
        · simp [Cells.get, hb, hk]
        · simp [Cells.get, hb, hk ▸ hb]
      · simp only [Cells.get, ih]
        by_cases hb : b = k
        · rw [if_pos hb, if_neg (by omega), if_pos hb]
        · simp [hb]

theorem Cells.mem_set {m : Cells α} {a : Nat} {v : α} {c : Nat × α} (h : c ∈ Cells.set m a v) :
    c = (a, v) ∨ c ∈ m := by
  induction m with
  | nil => simpa [Cells.set] using h
  | cons d rest ih =>
    obtain ⟨k, w⟩ := d
    simp only [Cells.set] at h
    split at h
    · simpa using h
    · split at h
      · subst_vars
        rcases List.mem_cons.mp h with h | h
        · exact .inl h
        · exact .inr (by simp [h])
      · rcases List.mem_cons.mp h with h | h
        · exact .inr (by simp [h])
        · rcases ih h with h | h
          · exact .inl h
          · exact .inr (by simp [h])

/-- A store to a legal key keeps the canonical form. -/
theorem Cells.wf_set {m : Cells α} (a : Nat) (v : α) (ha : a < 65536) (h : Cells.wf m = true) :
    Cells.wf (Cells.set m a v) = true := by
  induction m with
  | nil => simp [Cells.set, Cells.wf, ha]
  | cons c rest ih =>
    obtain ⟨k, w⟩ := c
    obtain ⟨hk, hlow, hrest⟩ := Cells.wf_cons.mp h
    simp only [Cells.set]
    split
    · rename_i hlt
      refine Cells.wf_cons.mpr ⟨ha, ?_, h⟩
      intro d hd
      rcases List.mem_cons.mp hd with rfl | hd
      · exact hlt
      · exact Nat.lt_trans hlt (hlow d hd)
    · split
      · exact Cells.wf_cons.mpr ⟨hk, hlow, hrest⟩
      · refine Cells.wf_cons.mpr ⟨hk, ?_, ih hrest⟩
        intro d hd
        rcases Cells.mem_set hd with rfl | hd
        · show k < a
          omega
        · exact hlow d hd

/-- A key that a map in canonical form holds is a legal one. -/
theorem Cells.lt_of_get {m : Cells α} {a : Nat} {v : α} (h : Cells.wf m = true) (hg : Cells.get m a = some v) :
    a < 65536 := by
  induction m with
  | nil => simp at hg
  | cons c rest ih =>
    obtain ⟨k, w⟩ := c
    obtain ⟨hk, -, hrest⟩ := Cells.wf_cons.mp h
    simp only [Cells.get] at hg
    split at hg
    · omega
    · exact ih hrest hg

/-- Two maps in canonical form that read alike are equal: equal contents are equal data. -/
theorem Cells.ext {m n : Cells α} (hm : Cells.wf m = true) (hn : Cells.wf n = true)
    (h : ∀ a, Cells.get m a = Cells.get n a) : m = n := by
  induction m generalizing n with
  | nil =>
    cases n with
    | nil => rfl
    | cons d rest =>
      have := h d.1
      simp [Cells.get] at this
  | cons c rest ih =>
    obtain ⟨k, v⟩ := c
    cases n with
    | nil =>
      have := h k
      simp [Cells.get] at this
    | cons d rest' =>
      obtain ⟨l, w⟩ := d
      obtain ⟨_, hlow, hrest⟩ := Cells.wf_cons.mp hm
      obtain ⟨_, hlow', hrest'⟩ := Cells.wf_cons.mp hn
      have below : ∀ {m : Cells α} {a : Nat}, (∀ c ∈ m, a < c.1) → ∀ b, b ≤ a → Cells.get m b = none :=
        fun hm b hb => Cells.get_eq_none_of_below fun c hc => Nat.lt_of_le_of_lt hb (hm c hc)
      have hkl : k = l := by
        rcases Nat.lt_trichotomy k l with hlt | heq | hgt
        · have h1 := h k
          simp only [Cells.get, if_neg (Nat.ne_of_lt hlt), below hlow' k (by omega)] at h1
          simp at h1
        · exact heq
        · have h1 := h l
          simp only [Cells.get, if_neg (Nat.ne_of_lt hgt), below hlow l (by omega)] at h1
          simp at h1
      subst hkl
      have hvw : v = w := by simpa [Cells.get] using h k
      subst hvw
      congr 1
      refine ih hrest hrest' fun a => ?_
      by_cases ha : a ≤ k
      · rw [below hlow a ha, below hlow' a ha]
      · simpa [Cells.get, show a ≠ k by omega] using h a

/-! ## Filling a run of keys -/

/-- Allocation sets exactly the run, each register to the initial value (44_register_store.md R220). -/
theorem allocate_get (initial : Word) (n a : Nat) (m : Memory) (b : Nat) :
    Cells.get (allocate initial a n m) b = if a ≤ b ∧ b < a + n then some initial else Cells.get m b := by
  induction n generalizing a m with
  | zero => rw [if_neg (by omega)]; rfl
  | succ n ih =>
    simp only [allocate]
    rw [ih, Cells.get_set]
    by_cases hb : b = a
    · rw [if_neg (by omega), if_pos hb, if_pos (by omega)]
    · rw [if_neg hb]
      by_cases hr : a + 1 ≤ b ∧ b < a + 1 + n
      · rw [if_pos hr, if_pos (by omega)]
      · rw [if_neg hr, if_neg (by omega)]

theorem allocate_wf (initial : Word) (n a : Nat) (m : Memory) (h : Cells.wf m = true)
    (hin : a + n ≤ 65536) : Cells.wf (allocate initial a n m) = true := by
  induction n generalizing a m with
  | zero => exact h
  | succ n ih => exact ih (a + 1) _ (Cells.wf_set a initial (by omega) h) (by omega)

/-- Binding reaches exactly the run of addresses (44_register_store.md R224). -/
theorem bindAll_get (handle : Nat) (n a : Nat) (m : Cells Nat) (b : Nat) :
    Cells.get (bindAll handle a n m) b = if a ≤ b ∧ b < a + n then some handle else Cells.get m b := by
  induction n generalizing a m with
  | zero => rw [if_neg (by omega)]; rfl
  | succ n ih =>
    simp only [bindAll]
    rw [ih, Cells.get_set]
    by_cases hb : b = a
    · rw [if_neg (by omega), if_pos hb, if_pos (by omega)]
    · rw [if_neg hb]
      by_cases hr : a + 1 ≤ b ∧ b < a + 1 + n
      · rw [if_pos hr, if_pos (by omega)]
      · rw [if_neg hr, if_neg (by omega)]

theorem bindAll_wf (handle : Nat) (n a : Nat) (m : Cells Nat) (h : Cells.wf m = true)
    (hin : a + n ≤ 65536) : Cells.wf (bindAll handle a n m) = true := by
  induction n generalizing a m with
  | zero => exact h
  | succ n ih => exact ih (a + 1) _ (Cells.wf_set a handle (by omega) h) (by omega)

end Sys2Proof.Machine
end

