-- ==== Sys2Proof/Laws/Crc.lean ====
section
/-! SUPPORT. The CRC register as a linear map: what one shift and one byte do (40_crc.md R120, R122, R125). -/

namespace Sys2Proof

theorem crcShift_bit (c : Word) (i : Nat) :
    (crcShift c).getLsbD i = (c.getLsbD (i + 1) ^^ (c.getLsbD 0 && (0xA001 : Word).getLsbD i)) := by
  unfold crcShift
  cases hc : c.getLsbD 0 <;> simp [Nat.add_comm]

/-- The register is shifted linearly (40_crc.md R122). -/
theorem crcShift_xor (a b : Word) : crcShift (a ^^^ b) = crcShift a ^^^ crcShift b := by
  apply BitVec.eq_of_getLsbD_eq
  intro i _
  rw [BitVec.getLsbD_xor, crcShift_bit, crcShift_bit, crcShift_bit, BitVec.getLsbD_xor,
    BitVec.getLsbD_xor]
  cases a.getLsbD (i + 1) <;> cases b.getLsbD (i + 1) <;> cases a.getLsbD 0 <;> cases b.getLsbD 0 <;>
    cases (0xA001 : Word).getLsbD i <;> rfl

/-- No two registers shift to one: the polynomial's top bit says whether a 1 was shifted out. -/
theorem crcShift_injective : Function.Injective crcShift := by
  intro a b h
  have hb : ∀ i, i < 16 → (crcShift a).getLsbD i = (crcShift b).getLsbD i := fun i _ => by rw [h]
  have h0 : a.getLsbD 0 = b.getLsbD 0 := by
    have h15 := hb 15 (by decide)
    rw [crcShift_bit, crcShift_bit] at h15
    simpa using h15
  apply BitVec.eq_of_getLsbD_eq
  intro i hi
  cases i with
  | zero => exact h0
  | succ i =>
    have hi' := hb i (by omega)
    rw [crcShift_bit, crcShift_bit, h0] at hi'
    simpa using hi'

theorem crcShifts_xor (k : Nat) (a b : Word) : crcShifts k (a ^^^ b) = crcShifts k a ^^^ crcShifts k b := by
  induction k generalizing a b with
  | zero => rfl
  | succ k ih => simp only [crcShifts, crcShift_xor, ih]

theorem crcShifts_injective (k : Nat) : Function.Injective (crcShifts k) := by
  induction k with
  | zero => exact fun _ _ h => h
  | succ k ih => exact fun _ _ h => crcShift_injective (ih h)

/-- A byte in the register's high half comes out in its low half, untouched by the polynomial. -/
theorem crcShifts_high (h : Byte) : crcShifts 8 (h ++ (0 : Byte)) = (0 : Byte) ++ h := by
  revert h; decide +kernel

theorem crcShifts_zero : crcShifts 8 0 = 0 := by decide

/-- Different registers stay different whatever byte is fed to both. -/
theorem crcByte_injective (b : Byte) : Function.Injective fun c => crcByte c b := by
  intro c d h
  have := crcShifts_injective 8 h
  simpa using this

theorem crcRun_injective (s : List Byte) : Function.Injective fun c => crcRun c s := by
  induction s with
  | nil => exact fun _ _ h => h
  | cons b s ih => exact fun _ _ h => crcByte_injective b (ih h)

end Sys2Proof
end

