-- ==== Sys2Proof/Laws/Store.lean ====
section
/-! SUPPORT. The Register Store operations: for each, once, everything it can do. -/

namespace Sys2Proof.Machine

/-! ## Registers, callbacks and the updates -/

theorem reg_setBank (s : State) (sp sp' : Space) (m : Memory) (a : Nat) :
    (s.setBank sp m).reg sp' a = if sp' = sp then Cells.get m a else s.reg sp' a := by
  by_cases h : sp' = sp
  · subst h; simp [State.reg]
  · simp [State.reg, h, bank_setBank_other]

/-- Storing into one register of a bank. -/
theorem reg_store (s : State) (sp sp' : Space) (a b : Nat) (v : Word) :
    (s.setBank sp ((s.bank sp).set a v)).reg sp' b = if sp' = sp ∧ b = a then some v else s.reg sp' b := by
  rw [reg_setBank]
  by_cases h : sp' = sp
  · subst h; simp [Cells.get_set, State.reg]
  · simp [h]

@[simp] theorem callback_setBank (s : State) (sp sp' : Space) (acc : Access) (m : Memory) (a : Nat) :
    (s.setBank sp m).callback sp' acc a = s.callback sp' acc a := by
  simp [State.callback]

@[simp] theorem reg_noteCall (c : CallRecord) (s : State) (sp : Space) (a : Nat) :
    (noteCall c s).reg sp a = s.reg sp a := by
  simp [State.reg]

@[simp] theorem callback_noteCall (c : CallRecord) (s : State) (sp : Space) (acc : Access) (a : Nat) :
    (noteCall c s).callback sp acc a = s.callback sp acc a := by
  simp [State.callback]

theorem setBank_setBank (s : State) (sp : Space) (m n : Memory) :
    (s.setBank sp m).setBank sp n = s.setBank sp n := by
  cases sp <;> rfl

theorem setBank_self (s : State) (sp : Space) : s.setBank sp (s.bank sp) = s := by
  cases sp <;> rfl

/-! ## States that differ in the callback bookkeeping only -/

theorem SameButCalls.refl (s : State) : SameButCalls s s := rfl

theorem SameButCalls.trans {s t u : State} (h1 : SameButCalls s t) (h2 : SameButCalls t u) : SameButCalls s u := by
  unfold SameButCalls at *
  rw [h2, h1]

theorem sameButCalls_noteCall (c : CallRecord) (s : State) : SameButCalls s (noteCall c s) := rfl

theorem SameButCalls.bank {s t : State} (h : SameButCalls s t) (sp : Space) : t.bank sp = s.bank sp := by
  rw [h]; cases sp <;> rfl

theorem SameButCalls.reg {s t : State} (h : SameButCalls s t) (sp : Space) (a : Nat) : t.reg sp a = s.reg sp a := by
  simp only [State.reg, h.bank]

theorem SameButCalls.callback {s t : State} (h : SameButCalls s t) (sp : Space) (acc : Access) (a : Nat) :
    t.callback sp acc a = s.callback sp acc a := by
  rw [h]; cases sp <;> cases acc <;> rfl

/-! ## Callbacks -/

/-- An access runs the bound callback, once, and nothing else changes (44_register_store.md R225). -/
theorem throughCallback_spec (sp : Space) (acc : Access) (a : Nat) (v : Word) (s : State) :
    (s.callback sp acc a = none ∧ throughCallback sp acc a v s = (v, s)) ∨
    (∃ h, s.callback sp acc a = some h ∧
      throughCallback sp acc a v s = (callbackResult h a v s, noteCall ⟨sp, acc, h, a, v⟩ s)) := by
  unfold throughCallback
  cases hc : s.callback sp acc a with
  | none => exact .inl ⟨rfl, rfl⟩
  | some h => exact .inr ⟨h, rfl, rfl⟩

theorem throughCallback_same (sp : Space) (acc : Access) (a : Nat) (v : Word) (s : State) :
    SameButCalls s (throughCallback sp acc a v s).2 := by
  rcases throughCallback_spec sp acc a v s with ⟨_, h⟩ | ⟨_, _, h⟩ <;> rw [h]
  · exact SameButCalls.refl s
  · exact sameButCalls_noteCall _ s

/-! ## read and write -/

/-- `read` (44_register_store.md R222). -/
theorem readReg_spec (sp : Space) (a : Nat) (s : State) :
    (s.reg sp a = none ∧ readReg sp a s = (none, s)) ∨
    (∃ v, s.reg sp a = some v ∧
      readReg sp a s = (some (throughCallback sp .read a v s).1, (throughCallback sp .read a v s).2)) := by
  unfold readReg
  cases hr : s.reg sp a with
  | none => exact .inl ⟨rfl, rfl⟩
  | some v => exact .inr ⟨v, rfl, rfl⟩

theorem readReg_same (sp : Space) (a : Nat) (s : State) : SameButCalls s (readReg sp a s).2 := by
  rcases readReg_spec sp a s with ⟨_, h⟩ | ⟨v, _, h⟩ <;> rw [h]
  · exact SameButCalls.refl s
  · exact throughCallback_same sp .read a v s

/-- `write` (44_register_store.md R223). -/
theorem writeReg_spec (sp : Space) (a : Nat) (v : Word) (s : State) :
    (s.reg sp a = none ∧ writeReg sp a v s = (false, s)) ∨
    (∃ w x t, s.reg sp a = some w ∧ throughCallback sp .write a v s = (x, t) ∧ SameButCalls s t ∧
      writeReg sp a v s = (true, t.setBank sp ((s.bank sp).set a x))) := by
  unfold writeReg
  cases hr : s.reg sp a with
  | none => exact .inl ⟨rfl, rfl⟩
  | some w =>
    have hs := throughCallback_same sp .write a v s
    generalize throughCallback sp .write a v s = r at hs ⊢
    exact .inr ⟨w, r.1, r.2, rfl, rfl, hs, by simp only [hs.bank]⟩

/-- A write leaves the registers of every other address, and declares nothing. -/
theorem writeReg_reg (sp : Space) (a : Nat) (v : Word) (s : State) (sp' : Space) (b : Nat) :
    (writeReg sp a v s).2.reg sp' b =
      if sp' = sp ∧ b = a ∧ (s.reg sp a).isSome then some (throughCallback sp .write a v s).1 else s.reg sp' b := by
  rcases writeReg_spec sp a v s with ⟨h, hw⟩ | ⟨w, x, t, h, hx, ht, hw⟩ <;> rw [hw]
  · simp [h]
  · rw [h, hx]
    have := reg_store t sp sp' a b x
    rw [ht.bank] at this
    rw [this, ht.reg]
    simp

/-- A write touches the bank and the callback bookkeeping only. -/
theorem writeReg_same (sp : Space) (a : Nat) (v : Word) (s : State) :
    SameButCalls (s.setBank sp ((writeReg sp a v s).2.bank sp)) (writeReg sp a v s).2 := by
  rcases writeReg_spec sp a v s with ⟨h, hw⟩ | ⟨w, x, t, h, hx, ht, hw⟩ <;> rw [hw]
  · simp only [setBank_self]; exact SameButCalls.refl s
  · simp only [bank_setBank]
    rw [ht]
    cases sp <;> rfl

theorem writeReg_callback (sp : Space) (a : Nat) (v : Word) (s : State) (sp' : Space) (acc : Access) (b : Nat) :
    (writeReg sp a v s).2.callback sp' acc b = s.callback sp' acc b := by
  rw [(writeReg_same sp a v s).callback]; simp

/-! ## Runs of accesses -/

@[simp] theorem boundCount_zero (s : State) (sp : Space) (acc : Access) (a : Nat) : boundCount s sp acc a 0 = 0 := rfl

/-- The first address counted apart. -/
theorem boundCount_succ (s : State) (sp : Space) (acc : Access) (a n : Nat) :
    boundCount s sp acc a (n + 1) =
      (if (s.callback sp acc a).isSome then 1 else 0) + boundCount s sp acc (a + 1) n := by
  simp only [boundCount, List.range_succ_eq_map, List.countP_cons, List.countP_map, Nat.add_zero]
  rw [Nat.add_comm]
  congr 2
  funext j
  simp only [Function.comp_apply, Nat.succ_eq_add_one]
  rw [show a + (j + 1) = a + 1 + j by omega]

/-- An answer depends on the answers still scripted and on the draw counter only. -/
theorem callbackResult_congr {s t : State} (h : t.hostAnswers = s.hostAnswers) (hd : t.draws = s.draws)
    (k a : Nat) (v : Word) : callbackResult k a v t = callbackResult k a v s := by
  simp only [callbackResult, h, hd]

/-- The first access of a run. -/
theorem accessResult_zero (s : State) (sp : Space) (acc : Access) (a : Nat) (v : Word) :
    accessResult s sp acc a 0 v = (throughCallback sp acc a v s).1 := by
  unfold accessResult throughCallback
  rw [Nat.add_zero]
  cases s.callback sp acc a <;> rfl

/-- The later accesses of a run, seen from the state `u` after the first one. -/
theorem accessResult_succ {s u : State} {sp : Space} {acc : Access} {a : Nat} {v : Word}
    (hc : ∀ b, u.callback sp acc b = s.callback sp acc b)
    (ha : u.hostAnswers = (throughCallback sp acc a v s).2.hostAnswers)
    (hd : u.draws = (throughCallback sp acc a v s).2.draws) (i : Nat) (w : Word) :
    accessResult u sp acc (a + 1) i w = accessResult s sp acc a (i + 1) w := by
  have hb : boundCount u sp acc (a + 1) i = boundCount s sp acc (a + 1) i := by simp only [boundCount, hc]
  unfold accessResult
  rw [hc, hb, show a + (i + 1) = a + 1 + i by omega]
  cases s.callback sp acc (a + 1 + i) with
  | none => rfl
  | some k =>
    refine callbackResult_congr ?_ ?_ _ _ _ <;>
      rcases throughCallback_spec sp acc a v s with ⟨hq, ht⟩ | ⟨j, hq, ht⟩ <;>
      simp [State.afterAnswers, boundCount_succ, ha, hd, ht, hq, Nat.add_comm 1, Nat.add_assoc]

/-- The span check (20_memory.md R70). -/
theorem spanOk_iff (sp : Space) (start qty : Nat) (s : State) :
    spanOk sp start qty s = true ↔
      start + qty ≤ 65536 ∧ ∀ i, i < qty → s.declared sp (start + i) = true := by
  simp [spanOk]

theorem readSpan_same (sp : Space) (n a : Nat) (s : State) : SameButCalls s (readSpan sp a n s).2 := by
  induction n generalizing a s with
  | zero => exact SameButCalls.refl s
  | succ n ih =>
    have h1 := readReg_same sp a s
    unfold readSpan
    split
    · rename_i t ht; rw [ht] at h1; exact h1
    · rename_i v t ht
      rw [ht] at h1
      have h2 := ih (a + 1) t
      split
      · rename_i u hu; rw [hu] at h2; exact h1.trans h2
      · rename_i vs u hu; rw [hu] at h2; exact h1.trans h2

/-- Reading a declared run gives for each address its stored value or the bound callback's answer, calls the bound callbacks in ascending order, each
once with the stored value, and changes nothing else (20_memory.md R65, 44_register_store.md R222). -/
theorem readSpan_spec (sp : Space) (n a : Nat) (s : State)
    (h : ∀ i, i < n → s.declared sp (a + i) = true) :
    ∃ stored vs : List Word, ∃ t, readSpan sp a n s = (some vs, t) ∧ vs.length = n ∧ stored.length = n ∧
      (∀ i (hi : i < stored.length), s.reg sp (a + i) = some stored[i]) ∧
      (∀ i (hi : i < vs.length) (hi' : i < stored.length), vs[i] = accessResult s sp .read a i stored[i]) ∧
      t.calls = s.calls ++ callsOf s sp .read a stored := by
  induction n generalizing a s with
  | zero => exact ⟨[], [], s, rfl, rfl, rfl, by simp, by simp, by simp [callsOf]⟩
  | succ n ih =>
    have h0 := h 0 (by omega)
    obtain ⟨w, hw⟩ := Option.isSome_iff_exists.mp h0
    rw [Nat.add_zero] at hw
    rcases readReg_spec sp a s with ⟨hn, _⟩ | ⟨v, hv, hr⟩
    · rw [hw] at hn; cases hn
    have hvw : v = w := by rw [hw] at hv; simpa using hv.symm
    subst hvw
    have hs := throughCallback_same sp .read a v s
    obtain ⟨stored, vs, t, h1, h2, h3, h4, h5, h6⟩ := ih (a + 1) (throughCallback sp .read a v s).2 (by
      intro i hi
      have := h (i + 1) (by omega)
      simp only [State.declared] at this ⊢
      rw [hs.reg, show a + 1 + i = a + (i + 1) by omega]
      exact this)
    refine ⟨v :: stored, (throughCallback sp .read a v s).1 :: vs, t, ?_, by simp [h2], by simp [h3], ?_, ?_, ?_⟩
    · simp only [readSpan, hr, h1]
    · intro i hi
      cases i with
      | zero => simpa using hv
      | succ i =>
        have := h4 i (by simpa using hi)
        rw [hs.reg] at this
        rw [show a + (i + 1) = a + 1 + i by omega]
        simpa using this
    · intro i hi hi'
      cases i with
      | zero => exact (accessResult_zero s sp .read a v).symm
      | succ i =>
        have := h5 i (by simpa using hi) (by simpa using hi')
        rw [accessResult_succ (fun b => hs.callback sp .read b) rfl rfl] at this
        simpa using this
    · have hco : ∀ b l, callsOf (throughCallback sp .read a v s).2 sp .read b l = callsOf s sp .read b l := by
        intro b l
        induction l generalizing b with
        | nil => rfl
        | cons x l ihl => simp only [callsOf, hs.callback, ihl]
      rw [h6, hco]
      rcases throughCallback_spec sp .read a v s with ⟨hk, hq⟩ | ⟨k, hk, hq⟩
      · simp [hq, callsOf, hk]
      · simp [hq, callsOf, hk]

theorem writeSpan_same (sp : Space) (vs : List Word) (a : Nat) (s : State) :
    SameButCalls (s.setBank sp ((writeSpan sp a vs s).2.bank sp)) (writeSpan sp a vs s).2 := by
  induction vs generalizing a s with
  | nil => simp only [writeSpan, setBank_self]; exact SameButCalls.refl s
  | cons v vs ih =>
    have h1 := writeReg_same sp a v s
    unfold writeSpan
    split
    · rename_i t ht; rw [ht] at h1; exact h1
    · rename_i t ht
      rw [ht] at h1
      have h2 := ih (a + 1) t
      refine SameButCalls.trans ?_ h2
      generalize (writeSpan sp (a + 1) vs t).2.bank sp = m
      simp only at h1
      rw [h1]
      cases sp <;> rfl

theorem writeSpan_callback (sp : Space) (vs : List Word) (a : Nat) (s : State) (sp' : Space) (acc : Access) (b : Nat) :
    (writeSpan sp a vs s).2.callback sp' acc b = s.callback sp' acc b := by
  rw [(writeSpan_same sp vs a s).callback]; simp

/-- Writing a declared run stores for each address its value or the bound callback's answer, calls the bound callbacks in ascending order, each
once with the incoming value, and leaves every other register (20_memory.md R65, 44_register_store.md R223). -/
theorem writeSpan_spec (sp : Space) (vs : List Word) (a : Nat) (s : State)
    (h : ∀ i, i < vs.length → s.declared sp (a + i) = true) :
    ∃ stored : List Word, ∃ t, writeSpan sp a vs s = (true, t) ∧ ∃ hl : stored.length = vs.length, Stored sp a stored s t ∧
      (∀ i (hi : i < vs.length), stored[i] = accessResult s sp .write a i vs[i]) ∧
      t.calls = s.calls ++ callsOf s sp .write a vs := by
  induction vs generalizing a s with
  | nil =>
    refine ⟨[], s, rfl, rfl, ⟨by simp, fun _ _ => rfl, fun _ _ _ => rfl⟩, by simp, by simp [callsOf]⟩
  | cons v vs ih =>
    have h0 := h 0 (by simp)
    obtain ⟨w, hw⟩ := Option.isSome_iff_exists.mp h0
    rw [Nat.add_zero] at hw
    have hreg := writeReg_reg sp a v s
    have hcb := writeReg_callback sp a v s
    rcases writeReg_spec sp a v s with ⟨hn, _⟩ | ⟨w', x, t0, hw', hx, ht0, hr⟩
    · rw [hw] at hn; cases hn
    rw [hr, hx, hw] at hreg
    rw [hr] at hcb
    simp only at hreg hcb
    have hcalls : (t0.setBank sp ((s.bank sp).set a x)).calls = s.calls ++ callsOf s sp .write a [v] := by
      simp only [setBank_calls]
      rcases throughCallback_spec sp .write a v s with ⟨hk, hq⟩ | ⟨k, hk, hq⟩ <;> rw [hx] at hq <;> cases hq
      · simp [callsOf, hk]
      · simp [callsOf, hk]
    have hans : (t0.setBank sp ((s.bank sp).set a x)).hostAnswers = (throughCallback sp .write a v s).2.hostAnswers ∧
        (t0.setBank sp ((s.bank sp).set a x)).draws = (throughCallback sp .write a v s).2.draws := by simp [hx]
    generalize t0.setBank sp ((s.bank sp).set a x) = u at hreg hcb hcalls hans hr
    obtain ⟨stored, t, h1, h2, ⟨h3, h4, h5⟩, h6, h7⟩ := ih (a + 1) u (by
      intro i hi
      have := h (i + 1) (by simpa using hi)
      simp only [State.declared] at this ⊢
      rw [hreg, if_neg (by omega), show a + 1 + i = a + (i + 1) by omega]
      exact this)
    refine ⟨x :: stored, t, by simp [writeSpan, hr, h1], by simp [h2], ⟨?_, ?_, ?_⟩, ?_, ?_⟩
    · intro i hi
      cases i with
      | zero => rw [h4 _ (.inl (by omega)), hreg]; simp
      | succ i =>
        rw [show a + (i + 1) = a + 1 + i by omega]
        simpa using h3 i (by simpa using hi)
    · intro b hb
      rw [List.length_cons] at hb
      rw [h4 b (by omega), hreg, if_neg (by omega)]
    · intro sp' b hne
      rw [h5 sp' b hne, hreg, if_neg (by simp [hne])]
    · intro i hi
      cases i with
      | zero =>
        have := accessResult_zero s sp .write a v
        rw [hx] at this
        exact this.symm
      | succ i =>
        have := h6 i (by simpa using hi)
        rw [accessResult_succ (fun b => hcb sp .write b) hans.1 hans.2] at this
        simpa using this
    · have hco : ∀ b l, callsOf u sp .write b l = callsOf s sp .write b l := by
        intro b l
        induction l generalizing b with
        | nil => rfl
        | cons y l ihl => simp only [callsOf, hcb, ihl]
      rw [h7, hcalls, hco]
      simp only [callsOf]
      cases s.callback sp .write a <;> simp

/-! ## Runs without callbacks -/

/-- Where no address of the run has a callback, an access calls none (44_register_store.md R225). -/
theorem callsOf_none (s : State) (sp : Space) (acc : Access) (a : Nat) (vs : List Word)
    (h : ∀ i, i < vs.length → s.callback sp acc (a + i) = none) : callsOf s sp acc a vs = [] := by
  induction vs generalizing a with
  | nil => rfl
  | cons v vs ih =>
    have h0 := h 0 (by simp)
    rw [Nat.add_zero] at h0
    simp only [callsOf, h0]
    refine ih (a + 1) fun i hi => ?_
    rw [show a + 1 + i = a + (i + 1) by omega]
    exact h (i + 1) (by simpa using hi)

/-- Reading a run without callbacks gives the stored values and changes nothing (44_register_store.md R222). -/
theorem readSpan_quiet (sp : Space) (a : Nat) (stored : List Word) (s : State)
    (h : ∀ i (h : i < stored.length), s.reg sp (a + i) = some stored[i] ∧ s.callback sp .read (a + i) = none) :
    readSpan sp a stored.length s = (some stored, s) := by
  induction stored generalizing a with
  | nil => rfl
  | cons v vs ih =>
    have h0 := h 0 (by simp)
    rw [Nat.add_zero] at h0
    have h1 := ih (a + 1) fun i hi => by
      have := h (i + 1) (by simpa using hi)
      rw [List.getElem_cons_succ] at this
      rw [show a + 1 + i = a + (i + 1) by omega]
      exact this
    simp only [List.length_cons, readSpan, readReg, h0.1, throughCallback, h0.2, h1]
    simp

/-! ## declare_range and bind_callback -/

/-- `declare_range` (44_register_store.md R220): its result says which of its paths was taken. -/
theorem declareRange_spec (sp : Space) (start count initial : Word) (s : State) :
    let r := declareRange sp start count initial s
    (r = (.invalidRange, s) ∧ 65536 < start.toNat + count.toNat) ∨
    (r = (.success, s) ∧ start.toNat + count.toNat ≤ 65536 ∧
      (count = 0 ∨ (⟨sp, start, count⟩ : RegRange) ∈ s.ranges)) ∨
    (r = (.alreadyExists, s) ∧ start.toNat + count.toNat ≤ 65536 ∧ count ≠ 0 ∧
      (⟨sp, start, count⟩ : RegRange) ∉ s.ranges ∧ ∃ q ∈ s.ranges, q.overlaps sp start count = true) ∨
    (start.toNat + count.toNat ≤ 65536 ∧ count ≠ 0 ∧ (⟨sp, start, count⟩ : RegRange) ∉ s.ranges ∧
      (∀ q ∈ s.ranges, q.overlaps sp start count = false) ∧
      r = (.success, { s.setBank sp (allocate initial start.toNat count.toNat (s.bank sp)) with
        ranges := s.ranges ++ [⟨sp, start, count⟩] })) := by
  intro r
  simp only [r, declareRange]
  split
  · exact .inl ⟨rfl, by assumption⟩
  · rename_i h1
    have h1' : start.toNat + count.toNat ≤ 65536 := Nat.not_lt.mp h1
    split
    · rename_i h2; exact .inr (.inl ⟨rfl, h1', .inl h2⟩)
    · rename_i h2
      split
      · rename_i h3; exact .inr (.inl ⟨rfl, h1', .inr h3⟩)
      · rename_i h3
        split
        · rename_i h4
          exact .inr (.inr (.inl ⟨rfl, h1', h2, h3, by simpa using h4⟩))
        · rename_i h4
          refine .inr (.inr (.inr ⟨h1', h2, h3, by simpa using h4, ?_⟩))
          simp

theorem declareRange_wf (sp : Space) (start count initial : Word) (s : State) (sp' : Space)
    (h : ∀ sp, Memory.wf (s.bank sp) = true) :
    Memory.wf ((declareRange sp start count initial s).2.bank sp') = true := by
  rcases declareRange_spec sp start count initial s with ⟨hr, _⟩ | ⟨hr, _⟩ | ⟨hr, _⟩ | ⟨hin, _, _, _, hr⟩ <;>
    rw [hr]
  · exact h sp'
  · exact h sp'
  · exact h sp'
  · have ha := allocate_wf initial count.toNat start.toNat (s.bank sp) (h sp) hin
    have h' := h sp'
    cases sp <;> cases sp' <;> first | exact ha | exact h'

theorem bindCallback_wf (sp : Space) (a : Word) (acc : Access) (count : Word) (handle : Nat) (s : State)
    (sp' : Space) (acc' : Access) (h : ∀ sp acc, Cells.wf (s.callbacks sp acc) = true) :
    Cells.wf ((bindCallback sp a acc count handle s).2.callbacks sp' acc') = true := by
  unfold bindCallback
  split
  · exact h sp' acc'
  · rename_i hn
    have hb := bindAll_wf handle count.toNat a.toNat _ (h sp acc) (Nat.not_lt.mp hn)
    have h' := h sp' acc'
    cases sp <;> cases acc <;> cases sp' <;> cases acc' <;> first | exact hb | exact h'

theorem reset_memory_wf (sp : Space) : Memory.wf (State.reset.bank sp) = true := by
  cases sp <;> rfl

end Sys2Proof.Machine
end

