-- ==== Sys2Proof/Laws/Requests.lean ====
section
/-! SUPPORT. How a request ends: serializing, dropping a broadcast's outcome, raising an exception; and what the two shared
request bodies can do. -/

namespace Sys2Proof.Machine

theorem SameButFrame.refl (s : State) : SameButFrame s s := rfl

theorem sameButFrame_sendBody (body : List Byte) (s : State) : SameButFrame s (sendBody body s) := rfl

theorem sameButFrame_clearFrame (s : State) : SameButFrame s (clearFrame s) := rfl

theorem SameButFrame.trans {s t u : State} (h1 : SameButFrame s t) (h2 : SameButFrame t u) : SameButFrame s u := by
  unfold SameButFrame at *
  rw [h2, h1]

theorem SameButFrame.symm {s t : State} (h : SameButFrame s t) : SameButFrame t s := by
  unfold SameButFrame at *
  rw [h]

theorem isBroadcast_iff (addr : Byte) : isBroadcast addr = true ↔ addr = 0 := by
  simp [isBroadcast]

/-- The end of a unicast request (42_dispatch.md R170). -/
theorem respond_unicast {addr : Byte} (h : addr ≠ 0) (body : List Byte) (s : State) :
    respond addr body s = sendBody body s := by
  have hb : isBroadcast addr = false := by simpa [isBroadcast] using h
  simp [respond, hb]

/-- The end of a broadcast request (42_dispatch.md R180). -/
theorem respond_broadcast (body : List Byte) (s : State) : respond 0 body s = clearFrame s := by
  simp [respond, isBroadcast]

theorem respond_same (addr : Byte) (body : List Byte) (s : State) : SameButFrame s (respond addr body s) := by
  unfold respond
  split
  · exact sameButFrame_clearFrame s
  · exact sameButFrame_sendBody body s

/-- Raising an exception (60_exceptions.md R292, R296). -/
theorem raiseException_spec (addr fc code : Byte) (s : State) :
    RaisesException addr fc code s (raiseException addr fc code s) := by
  refine ⟨respond_same _ _ _, fun h => ?_, fun h => ?_⟩
  · rw [raiseException, respond_unicast h]
    refine ⟨rfl, ?_, frame_sendBody _ _ (by simp [exceptionBody])⟩
    simp [exceptionBody]
  · subst h
    rw [raiseException, respond_broadcast]
    exact ⟨rfl, rfl⟩

theorem readBody_length (addr fc : Byte) (vs : List Word) : (readBody addr fc vs).length = 3 + 2 * vs.length := by
  simp [readBody]; omega

@[simp] theorem twoFieldBody_length (addr fc : Byte) (x y : Word) : (twoFieldBody addr fc x y).length = 6 := rfl

@[simp] theorem exceptionBody_length (addr fc code : Byte) : (exceptionBody addr fc code).length = 3 := rfl

/-- A read request ends in one of three ways (42_dispatch.md R171, R172, R177). -/
theorem readRequest_spec (sp : Space) (fc addr : Byte) (start qty : Word) (s : State) :
    (legalReadCount qty.toNat = false ∧ readRequest sp fc addr start qty s = raiseException addr fc 0x03 s) ∨
    (legalReadCount qty.toNat = true ∧ spanOk sp start.toNat qty.toNat s = false ∧
      readRequest sp fc addr start qty s = raiseException addr fc 0x02 s) ∨
    (legalReadCount qty.toNat = true ∧ spanOk sp start.toNat qty.toNat s = true ∧
      ∃ vs t, readSpan sp start.toNat qty.toNat s = (some vs, t) ∧ vs.length = qty.toNat ∧ SameButCalls s t ∧
        readRequest sp fc addr start qty s = respond addr (readBody s.slaveAddr fc vs) t) := by
  unfold readRequest
  cases hq : legalReadCount qty.toNat with
  | false => exact .inl ⟨rfl, by simp⟩
  | true =>
    cases hs : spanOk sp start.toNat qty.toNat s with
    | false => exact .inr (.inl ⟨rfl, rfl, by simp⟩)
    | true =>
      obtain ⟨stored, vs, t, h1, h2, -, -, -, -⟩ :=
        readSpan_spec sp qty.toNat start.toNat s ((spanOk_iff _ _ _ _).mp hs).2
      have h3 := readSpan_same sp qty.toNat start.toNat s
      rw [h1] at h3
      simp only at h3
      refine .inr (.inr ⟨rfl, rfl, vs, t, h1, h2, h3, ?_⟩)
      have h4 : t.slaveAddr = s.slaveAddr := by rw [h3]
      simp [h1, h4]

/-- A write request ends in one of two ways (42_dispatch.md R174, R176, R177). -/
theorem writeRequest_spec (fc addr : Byte) (start y : Word) (values : List Word) (s : State) :
    (spanOk .holding start.toNat values.length s = false ∧
      writeRequest fc addr start y values s = raiseException addr fc 0x02 s) ∨
    (spanOk .holding start.toNat values.length s = true ∧
      ∃ t, writeSpan .holding start.toNat values s = (true, t) ∧ SameButCalls (s.setBank .holding t.holding) t ∧
        writeRequest fc addr start y values s = respond addr (twoFieldBody s.slaveAddr fc start y) t) := by
  unfold writeRequest
  cases hs : spanOk .holding start.toNat values.length s with
  | false => exact .inl ⟨rfl, by simp⟩
  | true =>
    obtain ⟨stored, t, h1, -, -, -, -⟩ :=
      writeSpan_spec .holding values start.toNat s ((spanOk_iff _ _ _ _).mp hs).2
    have h3 := writeSpan_same .holding values start.toNat s
    rw [h1] at h3
    simp only at h3
    refine .inr ⟨rfl, t, h1, h3, ?_⟩
    have h4 : t.slaveAddr = s.slaveAddr := by rw [h3]; rfl
    simp [h1, h4]

/-! ## exec, instruction by instruction -/

theorem exec_readHoldingRegisters (addr : Byte) (start qty : Word) (s : State) :
    exec (.readHoldingRegisters addr start qty) s = .next (readRequest .holding 0x03 addr start qty s) := rfl

theorem exec_readInputRegisters (addr : Byte) (start qty : Word) (s : State) :
    exec (.readInputRegisters addr start qty) s = .next (readRequest .input 0x04 addr start qty s) := rfl

theorem exec_writeSingleHoldingRegister (addr : Byte) (reg value : Word) (s : State) :
    exec (.writeSingleHoldingRegister addr reg value) s = .next (writeRequest 0x06 addr reg value [value] s) := rfl

theorem exec_writeMultipleHoldingRegisters (addr : Byte) (start qty : Word) (bc : Byte) (data : List Byte) (s : State) :
    exec (.writeMultipleHoldingRegisters addr start qty bc data) s =
      .next (if !legalWriteFields qty bc then raiseException addr 0x10 0x03 s
        else writeRequest 0x10 addr start qty (wordsOf data) s) := rfl

theorem exec_unsupportedFunction (addr fc : Byte) (payload : List Byte) (s : State) :
    exec (.unsupportedFunction addr fc payload) s = .next (raiseException addr fc 0x01 s) := rfl

/-- Running a response serializes its body (43_serializer.md R200 to R204). -/
theorem exec_response {i : Instr} (h : i.isRequest = false) (s : State) : exec i s = .next (sendBody (bodyOf i) s) := by
  cases i <;> first | rfl | simp [Instr.isRequest] at h

theorem legalReadCount_iff (n : Nat) : legalReadCount n = true ↔ 1 ≤ n ∧ n ≤ 125 := by
  simp [legalReadCount]

theorem legalWriteCount_iff (n : Nat) : legalWriteCount n = true ↔ 1 ≤ n ∧ n ≤ 123 := by
  simp [legalWriteCount]

theorem legalWriteFields_iff (qty : Word) (bc : Byte) :
    legalWriteFields qty bc = true ↔ (1 ≤ qty.toNat ∧ qty.toNat ≤ 123) ∧ bc.toNat = 2 * qty.toNat := by
  simp [legalWriteFields, legalWriteCount_iff]

theorem legalSlaveAddr_iff (a : Byte) : legalSlaveAddr a = true ↔ 1 ≤ a.toNat ∧ a.toNat ≤ 247 := by
  simp [legalSlaveAddr]

/-- Every instruction completes (the model has no arm that stops). -/
theorem exec_next (i : Instr) (s : State) : ∃ t, exec i s = .next t := by
  cases i <;> exact ⟨_, rfl⟩

end Sys2Proof.Machine
end

