-- ==== Sys2Proof/Laws/Engine.lean ====
section
/-! SUPPORT. What the Frame Engine can do: `EngineStep` says once what `feed` and the drain leave unchanged, and the inversion
lemmas say which of their paths was taken. -/

namespace Sys2Proof.Machine

/-- What feeding items may change: the Holding bank's values, the Frame Buffer, `len`, `fe_state`, the RX stream and the
callback bookkeeping; never what is declared. -/
structure EngineStep (s t : State) : Prop where
  same : t = { s with holding := t.holding, buf := t.buf, len := t.len, feState := t.feState, rx := t.rx,
                      calls := t.calls, hostAnswers := t.hostAnswers, draws := t.draws }
  declared : ∀ a, t.declared .holding a = s.declared .holding a
  wf : Cells.wf s.holding = true → Cells.wf t.holding = true

theorem EngineStep.refl (s : State) : EngineStep s s := ⟨rfl, fun _ => rfl, id⟩

theorem EngineStep.trans {s t u : State} (h1 : EngineStep s t) (h2 : EngineStep t u) : EngineStep s u := by
  refine ⟨?_, fun a => (h2.declared a).trans (h1.declared a), fun h => h2.wf (h1.wf h)⟩
  rw [h2.same, h1.same]

theorem SameButFrame.engineStep {s t : State} (h : SameButFrame s t) : EngineStep s t := by
  have hh : t.holding = s.holding := by rw [h]
  refine ⟨?_, fun a => ?_, fun hw => hh ▸ hw⟩
  · unfold SameButFrame at h
    rw [h]
  · simp only [State.declared, State.reg, State.bank, hh]

theorem SameButCalls.engineStep {s t : State} (h : SameButCalls s t) : EngineStep s t := by
  have hh : t.holding = s.holding := by rw [h]
  refine ⟨?_, fun a => ?_, fun hw => hh ▸ hw⟩
  · unfold SameButCalls at h
    rw [h]
  · simp only [State.declared, State.reg, State.bank, hh]

theorem engineStep_rx (s : State) (items : List RxItem) : EngineStep s { s with rx := items } :=
  ⟨rfl, fun _ => rfl, id⟩

theorem EngineStep.bank_input {s t : State} (h : EngineStep s t) : t.input = s.input := by rw [h.same]

theorem EngineStep.declared_any {s t : State} (h : EngineStep s t) (sp : Space) (a : Nat) :
    t.declared sp a = s.declared sp a := by
  cases sp
  · exact h.declared a
  · simp only [State.declared, State.reg, State.bank, h.bank_input]

theorem EngineStep.callbacks {s t : State} (h : EngineStep s t) (sp : Space) (acc : Access) :
    t.callbacks sp acc = s.callbacks sp acc := by
  rw [h.same]; cases sp <;> cases acc <;> rfl

/-! ## Writes as engine steps -/

theorem writeReg_wf (sp : Space) (a : Nat) (v : Word) (s : State) (h : Cells.wf (s.bank sp) = true) :
    Cells.wf ((writeReg sp a v s).2.bank sp) = true := by
  rcases writeReg_spec sp a v s with ⟨_, hw⟩ | ⟨w, x, t, hr, _, _, hw⟩ <;> rw [hw]
  · exact h
  · simp only [bank_setBank]
    exact Cells.wf_set a x (Cells.lt_of_get h hr) h

theorem writeReg_declared (sp : Space) (a : Nat) (v : Word) (s : State) (sp' : Space) (b : Nat) :
    (writeReg sp a v s).2.declared sp' b = s.declared sp' b := by
  simp only [State.declared, writeReg_reg]
  split
  · rename_i h; obtain ⟨rfl, rfl, h⟩ := h; simp [h]
  · rfl

theorem writeSpan_wf (sp : Space) (vs : List Word) (a : Nat) (s : State) (h : Cells.wf (s.bank sp) = true) :
    Cells.wf ((writeSpan sp a vs s).2.bank sp) = true := by
  induction vs generalizing a s with
  | nil => exact h
  | cons v vs ih =>
    have hw := writeReg_wf sp a v s h
    unfold writeSpan
    split
    · rename_i t ht; rw [ht] at hw; exact hw
    · rename_i t ht; rw [ht] at hw; exact ih (a + 1) t hw

theorem writeSpan_declared (sp : Space) (vs : List Word) (a : Nat) (s : State) (sp' : Space) (b : Nat) :
    (writeSpan sp a vs s).2.declared sp' b = s.declared sp' b := by
  induction vs generalizing a s with
  | nil => rfl
  | cons v vs ih =>
    have hd := writeReg_declared sp a v s sp' b
    unfold writeSpan
    split
    · rename_i t ht; rw [ht] at hd; exact hd
    · rename_i t ht; rw [ht] at hd; rw [ih]; exact hd

/-- Writing to Holding is an engine step. -/
theorem writeSpan_engineStep (vs : List Word) (a : Nat) (s : State) :
    EngineStep s (writeSpan .holding a vs s).2 := by
  have h := writeSpan_same .holding vs a s
  refine ⟨?_, writeSpan_declared .holding vs a s .holding, fun hw => writeSpan_wf .holding vs a s hw⟩
  generalize (writeSpan .holding a vs s).2 = t at h
  unfold SameButCalls at h
  rw [h]
  rfl

/-! ## exec -/

theorem readRequest_engineStep (sp : Space) (fc addr : Byte) (start qty : Word) (s : State) :
    EngineStep s (readRequest sp fc addr start qty s) := by
  rcases readRequest_spec sp fc addr start qty s with ⟨_, h⟩ | ⟨_, _, h⟩ | ⟨_, _, vs, t, _, _, h1, h⟩ <;> rw [h]
  · exact (respond_same _ _ _).engineStep
  · exact (respond_same _ _ _).engineStep
  · exact h1.engineStep.trans (respond_same _ _ _).engineStep

theorem writeRequest_engineStep (fc addr : Byte) (start y : Word) (values : List Word) (s : State) :
    EngineStep s (writeRequest fc addr start y values s) := by
  rcases writeRequest_spec fc addr start y values s with ⟨_, h⟩ | ⟨_, t, h0, _, h⟩ <;> rw [h]
  · exact (respond_same _ _ _).engineStep
  · have := writeSpan_engineStep values start.toNat s
    rw [h0] at this
    exact this.trans (respond_same _ _ _).engineStep

/-- No instruction touches anything but the Holding bank's values, the Frame Buffer and the callback bookkeeping. -/
theorem exec_engineStep {i : Instr} {s t : State} (h : exec i s = .next t) : EngineStep s t := by
  cases i <;> cases h
  · exact readRequest_engineStep ..
  · exact readRequest_engineStep ..
  · exact writeRequest_engineStep ..
  · split
    · exact (respond_same _ _ _).engineStep
    · exact writeRequest_engineStep ..
  · exact (respond_same _ _ _).engineStep
  all_goals exact (sameButFrame_sendBody _ _).engineStep

/-- After `respond` the engine holds a response that fits, or is `Idle` with an empty buffer. -/
def Ended (t : State) : Prop :=
  (t.feState = .responding ∧ 5 ≤ t.len ∧ t.len ≤ 255) ∨ (t.feState = .idle ∧ t.len = 0)

theorem respond_ended (addr : Byte) (body : List Byte) (s : State) (h3 : 3 ≤ body.length)
    (h : body.length ≤ 253) : Ended (respond addr body s) := by
  unfold respond
  split
  · exact .inr ⟨rfl, rfl⟩
  · exact .inl ⟨rfl, by simp; omega, by simp; omega⟩

theorem raiseException_ended (addr fc code : Byte) (s : State) : Ended (raiseException addr fc code s) :=
  respond_ended _ _ _ (by simp) (by simp)

theorem readRequest_ended (sp : Space) (fc addr : Byte) (start qty : Word) (s : State) :
    Ended (readRequest sp fc addr start qty s) := by
  rcases readRequest_spec sp fc addr start qty s with ⟨_, h⟩ | ⟨_, _, h⟩ | ⟨hq, _, vs, t, _, hl, _, h⟩ <;> rw [h]
  · exact raiseException_ended ..
  · exact raiseException_ended ..
  · rw [legalReadCount_iff] at hq
    exact respond_ended _ _ _ (by rw [readBody_length]; omega) (by rw [readBody_length]; omega)

theorem writeRequest_ended (fc addr : Byte) (start y : Word) (values : List Word) (s : State) :
    Ended (writeRequest fc addr start y values s) := by
  rcases writeRequest_spec fc addr start y values s with ⟨_, h⟩ | ⟨_, t, _, _, h⟩ <;> rw [h]
  · exact raiseException_ended ..
  · exact respond_ended _ _ _ (by simp) (by simp)

/-- A request leaves the engine ended (42_dispatch.md R170, R181). -/
theorem exec_ended {i : Instr} {s t : State} (hi : i.isRequest = true) (h : exec i s = .next t) : Ended t := by
  cases i <;> cases h <;> simp only [Instr.isRequest, Bool.false_eq_true] at hi
  · exact readRequest_ended ..
  · exact readRequest_ended ..
  · exact writeRequest_ended ..
  · split
    · exact raiseException_ended ..
    · exact writeRequest_ended ..
  · exact raiseException_ended ..

/-! ## Decoding a complete frame -/

theorem decodeRequest_isRequest {f : List Byte} {i : Instr} (h : decodeRequest f = .ok i) : i.isRequest = true := by
  unfold decodeRequest at h
  split at h
  · split at h
    · cases h
    · split at h
      · cases h
      · unfold decodeRequestPayload at h
        repeat' split at h
        all_goals first | (cases h; rfl) | cases h
  · cases h

/-- The address byte of a decoded request is the frame's byte 0. -/
theorem decodeRequest_address {f : List Byte} {i : Instr} (h : decodeRequest f = .ok i) :
    ∃ rest, f = addressOf i :: rest := by
  unfold decodeRequest at h
  split at h
  · refine ⟨_, congrArg (· :: _) ?_⟩
    · split at h
      · cases h
      · split at h
        · cases h
        · unfold decodeRequestPayload at h
          repeat' split at h
          all_goals first | (cases h; rfl) | cases h
  · cases h

/-- A frame that the parser holds complete is one the decoder takes (41_frame_parser.md R143, R144, R146). -/
theorem decodeRequest_of_complete {f : List Byte} (hl : f.length ≤ 256)
    (h : expectedLen f = .fixed f.length ∨ (expectedLen f = .openEnded ∧ 4 ≤ f.length)) :
    ∃ i, decodeRequest f = .ok i := by
  match f, hl, h with
  | [], _, h => simp [expectedLen] at h
  | [_], _, h => simp [expectedLen] at h
  | a :: fc :: rest, hl, h =>
    have hb : Config.bufCap = 256 := rfl
    have hlen : (payloadOf rest).length = rest.length - 2 := by simp [payloadOf]
    by_cases h3 : fc = 0x03 ∨ fc = 0x04 ∨ fc = 0x06
    · have he : expectedLen (a :: fc :: rest) = .fixed 8 := by simp only [expectedLen, if_pos h3]
      rw [he] at h
      have h8 : rest.length = 6 := by simp at h; omega
      simp only [decodeRequest]
      rw [if_neg (by omega), if_neg (by simp; omega)]
      match hp : payloadOf rest, hlen with
      | [w, x, y, z], _ =>
        rcases h3 with rfl | rfl | rfl <;> exact ⟨_, rfl⟩
      | [], hn | [_], hn | [_, _], hn | [_, _, _], hn | _ :: _ :: _ :: _ :: _ :: _, hn =>
        simp at hn; omega
    · by_cases h10 : fc = 0x10
      · subst h10
        match rest, hl, h, hlen with
        | w :: x :: y :: z :: bc :: more, hl, h, hlen =>
          simp only [expectedLen] at h
          simp only [show ¬((0x10 : Byte) = 0x03 ∨ (0x10 : Byte) = 0x04 ∨ (0x10 : Byte) = 0x06) by decide,
            if_false, if_true] at h
          split at h
          · simp at h
          · have hbc : more.length = bc.toNat + 2 := by simp at h; omega
            simp only [decodeRequest]
            rw [if_neg (by simp), if_neg (by rw [hb]; exact Nat.not_lt.mpr hl)]
            have hp : payloadOf (w :: x :: y :: z :: bc :: more) =
                w :: x :: y :: z :: bc :: more.take (more.length - 2) := by
              simp [payloadOf, hbc]
            rw [hp]
            simp only [decodeRequestPayload]
            rw [if_neg (by decide), if_neg (by decide), if_neg (by decide), if_pos trivial,
              if_pos (by simp; omega)]
            exact ⟨_, rfl⟩
        | [], _, h, _ | [_], _, h, _ | [_, _], _, h, _ | [_, _, _], _, h, _ | [_, _, _, _], _, h, _ =>
          simp [expectedLen] at h
      · simp only [not_or] at h3
        have h4 : 2 ≤ rest.length := by
          simp only [expectedLen, h3.1, h3.2.1, h3.2.2, h10, false_or, if_false] at h
          simp at h; omega
        simp only [decodeRequest]
        rw [if_neg (by omega), if_neg (by rw [hb]; exact Nat.not_lt.mpr hl)]
        simp only [decodeRequestPayload, if_neg h3.1, if_neg h3.2.1, if_neg h3.2.2, if_neg h10]
        exact ⟨_, rfl⟩

/-! ## validate, checkComplete, feed -/

/-- What `validate` can do with a frame the decoder takes (41_frame_parser.md R150, R152; 42_dispatch.md R170). -/
theorem validate_spec {s : State} (h : ∃ i, decodeRequest s.frame = .ok i) :
    (validate s = .next (clearFrame s)) ∨
    (∃ i, decodeRequest s.frame = .ok i ∧ crcOk s.frame = true ∧ (addressOf i = s.slaveAddr ∨ addressOf i = 0) ∧
      validate s = exec i { s with feState := .dispatching }) := by
  obtain ⟨i, hi⟩ := h
  obtain ⟨rest, hr⟩ := decodeRequest_address hi
  have hf : State.frame { s with feState := .validating } = s.frame := rfl
  unfold validate
  simp only [hf]
  cases hc : crcOk s.frame with
  | false => exact .inl rfl
  | true =>
    cases ha : addrOk s.slaveAddr s.frame with
    | false => exact .inl rfl
    | true =>
      refine .inr ⟨i, hi, rfl, ?_, ?_⟩
      · rw [hr] at ha
        simpa [addrOk, isBroadcast] using ha
      · simp [dispatch, hf, hi]

/-- What `validate` leaves, from any state, if it completes. -/
theorem validate_next {s t : State} (h : validate s = .next t) : EngineStep s t ∧ Ended t := by
  by_cases hd : ∃ i, decodeRequest s.frame = .ok i
  · rcases validate_spec hd with hv | ⟨i, hi, _, _, hv⟩ <;> rw [hv] at h
    · cases h
      exact ⟨(sameButFrame_clearFrame s).engineStep, .inr ⟨rfl, rfl⟩⟩
    · have h1 : EngineStep s { s with feState := .dispatching } := SameButFrame.engineStep rfl
      exact ⟨h1.trans (exec_engineStep h), exec_ended (decodeRequest_isRequest hi) h⟩
  · have hf : State.frame { s with feState := .validating } = s.frame := rfl
    unfold validate at h
    simp only [hf] at h
    split at h
    · cases h
      exact ⟨(sameButFrame_clearFrame s).engineStep, .inr ⟨rfl, rfl⟩⟩
    · split at h
      · cases h
        exact ⟨(sameButFrame_clearFrame s).engineStep, .inr ⟨rfl, rfl⟩⟩
      · unfold dispatch at h
        rw [hf] at h
        split at h
        · rename_i i hi; exact absurd ⟨i, hi⟩ hd
        · cases h

theorem feed_idle {s : State} (h : s.feState = .idle) (item : RxItem) : feed item s = feedIdle item s := by
  simp only [feed, h]

theorem feed_accumulating {s : State} (h : s.feState = .accumulating) (item : RxItem) :
    feed item s = feedAccumulating item s := by
  simp only [feed, h]

/-- A byte that fits is appended, then the completion test is made (41_frame_parser.md R142, R144). -/
theorem feed_byte {s : State} (h : s.feState = .accumulating) (hl : s.len < 256) (b : Byte) :
    feed (.byte b) s = checkComplete (appendByte b s) := by
  rw [feed_accumulating h]
  exact if_pos hl

/-- The completion test of a partial frame does nothing (41_frame_parser.md R144). -/
theorem checkComplete_partial {s : State} (hl : s.len ≤ 256) (hp : partialFrame s.frame) :
    checkComplete s = .next s := by
  have hlen : s.frame.length = s.len := by rw [frame_length]; omega
  unfold checkComplete
  unfold partialFrame at hp
  split
  · rename_i n he
    rw [he] at hp
    rw [if_neg (by simp only at hp; omega)]
  · rename_i he
    rw [he] at hp
    exact hp.elim
  · rfl
  · rfl

/-- The byte with which a frame reaches a fixed expected length has it validated (41_frame_parser.md R144). -/
theorem feed_byte_complete {s : State} (h : s.feState = .accumulating) (hl : s.len < 256) {b : Byte} {n : Nat}
    (he : expectedLen (s.frame ++ [b]) = .fixed n) (hn : s.len + 1 = n) :
    feed (.byte b) s = validate (appendByte b s) := by
  rw [feed_byte h hl, checkComplete, frame_appendByte b s hl, he]
  exact if_pos hn

theorem sameButFrame_appendByte (b : Byte) (s : State) : SameButFrame s (appendByte b s) := rfl

theorem sameButFrame_startFrame (b : Byte) (s : State) :
    SameButFrame s (appendByte b { s with len := 0, feState := .accumulating }) := rfl

/-- The engine after an item: ended, or with a partial frame that fits. -/
def EngineReady (t : State) : Prop :=
  Ended t ∨ (t.feState = .accumulating ∧ 1 ≤ t.len ∧ t.len ≤ 256 ∧ partialFrame t.frame)

/-- The completion test of a frame just extended to `len` bytes, `n` being at least that where it is known
(41_frame_parser.md R144). -/
theorem checkComplete_spec {s : State} (ha : s.feState = .accumulating) (h1 : 1 ≤ s.len) (h2 : s.len ≤ 256)
    (hn : ∀ n, expectedLen s.frame = .fixed n → s.len ≤ n) :
    ∃ t, checkComplete s = .next t ∧ EngineStep s t ∧ EngineReady t := by
  have hl : s.frame.length = s.len := by rw [frame_length]; omega
  unfold checkComplete
  split
  · rename_i n he
    split
    · rename_i hln
      have hd := decodeRequest_of_complete (f := s.frame) (by omega) (.inl (by rw [he, hl, hln]))
      have hv : ∃ t, validate s = .next t := by
        rcases validate_spec hd with hv | ⟨i, _, _, _, hv⟩ <;> rw [hv]
        · exact ⟨_, rfl⟩
        · exact exec_next _ _
      obtain ⟨t, ht⟩ := hv
      exact ⟨t, ht, (validate_next ht).1, .inl (validate_next ht).2⟩
    · rename_i hln
      refine ⟨s, rfl, EngineStep.refl s, .inr ⟨ha, h1, h2, ?_⟩⟩
      have := hn n he
      simp only [partialFrame, he]; omega
  · refine ⟨_, rfl, (sameButFrame_clearFrame s).engineStep, .inl (.inr ⟨rfl, rfl⟩)⟩
  · rename_i he
    exact ⟨s, rfl, EngineStep.refl s, .inr ⟨ha, h1, h2, by simp [partialFrame, he]⟩⟩
  · rename_i he
    exact ⟨s, rfl, EngineStep.refl s, .inr ⟨ha, h1, h2, by simp [partialFrame, he]⟩⟩

/-- One more byte cannot pass the expected length of a partial frame (41_frame_parser.md R144). -/
theorem expectedLen_append {f : List Byte} (b : Byte) (h : partialFrame f) (n : Nat)
    (he : expectedLen (f ++ [b]) = .fixed n) : f.length + 1 ≤ n := by
  match f, h, he with
  | [], _, he => simp [expectedLen] at he
  | [a], _, he =>
    simp only [List.cons_append, List.nil_append, expectedLen] at he
    split at he
    · cases he; simp
    · split at he <;> simp at he
  | a :: fc :: rest, h, he =>
    simp only [List.cons_append, expectedLen] at he
    simp only [partialFrame, expectedLen] at h
    split at he
    · rename_i h3
      rw [if_pos h3] at h
      cases he
      exact h
    · rename_i h3
      split at he
      · rename_i h10
        rw [if_neg h3, if_pos h10] at h
        match rest, h, he with
        | w :: x :: y :: z :: bc :: more, h, he =>
          simp only [List.cons_append] at he
          simp only at h
          split at he
          · cases he
          · rename_i h5
            rw [if_neg h5] at h
            cases he
            exact h
        | [w, x, y, z], _, he =>
          simp only [List.cons_append, List.nil_append] at he
          split at he
          · cases he
          · cases he; simp; omega
        | [], _, he | [_], _, he | [_, _], _, he | [_, _, _], _, he => simp at he
      · cases he

/-- `feed`, between two moves (41_frame_parser.md R140, R153): it completes, and leaves the engine ended or with a partial
frame. -/
theorem feed_spec (item : RxItem) {s : State}
    (h : (s.feState = .idle ∧ s.len = 0) ∨
      (s.feState = .accumulating ∧ 1 ≤ s.len ∧ s.len ≤ 256 ∧ partialFrame s.frame)) :
    ∃ t, feed item s = .next t ∧ EngineStep s t ∧ EngineReady t := by
  rcases h with ⟨hi, h0⟩ | ⟨ha, h1, h2, hp⟩
  · unfold feed
    rw [hi]
    cases item with
    | byte b =>
      have hf : (appendByte b { s with len := 0, feState := .accumulating }).frame = [b] := by
        rw [frame_appendByte _ _ (by simp)]; simp [State.frame]
      obtain ⟨t, h1, h2, h3⟩ := checkComplete_spec
        (s := appendByte b { s with len := 0, feState := .accumulating }) rfl (by simp) (by simp)
        (by intro n hn; rw [hf] at hn; simp [expectedLen] at hn)
      exact ⟨t, h1, (sameButFrame_startFrame b s).engineStep.trans h2, h3⟩
    | gap => exact ⟨s, rfl, EngineStep.refl s, .inl (.inr ⟨hi, h0⟩)⟩
    | err => exact ⟨_, rfl, (sameButFrame_clearFrame s).engineStep, .inl (.inr ⟨rfl, rfl⟩)⟩
  · have hl : s.frame.length = s.len := by rw [frame_length]; omega
    unfold feed
    rw [ha]
    cases item with
    | byte b =>
      simp only [feedAccumulating]
      split
      · rename_i hlt
        have hlt' : s.len < 256 := hlt
        obtain ⟨t, h3, h4, h5⟩ := checkComplete_spec (s := appendByte b s) ha (by simp) (by simp; omega) (by
          intro n hn
          rw [frame_appendByte _ _ hlt'] at hn
          have := expectedLen_append b hp n hn
          simp; omega)
        exact ⟨t, h3, (sameButFrame_appendByte b s).engineStep.trans h4, h5⟩
      · exact ⟨_, rfl, (sameButFrame_clearFrame s).engineStep, .inl (.inr ⟨rfl, rfl⟩)⟩
    | gap =>
      simp only [feedAccumulating]
      split
      · rename_i ho
        have hd := decodeRequest_of_complete (f := s.frame) (by omega) (.inr ⟨ho.1, by omega⟩)
        have hv : ∃ t, validate s = .next t := by
          rcases validate_spec hd with hv | ⟨i, _, _, _, hv⟩ <;> rw [hv]
          · exact ⟨_, rfl⟩
          · exact exec_next _ _
        obtain ⟨t, ht⟩ := hv
        exact ⟨t, ht, (validate_next ht).1, .inl (validate_next ht).2⟩
      · exact ⟨_, rfl, (sameButFrame_clearFrame s).engineStep, .inl (.inr ⟨rfl, rfl⟩)⟩
    | err => exact ⟨_, rfl, (sameButFrame_clearFrame s).engineStep, .inl (.inr ⟨rfl, rfl⟩)⟩

theorem checkComplete_next {s t : State} (h : checkComplete s = .next t) : EngineStep s t := by
  unfold checkComplete at h
  split at h
  · split at h
    · exact (validate_next h).1
    · cases h; exact EngineStep.refl s
  · cases h; exact (sameButFrame_clearFrame s).engineStep
  · cases h; exact EngineStep.refl s
  · cases h; exact EngineStep.refl s

/-- What `feed` leaves unchanged, from any state, if it completes. -/
theorem feed_next {item : RxItem} {s t : State} (h : feed item s = .next t) : EngineStep s t := by
  unfold feed at h
  split at h
  · cases item with
    | byte b =>
      have h1 := checkComplete_next h
      exact EngineStep.trans (sameButFrame_startFrame b s).engineStep h1
    | gap => cases h; exact EngineStep.refl s
    | err => cases h; exact (sameButFrame_clearFrame s).engineStep
  · cases item with
    | byte b =>
      simp only [feedAccumulating] at h
      split at h
      · exact EngineStep.trans (sameButFrame_appendByte b s).engineStep (checkComplete_next h)
      · cases h; exact (sameButFrame_clearFrame s).engineStep
    | gap =>
      simp only [feedAccumulating] at h
      split at h
      · exact (validate_next h).1
      · cases h; exact (sameButFrame_clearFrame s).engineStep
    | err => cases h; exact (sameButFrame_clearFrame s).engineStep
  all_goals cases h

end Sys2Proof.Machine
end

