-- ==== Sys2Proof/Laws/Line.lean ====
section
/-! SUPPORT. The Direction Controller, the transmitter and the output trace: what each operation can do. -/

namespace Sys2Proof.Machine

/-- What the transmit side may change: the TX stream, the trace, the direction, the pending flag, the transport's verdicts,
and `len` and `fe_state` when a response is handed off. -/
def LineStep (s t : State) : Prop :=
  t = { s with tx := t.tx, trace := t.trace, dirState := t.dirState, dirOut := t.dirOut, txPending := t.txPending,
               txVerdicts := t.txVerdicts, draws := t.draws, len := t.len, feState := t.feState }

theorem LineStep.refl (s : State) : LineStep s s := rfl

theorem LineStep.trans {s t u : State} (h1 : LineStep s t) (h2 : LineStep t u) : LineStep s u := by
  unfold LineStep at *
  rw [h2, h1]

/-! ## The transmitter -/

/-- `n` moves of the transmitter: the oldest bytes leave, in order (45_direction_and_polling.md R253). -/
theorem wireMany_spec (n : Nat) (s : State) :
    ∃ w : List Byte, s.tx = w ++ (wireMany n s).tx ∧ w.length = min n s.tx.length ∧
      wireMany n s = { s with tx := (wireMany n s).tx, trace := s.trace ++ w.map .wire } := by
  induction n generalizing s with
  | zero => exact ⟨[], by simp [wireMany], by simp, by simp [wireMany]⟩
  | succ n ih =>
    simp only [wireMany]
    unfold wireOne
    cases hs : s.tx with
    | nil =>
      obtain ⟨w, h1, h2, h3⟩ := ih s
      rw [hs] at h1 h2
      exact ⟨w, by simpa using h1, by simpa using h2, h3⟩
    | cons b rest =>
      obtain ⟨w, h1, h2, h3⟩ := ih (emit (.wire b) { s with tx := rest })
      simp only [emit_tx] at h1 h2
      refine ⟨b :: w, by simp [← h1], by simp [h2], ?_⟩
      dsimp only
      rw [h3]
      simp [emit]

theorem lineStep_wireMany (n : Nat) (s : State) : LineStep s (wireMany n s) := by
  obtain ⟨w, _, _, h⟩ := wireMany_spec n s
  unfold LineStep
  rw [h]

/-! ## The Direction Controller -/

/-- `assert_transmit()` (45_direction_and_polling.md R259): the state after it, whatever it was before. -/
theorem assertTransmit_eq (s : State) :
    assertTransmit s = { s with
      dirState := .transmitting
      dirOut := if s.hasDirPin ∧ s.dirState = .receiving then s.params.txLevel else s.dirOut
      trace := s.trace ++ if s.hasDirPin ∧ s.dirState = .receiving then [.dir s.params.txLevel] else [] } := by
  unfold assertTransmit drivePin
  cases hd : s.dirState <;> cases hp : s.hasDirPin <;> simp [setLevel, emit]
  all_goals first | exact hp | rw [← hd, ← hp]

/-- `assert_receive()` (45_direction_and_polling.md R260). -/
theorem assertReceive_eq (s : State) :
    assertReceive s = { s with
      dirState := .receiving
      dirOut := if s.hasDirPin ∧ s.dirState = .transmitting then !s.params.txLevel else s.dirOut
      trace := s.trace ++ if s.hasDirPin ∧ s.dirState = .transmitting then [.dir (!s.params.txLevel)] else [] } := by
  unfold assertReceive drivePin
  cases hd : s.dirState <;> cases hp : s.hasDirPin <;> simp [setLevel, emit]
  all_goals first | exact hp | rw [← hd, ← hp]

theorem lineStep_assertTransmit (s : State) : LineStep s (assertTransmit s) := by
  unfold LineStep; rw [assertTransmit_eq]

theorem lineStep_assertReceive (s : State) : LineStep s (assertReceive s) := by
  unfold LineStep; rw [assertReceive_eq]

theorem lineStep_txWrite (v : TxVerdict) (bytes : List Byte) (s : State) : LineStep s (txWrite v bytes s) := rfl

theorem lineStep_clearFrame (s : State) : LineStep s (clearFrame s) := rfl

theorem lineStep_flushRequest (v : TxVerdict) (s : State) : LineStep s (flushRequest v s) :=
  LineStep.trans (show LineStep s (emit .flushReq s) from rfl) (lineStep_wireMany _ _)

theorem lineStep_pending (p : Bool) (s : State) : LineStep s { s with txPending := p } := rfl

theorem lineStep_releasePhase (s : State) : LineStep s (releasePhase s) := by
  unfold releasePhase
  split <;> dsimp only <;> split
  · exact lineStep_pending _ _
  · exact (lineStep_pending _ _).trans (lineStep_assertReceive _)
  · exact LineStep.refl s
  · exact lineStep_assertReceive s

/-- The flush request, and what leaves by the completion test: everything where the flush blocks
(45_direction_and_polling.md R253, R266). -/
theorem flushRequest_spec (v : TxVerdict) (s : State) :
    ∃ w : List Byte, s.tx = w ++ (flushRequest v s).tx ∧
      (s.params.blockingFlush = true → (flushRequest v s).tx = []) ∧
      flushRequest v s = { s with tx := (flushRequest v s).tx, trace := s.trace ++ .flushReq :: w.map .wire } := by
  obtain ⟨w, h1, h2, h3⟩ :=
    wireMany_spec (if s.params.blockingFlush then s.tx.length else v.leaveAfter) (emit .flushReq s)
  refine ⟨w, h1, fun hb => ?_, ?_⟩
  · simp only [hb, if_true] at h2
    have hl := congrArg List.length h1
    simp only [List.length_append, emit_tx, Nat.min_self] at h2 hl
    have h0 : (wireMany (if s.params.blockingFlush then s.tx.length else v.leaveAfter) (emit .flushReq s)).tx.length = 0 := by
      omega
    exact List.eq_nil_of_length_eq_zero h0
  · exact h3.trans (by simp [emit]; rfl)

/-- The response on its way out (45_direction_and_polling.md R266, R267): `w0`, `w1` and `w2` leave before the write,
between it and the flush request and by the completion test, the oldest bytes first. -/
theorem sendResponse_spec (v : TxVerdict) (s : State) :
    ∃ w0 w1 w2 : List Byte, w0 <+: s.tx ∧
      w0 ++ w1 ++ w2 ++ (sendResponse v s).tx = s.tx ++ takenBytes v s.frame ∧
      (s.params.blockingFlush = true → (sendResponse v s).tx = []) ∧
      sendResponse v s = { s with
        tx := (sendResponse v s).tx
        len := 0
        feState := .idle
        dirState := .transmitting
        dirOut := if s.hasDirPin ∧ s.dirState = .receiving then s.params.txLevel else s.dirOut
        trace := s.trace ++ w0.map .wire ++
          (if s.hasDirPin ∧ s.dirState = .receiving then [.dir s.params.txLevel] else []) ++
          [.tx s.frame] ++ w1.map .wire ++ [.flushReq] ++ w2.map .wire
        txVerdicts := s.txVerdicts.tail
        draws := s.draws + 1 } := by
  obtain ⟨w0, h01, _, h03⟩ := wireMany_spec v.leaveBefore s
  generalize hA : wireMany v.leaveBefore s = A at h01 h03
  generalize hC : endResponse (txWrite v s.frame (assertTransmit A)) = C
  obtain ⟨w1, h11, _, h13⟩ := wireMany_spec v.leaveBetween C
  generalize hD : wireMany v.leaveBetween C = D at h11 h13
  obtain ⟨w2, h21, h22, h23⟩ := flushRequest_spec v D
  have hS : sendResponse v s = flushRequest v D := by simp only [sendResponse, hA, hC, hD]
  rw [hS]
  generalize flushRequest v D = F at h21 h22 h23
  rw [assertTransmit_eq] at hC
  simp only [endResponse, clearFrame, txWrite, emit] at hC
  have hDp : D.params = s.params := by rw [h13, ← hC, h03]
  have hCtx : C.tx = A.tx ++ takenBytes v s.frame := by rw [← hC]
  refine ⟨w0, w1, w2, ⟨_, h01.symm⟩, ?_, fun hb => h22 (hDp ▸ hb), ?_⟩
  · rw [h01, List.append_assoc w0 A.tx, ← hCtx, h11, h21]
    simp
  · rw [h23, h13, ← hC, h03]
    simp

theorem lineStep_sendResponse (v : TxVerdict) (s : State) : LineStep s (sendResponse v s) :=
  (lineStep_wireMany _ _).trans <| (lineStep_assertTransmit _).trans <| (lineStep_txWrite _ _ _).trans <|
    (lineStep_clearFrame _).trans <| (lineStep_wireMany _ _).trans <| lineStep_flushRequest _ _

theorem lineStep_transmitPhase (s : State) : LineStep s (transmitPhase s) := by
  unfold transmitPhase
  split
  · dsimp only
    split
    · exact (lineStep_sendResponse _ _).trans <| (lineStep_pending _ _).trans (lineStep_assertReceive _)
    · exact (lineStep_sendResponse _ _).trans (lineStep_pending _ _)
  · exact LineStep.refl s

theorem zip_fst_sublist {α β : Type} (x : List α) (y : List β) : ((x.zip y).map (·.1)).Sublist x := by
  induction x generalizing y with
  | nil => simp
  | cons a x ih =>
    cases y with
    | nil => simp
    | cons b y => simpa using ih y

/-- The bytes that enter the TX stream are bytes of the response, in order (45_direction_and_polling.md R253, R267). -/
theorem takenBytes_sublist (v : TxVerdict) (bytes : List Byte) : (takenBytes v bytes).Sublist bytes := by
  unfold takenBytes
  split
  · exact List.Sublist.refl _
  · refine List.Sublist.trans (List.Sublist.map _ List.filter_sublist) ?_
    exact zip_fst_sublist bytes v.keep

/-! ## The trace -/

theorem levelAfter_append (level : Option Bool) (x y : List Event) :
    levelAfter level (x ++ y) = levelAfter (levelAfter level x) y := by
  induction x generalizing level with
  | nil => rfl
  | cons e x ih => cases e <;> exact ih _

theorem sentUnderTransmit_append (tl : Bool) (level : Option Bool) (x y : List Event) :
    sentUnderTransmit tl level (x ++ y) =
      (sentUnderTransmit tl level x && sentUnderTransmit tl (levelAfter level x) y) := by
  induction x generalizing level with
  | nil => simp [sentUnderTransmit, levelAfter]
  | cons e x ih => cases e <;> simp [sentUnderTransmit, levelAfter, ih, Bool.and_assoc]

theorem dirAlternates_append (level : Option Bool) (x y : List Event) :
    dirAlternates level (x ++ y) = (dirAlternates level x && dirAlternates (levelAfter level x) y) := by
  induction x generalizing level with
  | nil => simp [dirAlternates, levelAfter]
  | cons e x ih => cases e <;> simp [dirAlternates, levelAfter, ih, Bool.and_assoc]

@[simp] theorem levelAfter_wires (level : Option Bool) (w : List Byte) :
    levelAfter level (w.map .wire) = level := by
  induction w with
  | nil => rfl
  | cons b w ih => exact ih

@[simp] theorem dirAlternates_wires (level : Option Bool) (w : List Byte) :
    dirAlternates level (w.map .wire) = true := by
  induction w with
  | nil => rfl
  | cons b w ih => exact ih

theorem sentUnderTransmit_wires {tl : Bool} {level : Option Bool} {w : List Byte} (h : w ≠ [] → level = some tl) :
    sentUnderTransmit tl level (w.map .wire) = true := by
  induction w with
  | nil => rfl
  | cons b w ih =>
    have hl := h (by simp)
    simp only [List.map_cons, sentUnderTransmit]
    rw [ih (fun _ => hl), hl]
    simp

/-! ## The drain and step() -/

theorem andThen_next {o : Host.Outcome State Fault Refusal} {f : State → Host.Outcome State Fault Refusal} {t : State}
    (h : andThen o f = .next t) : ∃ u, o = .next u ∧ f u = .next t := by
  cases o with
  | next u => exact ⟨u, rfl, h⟩
  | fault r => cases h
  | refused r => cases h

theorem drain_cons {s : State} (h : s.feState ≠ .responding) (item : RxItem) (rest : List RxItem) :
    drain (item :: rest) s = andThen (feed item { s with rx := rest }) (drain rest) := by
  have hr : s.responseReady = false := by simpa [State.responseReady] using h
  simp only [drain, hr, Bool.false_eq_true, if_false]

/-- What the drain leaves unchanged (45_direction_and_polling.md R264). -/
theorem drain_next {items : List RxItem} {s t : State} (h : drain items s = .next t) : EngineStep s t := by
  induction items generalizing s with
  | nil => cases h; exact engineStep_rx s []
  | cons item rest ih =>
    unfold drain at h
    split at h
    · cases h; exact engineStep_rx s _
    · obtain ⟨u, h1, h2⟩ := andThen_next h
      exact (engineStep_rx s rest).trans ((feed_next h1).trans (ih h2))

/-- `step()` taken apart (45_direction_and_polling.md R262 to R266). -/
theorem pollStep_cases {s t : State} (h : pollStep s = .next t) :
    (s.setupDone = false ∧ t = s) ∨
    (s.setupDone = true ∧ ∃ u v, u = releasePhase s ∧ drain s.rx u = .next v ∧ t = transmitPhase v ∧
      LineStep s u ∧ EngineStep u v ∧ LineStep v t) := by
  unfold pollStep at h
  cases hs : s.setupDone with
  | false => rw [hs] at h; cases h; exact .inl ⟨rfl, rfl⟩
  | true =>
    rw [hs] at h
    obtain ⟨v, h1, h2⟩ := andThen_next h
    cases h2
    exact .inr ⟨rfl, _, v, rfl, h1, rfl, lineStep_releasePhase s, drain_next h1, lineStep_transmitPhase v⟩

/-- Everything a step can be: a call of `step()`, or one other move (00_scope.md R9). -/
theorem step_cases {s t : State} (h : step s = .next t) :
    (∃ a, pollStep { s with agenda := a } = .next t) ∨
    (∃ m rest, s.agenda = m :: rest ∧ m ≠ .callStep ∧ perform m { s with agenda := rest } = .next t) := by
  unfold step nextMove at h
  cases ha : s.agenda with
  | nil =>
    rw [ha] at h
    refine .inl ⟨[], ?_⟩
    rw [← ha]
    exact h
  | cons m rest =>
    rw [ha] at h
    by_cases hm : m = .callStep
    · subst hm; exact .inl ⟨rest, h⟩
    · exact .inr ⟨m, rest, rfl, hm, h⟩

end Sys2Proof.Machine
end

