-- ==== Sys2Proof/Laws/PerInstr.lean ====
section
/-! SUPPORT. Facts about an instruction as syntax, one lemma for each constructor. -/

namespace Sys2Proof.Laws.FrameFits

/-- A well-formed frame has the length that the decoder needs and the Frame Buffer holds, and its check passes
(30_encoding.md R91; 40_crc.md R123). -/
def Statement (i : Instr) : Prop :=
  i.wellFormed = true → 4 ≤ (encode i).length ∧ (encode i).length ≤ 256 ∧ crcOk (encode i) = true

theorem of_body {i : Instr} (h2 : 2 ≤ (bodyOf i).length) (h : (bodyOf i).length ≤ 254) :
    4 ≤ (encode i).length ∧ (encode i).length ≤ 256 ∧ crcOk (encode i) = true := by
  unfold encode
  rw [sealFrame_length]
  exact ⟨by omega, by omega, crcOk_sealFrame _⟩

theorem readHoldingRegisters (addr : Byte) (start qty : Word) : Statement (.readHoldingRegisters addr start qty) :=
  fun _ => of_body (by simp [bodyOf]) (by simp [bodyOf])

theorem readInputRegisters (addr : Byte) (start qty : Word) : Statement (.readInputRegisters addr start qty) :=
  fun _ => of_body (by simp [bodyOf]) (by simp [bodyOf])

theorem writeSingleHoldingRegister (addr : Byte) (reg value : Word) :
    Statement (.writeSingleHoldingRegister addr reg value) :=
  fun _ => of_body (by simp [bodyOf]) (by simp [bodyOf])

theorem writeMultipleHoldingRegisters (addr : Byte) (start qty : Word) (bc : Byte) (data : List Byte) :
    Statement (.writeMultipleHoldingRegisters addr start qty bc data) := by
  intro h
  simp only [Instr.wellFormed, Bool.and_eq_true, decide_eq_true_eq, Config.bufCap] at h
  exact of_body (by simp [bodyOf]; omega) (by simp [bodyOf]; omega)

theorem unsupportedFunction (addr fc : Byte) (payload : List Byte) :
    Statement (.unsupportedFunction addr fc payload) := by
  intro h
  simp only [Instr.wellFormed, Bool.and_eq_true, decide_eq_true_eq, Config.bufCap] at h
  exact of_body (by simp [bodyOf]) (by simp [bodyOf]; omega)

theorem readHoldingRegistersResponse (addr : Byte) (values : List Word) :
    Statement (.readHoldingRegistersResponse addr values) := by
  intro h
  simp only [Instr.wellFormed, Bool.and_eq_true, Machine.legalReadCount_iff] at h
  exact of_body (by simp only [bodyOf, Machine.readBody_length]; omega)
    (by simp only [bodyOf, Machine.readBody_length]; omega)

theorem readInputRegistersResponse (addr : Byte) (values : List Word) :
    Statement (.readInputRegistersResponse addr values) := by
  intro h
  simp only [Instr.wellFormed, Bool.and_eq_true, Machine.legalReadCount_iff] at h
  exact of_body (by simp only [bodyOf, Machine.readBody_length]; omega)
    (by simp only [bodyOf, Machine.readBody_length]; omega)

theorem writeSingleHoldingRegisterResponse (addr : Byte) (reg value : Word) :
    Statement (.writeSingleHoldingRegisterResponse addr reg value) :=
  fun _ => of_body (by simp [bodyOf]) (by simp [bodyOf])

theorem writeMultipleHoldingRegistersResponse (addr : Byte) (start qty : Word) :
    Statement (.writeMultipleHoldingRegistersResponse addr start qty) :=
  fun _ => of_body (by simp [bodyOf]) (by simp [bodyOf])

theorem exceptionResponse (addr fc code : Byte) : Statement (.exceptionResponse addr fc code) :=
  fun _ => of_body (by simp [bodyOf]) (by simp [bodyOf])

end Sys2Proof.Laws.FrameFits
end

