-- ==== Sys2Proof/Tests/Slice0.lean ====
section
/-! SUPPORT. The model's own tests: ill-formed terms, frames decoded, one step for each instruction, and a witness for
every statement that has hypotheses. Expected bytes and values are those of spec/95_test_vectors.md. -/

namespace Sys2Proof.Tests

open Sys2Proof.Machine

/-! ## Ill-formed terms (one for each check) -/

theorem test_wf_data_is_byte_count : Instr.wellFormed (.writeMultipleHoldingRegisters 0x11 0 1 2 [0]) = false := by
  decide

theorem test_wf_write_fits : Instr.wellFormed (.writeMultipleHoldingRegisters 0x11 0 124 248 (List.replicate 248 0)) =
    false ∧ Instr.wellFormed (.writeMultipleHoldingRegisters 0x11 0 124 247 (List.replicate 247 0)) = true := by
  decide +kernel

theorem test_wf_supported_code_is_not_unsupported : Instr.wellFormed (.unsupportedFunction 0x11 0x06 []) = false := by
  decide

theorem test_wf_payload_fits : Instr.wellFormed (.unsupportedFunction 0x11 0x07 (List.replicate 253 0)) = false ∧
    Instr.wellFormed (.unsupportedFunction 0x11 0x07 (List.replicate 252 0)) = true := by
  decide +kernel

theorem test_wf_responder_address : Instr.wellFormed (.writeSingleHoldingRegisterResponse 0 0 0) = false ∧
    Instr.wellFormed (.writeSingleHoldingRegisterResponse 248 0 0) = false ∧
    Instr.wellFormed (.writeSingleHoldingRegisterResponse 247 0 0) = true := by
  decide

theorem test_wf_read_response_count : Instr.wellFormed (.readHoldingRegistersResponse 1 []) = false ∧
    Instr.wellFormed (.readInputRegistersResponse 1 (List.replicate 126 0)) = false ∧
    Instr.wellFormed (.readInputRegistersResponse 1 (List.replicate 125 0)) = true := by
  decide +kernel

theorem test_wf_write_response_count : Instr.wellFormed (.writeMultipleHoldingRegistersResponse 1 0 0) = false ∧
    Instr.wellFormed (.writeMultipleHoldingRegistersResponse 1 0 124) = false ∧
    Instr.wellFormed (.writeMultipleHoldingRegistersResponse 1 0 123) = true := by
  decide

theorem test_wf_exception_bit : Instr.wellFormed (.exceptionResponse 1 0x03 2) = false := by decide

theorem test_wf_exception_code : Instr.wellFormed (.exceptionResponse 1 0x83 0) = false ∧
    Instr.wellFormed (.exceptionResponse 1 0x83 4) = false := by
  decide

/-! ## Decoding: the words of 95_test_vectors.md, and rejections by name -/

theorem test_decode_read_holding : decodeRequest [0x11, 0x03, 0x00, 0x02, 0x00, 0x03, 0xA6, 0x9B] =
    .ok (.readHoldingRegisters 0x11 2 3) := by rfl

theorem test_decode_read_input : decodeRequest [0x11, 0x04, 0x00, 0x00, 0x00, 0x01, 0x33, 0x5A] =
    .ok (.readInputRegisters 0x11 0 1) := by rfl

theorem test_decode_write_single : decodeRequest [0x11, 0x06, 0x00, 0x05, 0x12, 0x34, 0x96, 0x2C] =
    .ok (.writeSingleHoldingRegister 0x11 5 0x1234) := by rfl

theorem test_decode_write_multiple :
    decodeRequest [0x11, 0x10, 0x00, 0x00, 0x00, 0x02, 0x04, 0x00, 0x0A, 0x01, 0x02, 0x07, 0x3C] =
    .ok (.writeMultipleHoldingRegisters 0x11 0 2 4 [0x00, 0x0A, 0x01, 0x02]) := by rfl

theorem test_decode_unsupported : decodeRequest [0x11, 0x2B, 0x0E, 0x01, 0x00, 0xB1, 0xB4] =
    .ok (.unsupportedFunction 0x11 0x2B [0x0E, 0x01, 0x00]) := by rfl

theorem test_decode_read_holding_response :
    decodeResponse [0x11, 0x03, 0x04, 0x00, 0x0A, 0x01, 0x02, 0x4B, 0xA1] =
    .ok (.readHoldingRegistersResponse 0x11 [0x000A, 0x0102]) := by rfl

theorem test_decode_read_input_response : decodeResponse [0x11, 0x04, 0x02, 0x00, 0xFF, 0x38, 0xB3] =
    .ok (.readInputRegistersResponse 0x11 [0x00FF]) := by rfl

theorem test_decode_write_single_response :
    decodeResponse [0x11, 0x06, 0x00, 0x05, 0x12, 0x34, 0x96, 0x2C] =
    .ok (.writeSingleHoldingRegisterResponse 0x11 5 0x1234) := by rfl

theorem test_decode_write_multiple_response :
    decodeResponse [0x11, 0x10, 0x00, 0x00, 0x00, 0x02, 0x43, 0x58] =
    .ok (.writeMultipleHoldingRegistersResponse 0x11 0 2) := by rfl

theorem test_decode_exception : decodeResponse [0x11, 0xAB, 0x01, 0x9F, 0x35] =
    .ok (.exceptionResponse 0x11 0xAB 0x01) := by rfl

theorem test_decode_rejects : decodeRequest [0x11, 0x03, 0x00] = .error .tooShort ∧
    decodeRequest [0x11, 0x03, 0x00, 0x02, 0x00, 0xA6, 0x9B] = .error .wrongLength ∧
    decodeResponse [0x11, 0x07, 0x4C, 0x22] = .error .notAResponse ∧
    decodeResponse [0x11, 0x03, 0x04, 0x00, 0x00, 0xA1, 0xA2] = .error .badByteCount ∧
    decodeResponse [0x00, 0x83, 0x02, 0xC1, 0x34] = .error .badResponder ∧
    decodeResponse [0x11, 0x83, 0x04, 0x41, 0x36] = .error .badResponseField := ⟨rfl, rfl, rfl, rfl, rfl, rfl⟩

/-- The encoder against the same bytes. -/
theorem test_encode : encode (.writeMultipleHoldingRegisters 0x11 0 2 4 [0x00, 0x0A, 0x01, 0x02]) =
      [0x11, 0x10, 0x00, 0x00, 0x00, 0x02, 0x04, 0x00, 0x0A, 0x01, 0x02, 0x07, 0x3C] ∧
    encode (.readInputRegistersResponse 0x11 [0x00FF]) = [0x11, 0x04, 0x02, 0x00, 0xFF, 0x38, 0xB3] := by
  decide +kernel

/-- Rows of spec/opcode_table.json, numbered as there. -/
theorem test_table_words : decodeTableWord 16 0x1103 = some (.readHoldingRegisters 0x11 0 0) ∧
    decodeTableWord 16 0x0010 = some (.writeMultipleHoldingRegisters 0 0 0 0 []) ∧
    decodeTableWord 16 0x0000 = some (.unsupportedFunction 0 0 []) := by
  decide +kernel

/-- Row 0x30 of the table `T`, as printed (40_crc.md R122). -/
theorem test_crc_table_row : (List.range 8).map (fun k => crcTable (BitVec.ofNat 8 (0x30 + k))) =
    [0x1400, 0xD4C1, 0xD581, 0x1540, 0xD701, 0x17C0, 0x1680, 0xD641] := by
  decide +kernel

/-- The running register over V1's request (40_crc.md R128). -/
theorem test_crc_running : (List.range 8).map (fun k =>
      crc16 (([0x11, 0x03, 0x00, 0x02, 0x00, 0x03, 0xA6, 0x9B] : List Byte).take (k + 1))) =
    [0x4C7F, 0xE14D, 0x3521, 0xD974, 0x27D9, 0x9BA6, 0x009B, 0x0000] := by
  decide +kernel

/-! ## A small block: Holding [0, 10) zero but for registers 0 and 1, Input [0, 1), address 0x11, direction pin bound -/

/-- `HR[0] = 0x000A`, `HR[1] = 0x0102`, `HR[2..9] = 0`, `IR[0] = 0x00FF` (95_test_vectors.md V8, 2.4). -/
def block : State :=
  { State.reset with
    holding := [(0, 0x000A), (1, 0x0102), (2, 0), (3, 0), (4, 0), (5, 0), (6, 0), (7, 0), (8, 0), (9, 0)]
    input := [(0, 0x00FF)]
    ranges := [⟨.holding, 0, 10⟩, ⟨.input, 0, 1⟩]
    setupDone := true
    slaveAddr := 0x11
    hasDirPin := true
    trace := [.dir false]
    txVerdicts := [⟨true, [], 0, 0, 0⟩] }

/-- The block with items waiting. -/
def waiting (items : List RxItem) : State := { block with rx := items }

/-- What an outcome shows: the trace after the first event, and the Holding bank. -/
def shown : Host.Outcome State Fault Refusal → Option (List Event × Memory)
  | .next t => some (t.trace.tail, t.holding)
  | .fault _ => none
  | .refused _ => none

/-- The trace of a response that the transport takes. -/
def answered (bytes : List Byte) : List Event := [.dir true, .tx bytes, .flushReq]

/-! ## One step for each instruction -/

theorem test_step_read_holding :
    shown (step (waiting (frameItems [0x11, 0x03, 0x00, 0x00, 0x00, 0x02, 0xC6, 0x9B]))) =
    some (answered [0x11, 0x03, 0x04, 0x00, 0x0A, 0x01, 0x02, 0x4B, 0xA1], block.holding) := by decide +kernel

theorem test_step_read_holding_out_of_range :
    shown (step (waiting (frameItems [0x11, 0x03, 0x00, 0x08, 0x00, 0x03, 0x86, 0x99]))) =
    some (answered [0x11, 0x83, 0x02, 0xC1, 0x34], block.holding) := by decide +kernel

theorem test_step_read_input :
    shown (step (waiting (frameItems [0x11, 0x04, 0x00, 0x00, 0x00, 0x01, 0x33, 0x5A]))) =
    some (answered [0x11, 0x04, 0x02, 0x00, 0xFF, 0x38, 0xB3], block.holding) := by decide +kernel

theorem test_step_read_input_bank :
    shown (step (waiting (frameItems [0x11, 0x04, 0x00, 0x00, 0x00, 0x02, 0x73, 0x5B]))) =
    some (answered [0x11, 0x84, 0x02, 0xC3, 0x04], block.holding) := by decide +kernel

theorem test_step_write_single :
    shown (step (waiting (frameItems [0x11, 0x06, 0x00, 0x05, 0x12, 0x34, 0x96, 0x2C]))) =
    some (answered [0x11, 0x06, 0x00, 0x05, 0x12, 0x34, 0x96, 0x2C], block.holding.set 5 0x1234) := by decide +kernel

theorem test_step_write_single_broadcast :
    shown (step (waiting (frameItems [0x00, 0x06, 0x00, 0x01, 0xBE, 0xEF, 0xE9, 0xF7]))) =
    some ([], block.holding.set 1 0xBEEF) := by decide +kernel

/-- M7: a Write callback on register 1 that answers 0x0204. -/
theorem test_step_write_multiple_callback :
    shown (step { waiting (frameItems [0x11, 0x10, 0x00, 0x00, 0x00, 0x02, 0x04, 0x00, 0x0A, 0x01, 0x02, 0x07, 0x3C]) with
      cbHoldingWrite := [(1, 0)], hostAnswers := [0x0204] }) =
    some (answered [0x11, 0x10, 0x00, 0x00, 0x00, 0x02, 0x43, 0x58],
      (block.holding.set 0 0x000A).set 1 0x0204) := by decide +kernel

theorem test_step_write_multiple_all_or_nothing :
    shown (step (waiting (frameItems [0x11, 0x10, 0x00, 0x09, 0x00, 0x02, 0x04, 0x00, 0x01, 0x00, 0x02, 0xB7, 0x04]))) =
    some (answered [0x11, 0x90, 0x02, 0xCC, 0x04], block.holding) := by decide +kernel

theorem test_step_unsupported :
    shown (step (waiting (frameItems [0x11, 0x83, 0x02, 0xC1, 0x34]))) =
    some (answered [0x11, 0x83, 0x01, 0x81, 0x35], block.holding) := by decide +kernel

theorem test_step_corrupted_is_silent :
    shown (step (waiting (frameItems [0x11, 0x03, 0x00, 0x02, 0x00, 0x03, 0xA6, 0x9A]))) =
    some ([], block.holding) := by decide +kernel

theorem test_step_other_slave_is_silent :
    shown (step (waiting (frameItems [0x12, 0x03, 0x00, 0x02, 0x00, 0x03, 0xA6, 0xA8]))) =
    some ([], block.holding) := by decide +kernel

/-- F4: an error inside a frame. -/
theorem test_step_error_discards :
    shown (step (waiting ([0x11, 0x10, 0x00, 0x00].map .byte ++ [.err]))) = some ([], block.holding) := by
  decide +kernel

/-- The five responses, run by themselves: the frame in the buffer. -/
def sent : Host.Outcome State Fault Refusal → Option (List Byte)
  | .next t => if t.feState = .responding then some t.frame else none
  | .fault _ => none
  | .refused _ => none

theorem test_exec_read_holding_response :
    sent (exec (.readHoldingRegistersResponse 0x11 [0x000A, 0x0102]) block) =
    some [0x11, 0x03, 0x04, 0x00, 0x0A, 0x01, 0x02, 0x4B, 0xA1] := by decide +kernel

theorem test_exec_read_input_response : sent (exec (.readInputRegistersResponse 0x11 [0x00FF]) block) =
    some [0x11, 0x04, 0x02, 0x00, 0xFF, 0x38, 0xB3] := by decide +kernel

theorem test_exec_write_single_response :
    sent (exec (.writeSingleHoldingRegisterResponse 0x11 5 0x1234) block) =
    some [0x11, 0x06, 0x00, 0x05, 0x12, 0x34, 0x96, 0x2C] := by decide +kernel

theorem test_exec_write_multiple_response :
    sent (exec (.writeMultipleHoldingRegistersResponse 0x11 0 2) block) =
    some [0x11, 0x10, 0x00, 0x00, 0x00, 0x02, 0x43, 0x58] := by decide +kernel

theorem test_exec_exception_response : sent (exec (.exceptionResponse 0x11 0x90 0x03) block) =
    some [0x11, 0x90, 0x03, 0x0D, 0xC4] := by decide +kernel

/-- P1: the line is released by a later `step()`, once the bytes have left (45_direction_and_polling.md R273). -/
theorem test_step_releases_line :
    shown (step { block with txPending := true, dirState := .transmitting, dirOut := true }) =
    some ([.dir false], block.holding) ∧
    shown (step { block with txPending := true, dirState := .transmitting, dirOut := true, tx := [0xB5] }) =
    some ([], block.holding) := by decide +kernel

/-- S1 and S2: `setup` refuses 0 and 248, and takes 247. -/
theorem test_setup : (setup 0 true State.reset).1 = .configError ∧ (setup 248 true State.reset).1 = .configError ∧
    (setup 247 true State.reset).1 = .done ∧ (setup 1 true block).1 = .configError := by decide +kernel

/-- 95_test_vectors.md 2.8: the results of `declare_range`. -/
theorem test_declare : (declareRange .holding 0 10 0xFFFF block).1 = .success ∧
    (declareRange .holding 0 12 0 block).1 = .alreadyExists ∧ (declareRange .holding 5 10 0 block).1 = .alreadyExists ∧
    (declareRange .holding 10 5 1 block).1 = .success ∧ (declareRange .holding 65530 10 0 block).1 = .invalidRange ∧
    (declareRange .holding 65526 10 3 block).1 = .success ∧ (declareRange .holding 3 0 7 block).1 = .success := by
  decide +kernel

/-- The host fetches from where `withFetchWord` puts a word: step runs it, and it is a broadcast read of 0 registers. -/
theorem test_fetch_word : shown (step (State.reset.withFetchWord 16 0x0003)) = some ([], []) := by decide +kernel

/-! ## Witnesses: hypotheses that can be met, clause by clause -/

theorem witness_RequestEncodingRoundTrip :
    ∀ i ∈ [Instr.readHoldingRegisters 0x11 2 3, .readInputRegisters 0 0xFFFF 0, .writeSingleHoldingRegister 0x11 0xFFFF 1,
      .writeMultipleHoldingRegisters 0x11 0 0xFFFF 1 [0x80], .unsupportedFunction 0xFF 0x83 []],
    i.wellFormed = true ∧ i.isRequest = true := by decide

theorem witness_ResponseEncodingRoundTrip :
    ∀ i ∈ [Instr.readHoldingRegistersResponse 1 [0], .readInputRegistersResponse 247 [0xFFFF, 0],
      .writeSingleHoldingRegisterResponse 0x11 5 0, .writeMultipleHoldingRegistersResponse 0x11 0 123,
      .exceptionResponse 0x11 0xFF 3],
    i.wellFormed = true ∧ i.isRequest = false := by decide

theorem witness_DecodedFrameReencodes :
    crcOk [0x11, 0x07, 0x4C, 0x22] = true ∧
      decodeRequest [0x11, 0x07, 0x4C, 0x22] = .ok (.unsupportedFunction 0x11 0x07 []) ∧
    crcOk [0x11, 0x83, 0x02, 0xC1, 0x34] = true ∧
      decodeResponse [0x11, 0x83, 0x02, 0xC1, 0x34] = .ok (.exceptionResponse 0x11 0x83 0x02) :=
  ⟨by decide +kernel, rfl, by decide +kernel, rfl⟩

theorem witness_OpcodeTableSelectsInstruction :
    decodeRequest ((0x11 : Byte) :: 0x83 :: [0x02, 0xC1, 0x34]) = .ok (.unsupportedFunction 0x11 0x83 [0x02]) ∧
    decodeResponse ((0x11 : Byte) :: 0x83 :: [0x02, 0xC1, 0x34]) = .ok (.exceptionResponse 0x11 0x83 0x02) := ⟨rfl, rfl⟩

theorem witness_CrcRunningFormAndResidue : 4 ≤ ([0x11, 0x07, 0x4C, 0x22] : List Byte).length ∧
    crcOk [0x11, 0x07, 0x4C, 0x22] = true ∧ crc16 [0x11, 0x07, 0x4C, 0x22] = 0 := by decide +kernel

theorem witness_CorruptedLastByteFailsCrc : 3 ≤ ([0x11, 0x07, 0x4C] : List Byte).length ∧
    crcOk ([0x11, 0x07, 0x4C] ++ [0x22]) = true ∧ (0x23 : Byte) ≠ 0x22 := by decide +kernel

/-- The block with a Read callback on register 5 and Write callbacks on 4 and 5. -/
def withCallbacks : State := { block with cbHoldingRead := [(5, 1)], cbHoldingWrite := [(4, 2), (5, 2)] }

theorem witness_ReadRegisterContract : withCallbacks.declared .holding 10 = false ∧
    withCallbacks.reg .holding 9 = some 0 ∧ withCallbacks.callback .holding .read 9 = none ∧
    withCallbacks.reg .holding 5 = some 0 ∧ withCallbacks.callback .holding .read 5 = some 1 := by decide

theorem witness_WriteRegisterContract : withCallbacks.declared .input 1 = false ∧
    withCallbacks.declared .holding 0 = true ∧ withCallbacks.callback .holding .write 0 = none ∧
    withCallbacks.declared .holding 5 = true ∧ withCallbacks.callback .holding .write 5 = some 2 := by decide

theorem witness_ReadAfterWriteReturnsStored :
    (∃ t, writeReg .holding 9 0x1234 withCallbacks = (true, t)) ∧ withCallbacks.callback .holding .read 9 = none ∧
      withCallbacks.callback .holding .write 9 = none ∧
    (∃ t, writeReg .holding 4 0x1234 withCallbacks = (true, t)) ∧ withCallbacks.callback .holding .read 4 = none ∧
      withCallbacks.callback .holding .write 4 = some 2 := ⟨⟨_, rfl⟩, rfl, rfl, ⟨_, rfl⟩, rfl, rfl⟩

theorem witness_DeclareRangeContract :
    65536 < (65535 : Word).toNat + (2 : Word).toNat ∧
    (65535 : Word).toNat + (1 : Word).toNat ≤ 65536 ∧ (65535 : Word).toNat + (0 : Word).toNat ≤ 65536 ∧
    (⟨.holding, 0, 10⟩ : RegRange) ∈ block.ranges ∧
    (⟨.holding, 9, 1⟩ : RegRange) ∉ block.ranges ∧
    (∃ r ∈ block.ranges, ∃ a, r.covers .holding a ∧ (9 : Word).toNat ≤ a ∧ a < (9 : Word).toNat + (1 : Word).toNat) ∧
    (∀ r ∈ block.ranges, r.space = .holding → (10 : Word).toNat + (1 : Word).toNat ≤ r.start.toNat ∨
      r.start.toNat + r.count.toNat ≤ (10 : Word).toNat) := by
  refine ⟨by decide, by decide, by decide, by decide, by decide, ?_, by decide⟩
  exact ⟨⟨.holding, 0, 10⟩, by decide, 9, ⟨rfl, by decide, by decide⟩, by decide, by decide⟩

theorem witness_BindCallbackContract : 65536 < (65535 : Word).toNat + (2 : Word).toNat ∧
    (65535 : Word).toNat + (1 : Word).toNat ≤ 65536 ∧
    (bindCallback .holding 5 .write 1 3 withCallbacks).1 = .replaced ∧
    (bindCallback .holding 6 .write 1 3 withCallbacks).1 = .bound := by decide +kernel

theorem witness_SpanCheckHasNoWrap : spanOk .holding 0 10 block = true ∧ spanOk .holding 9 2 block = false ∧
    spanOk .holding 0xFFFF 2 { block with holding := [(0, 0), (65535, 0)] } = false ∧
    spanOk .holding 0xFFFF 1 { block with holding := [(65535, 0)] } = true := by decide +kernel

theorem witness_ReadRunInAddressOrder : ∀ i, i < 3 → withCallbacks.declared .holding (4 + i) = true := by decide

theorem witness_WriteRunInAddressOrder :
    ∀ i, i < ([1, 2, 3, 4] : List Word).length → withCallbacks.declared .holding (3 + i) = true := by decide

/-- The example of 44_register_store.md R224: values 1, 2, 3, 4 to registers 3 to 6, a doubling Write callback on 4 and 5. -/
theorem test_run_of_callbacks :
    let s := { withCallbacks with hostAnswers := [4, 6] }
    ((writeSpan .holding 3 [1, 2, 3, 4] s).2.reg .holding 3, (writeSpan .holding 3 [1, 2, 3, 4] s).2.reg .holding 4,
      (writeSpan .holding 3 [1, 2, 3, 4] s).2.reg .holding 5, (writeSpan .holding 3 [1, 2, 3, 4] s).2.reg .holding 6) =
      (some 1, some 4, some 6, some 4) ∧
    [accessResult s .holding .write 3 0 1, accessResult s .holding .write 3 1 2, accessResult s .holding .write 3 2 3,
      accessResult s .holding .write 3 3 4] = [1, 4, 6, 4] := by decide +kernel

theorem witness_ReadRequestsAnswerRegisters : (0x11 : Byte) ≠ 0 ∧ 1 ≤ (1 : Word).toNat ∧ (125 : Word).toNat ≤ 125 ∧
    spanOk .holding (4 : Word).toNat (2 : Word).toNat withCallbacks = true ∧
    spanOk .input (0 : Word).toNat (1 : Word).toNat withCallbacks = true := by decide +kernel

theorem witness_UncallbackedReadAnswersStoredValues :
    (∀ i (h : i < ([0x000A, 0x0102] : List Word).length),
      withCallbacks.reg .holding ((0 : Word).toNat + i) = some ([0x000A, 0x0102] : List Word)[i] ∧
        withCallbacks.callback .holding .read ((0 : Word).toNat + i) = none) ∧
    (∀ i (h : i < ([0x00FF] : List Word).length),
      withCallbacks.reg .input ((0 : Word).toNat + i) = some ([0x00FF] : List Word)[i] ∧
        withCallbacks.callback .input .read ((0 : Word).toNat + i) = none) := by decide

theorem witness_WriteSingleStoresAndEchoes : (0x11 : Byte) ≠ 0 ∧
    withCallbacks.declared .holding (0 : Word).toNat = true ∧
      withCallbacks.callback .holding .write (0 : Word).toNat = none ∧
    withCallbacks.declared .holding (5 : Word).toNat = true ∧
      withCallbacks.callback .holding .write (5 : Word).toNat = some 2 := by decide

theorem witness_WriteMultipleStoresSpan : (0x11 : Byte) ≠ 0 ∧ 1 ≤ (2 : Word).toNat ∧ (2 : Word).toNat ≤ 123 ∧
    (4 : Byte).toNat = 2 * (2 : Word).toNat ∧ ([0x00, 0x0A, 0x01, 0x02] : List Byte).length = (4 : Byte).toNat ∧
    spanOk .holding (8 : Word).toNat (2 : Word).toNat block = true ∧
    spanOk .holding (5 : Word).toNat (2 : Word).toNat withCallbacks = true ∧
    withCallbacks.callback .holding .write ((5 : Word).toNat + 0) = some 2 ∧
    withCallbacks.callback .holding .write ((5 : Word).toNat + 1) = none := by decide +kernel

theorem witness_IllegalFieldsRaiseIllegalValue : 125 < (126 : Word).toNat ∧ (0 : Word).toNat = 0 ∧
    123 < (124 : Word).toNat ∧ (1 : Byte).toNat ≠ 2 * (2 : Word).toNat := by decide

theorem witness_UndeclaredSpanRaisesIllegalAddress : 1 ≤ (2 : Word).toNat ∧ (2 : Word).toNat ≤ 123 ∧
    (4 : Byte).toNat = 2 * (2 : Word).toNat ∧ ([0, 1, 0, 2] : List Byte).length = (4 : Byte).toNat ∧
    spanOk .holding (9 : Word).toNat (2 : Word).toNat block = false ∧
    spanOk .input (0 : Word).toNat (2 : Word).toNat block = false ∧
    block.declared .holding (10 : Word).toNat = false := by decide +kernel

theorem witness_BroadcastExecutesSilently : (Instr.readHoldingRegisters 0x11 0 1).isRequest = true ∧
    (Instr.unsupportedFunction 0x11 7 []).isRequest = true ∧ (0x11 : Byte) ≠ 0 := by decide

theorem witness_EveryUnicastRequestIsAnsweredOnce : (Instr.readInputRegisters 0x11 0 125).isRequest = true ∧
    (Instr.readInputRegisters 0x11 0 125).wellFormed = true ∧ addressOf (.readInputRegisters 0x11 0 125) ≠ 0 ∧
    legalSlaveAddr block.slaveAddr = true := by decide

theorem witness_ResponsesAreSerialized : ([0x000A, 0x0102] : List Word).length ≤ 125 := by decide

theorem witness_ResponseLengths : (Instr.exceptionResponse 0x11 0x83 2).isRequest = false ∧
    (Instr.exceptionResponse 0x11 0x83 2).wellFormed = true := by decide

theorem witness_WriteSingleResponseEqualsRequest : block.slaveAddr ≠ 0 ∧
    block.declared .holding (5 : Word).toNat = true := by decide

theorem witness_FirstByteStartsFrame : block.feState = .idle := rfl

/-- The block after the bytes `f` of a frame. -/
def accumulating (f : List Byte) : State := { storeFrame f block with feState := .accumulating }

theorem accumulating_frame {f : List Byte} (h : f.length ≤ 256) : (accumulating f).frame = f :=
  frame_storeFrame f block h

theorem witness_ByteIsAppendedUntilComplete : (accumulating [0x11]).feState = .accumulating ∧
    (accumulating [0x11]).len < 256 ∧ partialFrame ((accumulating [0x11]).frame ++ [0x03]) := by
  refine ⟨rfl, by decide, ?_⟩
  rw [accumulating_frame (by decide)]
  show 2 < 8
  decide

/-- V3 (or, with the last byte 0x9B, V1) up to its last byte. -/
def almost : State := accumulating [0x11, 0x03, 0x00, 0x02, 0x00, 0x03, 0xA6]

theorem witness_ExpectedLengthByFunctionCode : almost.feState = .accumulating ∧ almost.len < 256 ∧
    expectedLen (almost.frame ++ [0x9B]) = .fixed 8 ∧ almost.len + 1 = 8 ∧ ([0x11] : List Byte).length < 2 ∧
    ([0, 0, 0, 2] : List Byte).length < 5 ∧ supportedFunction 0x05 = false ∧ supportedFunction 0x11 = false ∧
    ¬ 248 ≤ (247 : Byte).toNat ∧ 248 ≤ (248 : Byte).toNat := by decide +kernel

theorem witness_GapClosesOpenFrameElseDiscards :
    (expectedLen (accumulating [0x11, 0x07, 0x4C, 0x22]).frame = .openEnded ∧
      4 ≤ (accumulating [0x11, 0x07, 0x4C, 0x22]).len) ∧
    ¬(expectedLen (accumulating [0x11, 0x07, 0x4C]).frame = .openEnded ∧ 4 ≤ (accumulating [0x11, 0x07, 0x4C]).len) ∧
    ¬(expectedLen (accumulating [0x11, 0x03, 0x00, 0x02]).frame = .openEnded ∧
      4 ≤ (accumulating [0x11, 0x03, 0x00, 0x02]).len) := by decide +kernel

theorem witness_IdleGapAndErrorDiscard : block.feState = .idle ∧ block.len = 0 ∧
    (accumulating [0x11]).feState = .accumulating := ⟨rfl, rfl, rfl⟩

theorem witness_LengthFailuresAreSilent :
    (accumulating [0x11, 0x10, 0, 0, 0, 0x7C]).frame = [0x11, 0x10, 0, 0, 0, 0x7C] ∧
    (accumulating [0x11, 0x10, 0, 0, 0, 0x7C]).len = 6 ∧ 248 ≤ (248 : Byte).toNat ∧
    (accumulating (0x11 :: 0x07 :: List.replicate 254 0)).feState = .accumulating ∧
    (accumulating (0x11 :: 0x07 :: List.replicate 254 0)).len = 256 := by decide +kernel

theorem witness_InvalidFramesAreSilent :
    crcOk (accumulating [0x11, 0x07, 0x4C, 0x23]).frame = false ∧
    (∃ a rest, (accumulating [0x12, 0x07, 0x4C, 0x22]).frame = a :: rest ∧
      a ≠ (accumulating [0x12, 0x07, 0x4C, 0x22]).slaveAddr ∧ a ≠ 0) :=
  ⟨by decide +kernel, 0x12, [0x07, 0x4C, 0x22], by decide +kernel, by decide, by decide⟩

/-- V3 and V4 at their last byte. -/
theorem witness_InvalidFramesAreSilent_feed :
    (almost.feState = .accumulating ∧ almost.len < 256 ∧ expectedLen (almost.frame ++ [0x9A]) = .fixed 8 ∧
      almost.len + 1 = 8 ∧ crcOk (almost.frame ++ [0x9A]) = false) ∧
    (∃ a rest, (accumulating [0x12, 0x03, 0x00, 0x02, 0x00, 0x03, 0xA6]).frame ++ [0xA8] = a :: rest ∧
      a ≠ (accumulating [0x12, 0x03, 0x00, 0x02, 0x00, 0x03, 0xA6]).slaveAddr ∧ a ≠ 0) :=
  ⟨by decide +kernel, 0x12, [0x03, 0x00, 0x02, 0x00, 0x03, 0xA6, 0xA8], by decide +kernel, by decide, by decide⟩

theorem witness_ValidFrameRunsItsInstruction : crcOk (accumulating [0x11, 0x07, 0x4C, 0x22]).frame = true ∧
    decodeRequest (accumulating [0x11, 0x07, 0x4C, 0x22]).frame = .ok (.unsupportedFunction 0x11 0x07 []) ∧
    addressOf (.unsupportedFunction 0x11 0x07 []) = (accumulating [0x11, 0x07, 0x4C, 0x22]).slaveAddr := by
  refine ⟨by decide +kernel, ?_, by decide⟩
  rw [accumulating_frame (by decide)]
  rfl

theorem witness_StepRunsTheWaitingRequest :
    let i := Instr.writeSingleHoldingRegister 0 1 0xBEEF
    let s := waiting (frameItems (encode i) ++ [.byte 0x11])
    s.agenda = [] ∧ s.setupDone = true ∧ s.feState = .idle ∧ s.len = 0 ∧ i.wellFormed = true ∧ i.isRequest = true ∧
      (addressOf i = s.slaveAddr ∨ addressOf i = 0) ∧ s.rx = frameItems (encode i) ++ [.byte 0x11] :=
  ⟨rfl, rfl, rfl, rfl, rfl, rfl, .inr rfl, rfl⟩

theorem witness_SetupConfiguresOnce : block.setupDone = true ∧ (0 : Byte).toNat < 1 ∧ 247 < (248 : Byte).toNat ∧
    State.reset.setupDone = false ∧ 1 ≤ (1 : Byte).toNat ∧ (247 : Byte).toNat ≤ 247 := by decide

theorem witness_StepBeforeSetupDoesNothing : State.reset.setupDone = false ∧ State.reset.agenda = [] := ⟨rfl, rfl⟩

/-- The block with its last two response bytes still to leave. -/
def sending : State :=
  { block with
    txPending := true
    dirState := .transmitting
    dirOut := true
    tx := [0xEC, 0xB5]
    trace := [.dir false, .dir true, .tx [0xEC, 0xB5], .flushReq] }

theorem witness_DirectionControllerIsIdempotent : sending.dirState = .transmitting ∧ sending.hasDirPin = true ∧
    ({ sending with hasDirPin := false } : State).hasDirPin = false ∧ block.dirState = .receiving ∧
    block.hasDirPin = true ∧ ({ block with hasDirPin := false } : State).hasDirPin = false := by decide

theorem witness_ReleasePhaseWaitsForFlush : sending.txPending = true ∧ sending.tx ≠ [] ∧
    ({ sending with tx := [] } : State).txPending = true ∧ ({ sending with tx := [] } : State).tx = [] ∧
    block.txPending = false := by decide

/-- The block with a response ready. -/
def ready : State := sendBody [0x11, 0x83, 0x02] block

theorem witness_DrainStopsAtResponse : ready.feState = .responding ∧ (∃ t, drain [.gap] ready = .next t) ∧
    (∃ t, drain [.gap] block = .next t) := ⟨rfl, ⟨_, rfl⟩, ⟨_, rfl⟩⟩

theorem witness_TransmitPhaseOrdersItsOutputs : block.feState ≠ .responding ∧ ready.feState = .responding ∧
    (nextVerdict ready).accepted = true ∧
    ({ ready with params := ⟨true, true, 9600⟩ } : State).params.blockingFlush = true := by decide

theorem witness_WriteTakesResponseInOrder : (⟨true, [], 0, 0, 0⟩ : TxVerdict).accepted = true ∧
    takenBytes ⟨false, [true, false, true], 0, 0, 0⟩ [1, 2, 3, 4] = [1, 3] := by decide

theorem witness_AtMostOneResponsePerStep : ∃ t, pollStep block = .next t := ⟨_, rfl⟩

theorem witness_SilenceYieldsOneGapPerIdlePeriod : block.gapArmed = false := rfl

/-- A store with one range, Holding 65535. -/
def oneRegister : State :=
  { State.reset with holding := [(65535, 7)], ranges := [⟨.holding, 65535, 1⟩], setupDone := true, slaveAddr := 1 }

theorem witness_StepKeepsStoreSound : StoreInv oneRegister ∧ ∃ t, step oneRegister = .next t := by
  refine ⟨⟨fun sp => by cases sp <;> rfl, fun sp acc => by cases sp <;> cases acc <;> rfl, by decide, by decide,
    fun sp a => ?_⟩, ⟨_, rfl⟩⟩
  cases sp with
  | holding =>
    by_cases h : a = 65535
    · subst h
      exact ⟨fun _ => ⟨⟨.holding, 65535, 1⟩, by decide, rfl, by decide, by decide⟩, fun _ => rfl⟩
    · have hd : oneRegister.declared .holding a = false := by
        simp [State.declared, State.reg, State.bank, oneRegister, Cells.get, h]
      rw [hd]
      refine ⟨fun h' => by simp at h', fun ⟨r, hr, _, h1, h2⟩ => absurd ?_ h⟩
      simp only [oneRegister, List.mem_singleton] at hr
      subst hr
      have h3 : a < 65536 := h2
      have h4 : 65535 ≤ a := h1
      omega
  | input =>
    refine ⟨fun h' => ?_, fun ⟨r, hr, h0, _⟩ => ?_⟩
    · cases h'
    · simp only [oneRegister, List.mem_singleton] at hr
      subst hr
      cases h0

/-- A frame under way. -/
theorem engineInv_accumulating : EngineInv (accumulating [0x11, 0x03]) := by
  refine ⟨.inr ⟨rfl, by decide, by decide, ?_⟩, fun _ => by decide, fun h => by cases h⟩
  rw [accumulating_frame (by decide)]
  show 2 < 8
  decide

theorem witness_StepKeepsEngineSound :
    EngineInv (accumulating [0x11, 0x03]) ∧ ∃ t, step (accumulating [0x11, 0x03]) = .next t :=
  ⟨engineInv_accumulating, _, rfl⟩

theorem witness_EveryMoveCompletes : EngineInv (accumulating [0x11, 0x03]) := engineInv_accumulating

theorem witness_StepKeepsDirectionDiscipline : LineInv sending ∧ ∃ t, step sending = .next t :=
  ⟨⟨by decide, by decide, by decide, by decide, by decide, by decide, by decide⟩, _, rfl⟩

theorem witness_InputChangesOnlyByHost : (∃ t, pollStep block = .next t) ∧
    ∃ t, step { block with agenda := [.callWrite .input 0 0x55AA] } = .next t ∧ t.input ≠ block.input :=
  ⟨⟨_, rfl⟩, _, rfl, by decide +kernel⟩

theorem witness_DeclarationsAreNeverLost : (∃ t, step withCallbacks = .next t) ∧
    withCallbacks.declared .holding 9 = true ∧ (⟨.holding, 0, 10⟩ : RegRange) ∈ withCallbacks.ranges ∧
    (withCallbacks.callback .holding .read 5).isSome = true := ⟨⟨_, rfl⟩, rfl, by decide, rfl⟩

theorem witness_ConfigurationIsFixedAfterSetup : block.setupDone = true ∧ ∃ t, step block = .next t := ⟨rfl, _, rfl⟩

/-- One state for each clause: the move is the next one, and both sides of every condition occur. -/
theorem witness_EveryMoveDoesItsOperation :
    (∀ m ∈ [Move.callStep, .callSetup 1 true, .callDeclareRange .input 65535 1 0, .callBindCallback .input 65535 .read 1 0,
        .callRead .holding 9, .callRead .input 1, .callWrite .holding 9 5, .callWrite .input 1 5, .lineByte 0, .lineError,
        .lineSilence, .wireByte],
      ({ block with agenda := [m] } : State).agenda = m :: []) ∧
    block.declared .holding (9 : Word).toNat = true ∧ block.declared .input (1 : Word).toNat = false ∧
    ({ block with gapArmed := true } : State).gapArmed = true ∧ block.gapArmed = false ∧ block.tx = [] ∧
    sending.tx = 0xEC :: [0xB5] ∧ ∃ t, pollStep block = .next t :=
  ⟨by decide, by decide, by decide, rfl, rfl, rfl, rfl, _, rfl⟩

/-- 95_test_vectors.md 2.8 as moves of the host: each leaves its result. -/
theorem test_move_results : (step { block with agenda := [.callDeclareRange .holding 5 10 0] } =
      .next { block with results := [.alreadyExists] }) ∧
    (step { block with agenda := [.callRead .holding 1] } = .next { block with results := [.value 0x0102] }) ∧
    (step { block with agenda := [.callWrite .input 1 5] } = .next { block with results := [.outOfRange] }) :=
  ⟨rfl, rfl, rfl⟩

end Sys2Proof.Tests
end

/-! The running form of the CRC and its residue (40_crc.md R125). -/

namespace Sys2Proof

/-- A byte as it enters the register: in the low half (40_crc.md R120). -/
theorem setWidth_eq_zero_append (b : Byte) : b.setWidth 16 = (0 : Byte) ++ b :=
  BitVec.setWidth_eq_append (by decide)

/-- A register's low byte cancels its low half. -/
theorem xor_lo8 (c : Word) : c ^^^ (lo8 c).setWidth 16 = hi8 c ++ (0 : Byte) := by
  conv_lhs => rw [← be16_hi8_lo8 c, lo8_be16]
  rw [be16, setWidth_eq_zero_append, BitVec.xor_append]
  simp

/-- With the low half cancelled the polynomial never enters: the high half only moves down (40_crc.md R125). -/
theorem crcByte_lo8 (c : Word) : crcByte c (lo8 c) = (hi8 c).setWidth 16 := by
  rw [crcByte, xor_lo8, crcShifts_high, setWidth_eq_zero_append]

/-- A byte equal to the register clears it. -/
theorem crcByte_setWidth_self (b : Byte) : crcByte (b.setWidth 16) b = 0 := by
  rw [crcByte, BitVec.xor_self]
  exact crcShifts_zero

/-- A register's own two bytes, low byte first, clear it (40_crc.md R125). -/
theorem crcRun_crcBytes (c : Word) : crcRun c (crcBytes c) = 0 := by
  show crcByte (crcByte c (lo8 c)) (hi8 c) = 0
  rw [crcByte_lo8, crcByte_setWidth_self]

/-- Two bytes clear only the register they spell: feeding them is injective. -/
theorem crcRun_pair_eq_zero_iff (c : Word) (lo hi : Byte) : crcRun c [lo, hi] = 0 ↔ c = be16 hi lo := by
  have residue : crcRun (be16 hi lo) [lo, hi] = 0 := by
    simpa [crcBytes] using crcRun_crcBytes (be16 hi lo)
  exact ⟨fun h => crcRun_injective [lo, hi] (h.trans residue.symm), fun h => h ▸ residue⟩

/-- A frame that holds a CRC is a body and two bytes (30_encoding.md R94). -/
theorem exists_append_pair (f : List Byte) (h : 2 ≤ f.length) : ∃ body lo hi, f = body ++ [lo, hi] := by
  obtain ⟨lo, hi, hd⟩ : ∃ lo hi, f.drop (f.length - 2) = [lo, hi] :=
    List.length_eq_two.mp (by rw [List.length_drop]; omega)
  exact ⟨f.take (f.length - 2), lo, hi, by rw [← hd, List.take_append_drop]⟩

/-- The check of R124 taken over the whole frame (40_crc.md R125). -/
theorem crcOk_iff_crc16_eq_zero (f : List Byte) (h : 2 ≤ f.length) : crcOk f = true ↔ crc16 f = 0 := by
  obtain ⟨body, lo, hi, rfl⟩ := exists_append_pair f h
  calc crcOk (body ++ [lo, hi]) = true
      ↔ crc16 body = be16 hi lo := by rw [crcOk_append, beq_iff_eq]
    _ ↔ crcRun (crc16 body) [lo, hi] = 0 := (crcRun_pair_eq_zero_iff _ lo hi).symm
    _ ↔ crc16 (body ++ [lo, hi]) = 0 := by rw [crc16, crc16, crcRun_append]

/-- Settles O8: the fold splits at an append; a register's own bytes cancel it half by half; and since the run over a frame's
last two bytes is injective, only the body's CRC there leaves 0. -/
theorem crcRunningFormAndResidue : Obligations.CrcRunningFormAndResidue :=
  ⟨crcRun_append 0xFFFF, crcRun_crcBytes, fun f h => crcOk_iff_crc16_eq_zero f (by omega)⟩

end Sys2Proof

/-! The expected length of a frame by its function code (41_frame_parser.md R143). -/

namespace Sys2Proof.Machine

/-- Before its function code is in, a frame says nothing of its length. -/
theorem expectedLen_of_length_lt_two : ∀ {f : List Byte}, f.length < 2 → expectedLen f = .need
  | [], _ | [_], _ => rfl
  | _ :: _ :: _, h => by simp at h

theorem expectedLen_of_fixed_function (a : Byte) {fc : Byte} (rest : List Byte)
    (h : fc = 0x03 ∨ fc = 0x04 ∨ fc = 0x06) : expectedLen (a :: fc :: rest) = .fixed 8 :=
  if_pos h

/-- Function 0x10 before its byte count is in. -/
theorem expectedLen_write_of_length_lt_five (a : Byte) :
    ∀ {rest : List Byte}, rest.length < 5 → expectedLen (a :: 0x10 :: rest) = .need
  | [], _ | [_], _ | [_, _], _ | [_, _, _], _ | [_, _, _, _], _ => rfl
  | _ :: _ :: _ :: _ :: _ :: _, h => by simp at h; omega

/-- Function 0x10 with its byte count: nine bytes around the data, where they fit `BUF_CAP`. -/
theorem expectedLen_write (a w x y z bc : Byte) (rest : List Byte) :
    expectedLen (a :: 0x10 :: w :: x :: y :: z :: bc :: rest) =
      if 248 ≤ bc.toNat then .tooLong else .fixed (9 + bc.toNat) := by
  have hcap : Config.bufCap < 9 + bc.toNat ↔ 248 ≤ bc.toNat := by
    rw [Config.bufCap]; omega
  calc expectedLen (a :: 0x10 :: w :: x :: y :: z :: bc :: rest)
      = if Config.bufCap < 9 + bc.toNat then .tooLong else .fixed (9 + bc.toNat) := rfl
    _ = if 248 ≤ bc.toNat then .tooLong else .fixed (9 + bc.toNat) := if_congr hcap rfl rfl

theorem expectedLen_of_unsupported (a : Byte) {fc : Byte} (rest : List Byte) (h : supportedFunction fc = false) :
    expectedLen (a :: fc :: rest) = .openEnded := by
  obtain ⟨⟨⟨h3, h4⟩, h6⟩, h10⟩ : ((fc ≠ 0x03 ∧ fc ≠ 0x04) ∧ fc ≠ 0x06) ∧ fc ≠ 0x10 := by
    simpa only [supportedFunction, Bool.or_eq_false_iff, beq_eq_false_iff_ne] using h
  have hfix : ¬(fc = 0x03 ∨ fc = 0x04 ∨ fc = 0x06) := by simp only [h3, h4, h6, or_self, not_false_eq_true]
  exact (if_neg hfix).trans (if_neg h10)

/-- Settles O33: one equation of `expectedLen` per function code, the byte count of function 0x10 compared with `BUF_CAP` less the
nine bytes around the data; the completing byte is appended before the frame is validated. -/
theorem expectedLengthByFunctionCode : Obligations.ExpectedLengthByFunctionCode :=
  ⟨fun _ => expectedLen_of_length_lt_two,
   fun a _ rest => expectedLen_of_fixed_function a rest,
   fun a _ => expectedLen_write_of_length_lt_five a,
   expectedLen_write,
   fun a _ rest => expectedLen_of_unsupported a rest,
   fun s b _ ha hl he hn =>
    ⟨appendByte b s, feed_byte_complete ha hl he hn, frame_appendByte b s hl, hn, ha, sameButFrame_appendByte b s⟩⟩

/-! A gap and a receive error (41_frame_parser.md R145, R149). -/

theorem feed_gap_idle {s : State} (h : s.feState = .idle) : feed .gap s = .next s := by
  rw [feed_idle h, feedIdle]

/-- In either state in which an item can be fed, an error empties the buffer. -/
theorem feed_err {s : State} (h : s.feState = .idle ∨ s.feState = .accumulating) :
    feed .err s = .next (clearFrame s) := by
  rcases h with hi | ha
  · rw [feed_idle hi, feedIdle]
  · rw [feed_accumulating ha, feedAccumulating]

/-- An idle engine with an empty buffer has nothing to clear. -/
theorem clearFrame_of_idle_empty {s : State} (hi : s.feState = .idle) (hl : s.len = 0) : clearFrame s = s := by
  rw [clearFrame, ← hi, ← hl]

/-- Settles O35: an error clears the frame in both states, and clearing an empty `Idle` engine is the identity. -/
theorem idleGapAndErrorDiscard : Obligations.IdleGapAndErrorDiscard :=
  fun _ => ⟨feed_gap_idle, feed_err, fun hi hl => by rw [feed_err (.inl hi), clearFrame_of_idle_empty hi hl]⟩

end Sys2Proof.Machine

/-! Dispatch: the span check and the function codes the block does not support (42_dispatch.md R173, R178). -/

namespace Sys2Proof.Machine

/-- Settles O16: the span check at the natural values of the two 16-bit fields, where their sum cannot wrap. -/
theorem spanCheckHasNoWrap : Obligations.SpanCheckHasNoWrap :=
  fun sp start qty s => spanOk_iff sp start.toNat qty.toNat s

/-- Settles O23: `exec` answers such a code with `raiseException`, and `raiseException_spec` says what that leaves, unicast and
broadcast. -/
theorem unsupportedFunctionRaisesIllegalFunction : Obligations.UnsupportedFunctionRaisesIllegalFunction :=
  fun s addr fc payload => ⟨_, exec_unsupportedFunction addr fc payload s, raiseException_spec addr fc 0x01 s⟩

end Sys2Proof.Machine

/-! The serializer: the lengths of the responses and the echo of a single write (43_serializer.md R203, R206). -/

namespace Sys2Proof.Machine

/-- Address, function code, byte count and CRC around the values (43_serializer.md R201, R206). -/
theorem sealFrame_readBody_length (addr fc : Byte) (vs : List Word) :
    (sealFrame (readBody addr fc vs)).length = 5 + 2 * vs.length := by
  rw [sealFrame_length, readBody_length]
  omega

theorem sealFrame_twoFieldBody_length (addr fc : Byte) (x y : Word) :
    (sealFrame (twoFieldBody addr fc x y)).length = 8 := by
  rw [sealFrame_length, twoFieldBody_length]

theorem sealFrame_exceptionBody_length (addr fc code : Byte) :
    (sealFrame (exceptionBody addr fc code)).length = 5 := by
  rw [sealFrame_length, exceptionBody_length]

/-- With a quantity that a read may ask for, a read response fits the Frame Buffer (43_serializer.md R206). -/
theorem sealFrame_readBody_bounds (addr fc : Byte) {vs : List Word} (h : legalReadCount vs.length = true) :
    5 ≤ (sealFrame (readBody addr fc vs)).length ∧ (sealFrame (readBody addr fc vs)).length ≤ 255 := by
  obtain ⟨-, hmax⟩ := (legalReadCount_iff _).mp h
  rw [sealFrame_readBody_length]
  omega

/-- Only the read responses vary in length; their quantity bounds it (43_serializer.md R206). -/
theorem encode_response_bounds {i : Instr} (hk : i.isRequest = false) (hw : i.wellFormed = true) :
    5 ≤ (encode i).length ∧ (encode i).length ≤ 255 := by
  cases i with
  | readHoldingRegisters | readInputRegisters | writeSingleHoldingRegister | writeMultipleHoldingRegisters
  | unsupportedFunction => cases hk
  | readHoldingRegistersResponse addr vs | readInputRegistersResponse addr vs =>
    exact sealFrame_readBody_bounds addr _ (Bool.and_eq_true_iff.mp hw).2
  | writeSingleHoldingRegisterResponse addr x y | writeMultipleHoldingRegistersResponse addr x y =>
    rw [encode, bodyOf, sealFrame_twoFieldBody_length]
    decide
  | exceptionResponse addr fc code =>
    rw [encode, bodyOf, sealFrame_exceptionBody_length]
    decide

/-- Settles O29: the length of each of the three bodies, sealed; of a well-formed response only the values of a read vary, and
there are at most 125 of them. -/
theorem responseLengths : Obligations.ResponseLengths :=
  ⟨fun a => sealFrame_readBody_length a 0x03,
   fun a => sealFrame_readBody_length a 0x04,
   fun a => sealFrame_twoFieldBody_length a 0x06,
   fun a => sealFrame_twoFieldBody_length a 0x10,
   sealFrame_exceptionBody_length,
   fun _ => encode_response_bounds⟩

/-- A declared 16-bit address is a span of one: it cannot reach past the end of the space (42_dispatch.md R174). -/
theorem spanOk_one {sp : Space} {reg : Word} {s : State} (h : s.declared sp reg.toNat = true) :
    spanOk sp reg.toNat 1 s = true := by
  refine (spanOk_iff _ _ _ _).mpr ⟨reg.isLt, fun i hi => ?_⟩
  rwa [Nat.lt_one_iff.mp hi, Nat.add_zero]

/-- A unicast write to a declared span leaves its two fields, sealed, from the block's address (43_serializer.md R203, R204). -/
theorem writeRequest_frame {addr : Byte} (ha : addr ≠ 0) (fc : Byte) (start y : Word) {values : List Word} {s : State}
    (hs : spanOk .holding start.toNat values.length s = true) :
    (writeRequest fc addr start y values s).frame = sealFrame (twoFieldBody s.slaveAddr fc start y) := by
  rcases writeRequest_spec fc addr start y values s with ⟨hno, -⟩ | ⟨-, t, -, -, hw⟩
  · exact absurd hs (by rw [hno]; exact Bool.false_ne_true)
  · rw [hw, respond_unicast ha, frame_sendBody _ _ (by rw [twoFieldBody_length]; decide)]

/-- Settles O30: the answer's body carries the block's address and the two fields as received, which is the request's own body;
sealing it gives the request's own CRC. -/
theorem writeSingleResponseEqualsRequest : Obligations.WriteSingleResponseEqualsRequest :=
  fun s reg value ha hd =>
    ⟨_, exec_writeSingleHoldingRegister s.slaveAddr reg value s, writeRequest_frame ha 0x06 reg value (spanOk_one hd)⟩

end Sys2Proof.Machine

/-! The Register Store: `read` and `write` of one register (44_register_store.md R222, R223). -/

namespace Sys2Proof.Machine

theorem declared_eq_false_iff {sp : Space} {a : Nat} {s : State} : s.declared sp a = false ↔ s.reg sp a = none := by
  rw [State.declared, Option.isSome_eq_false_iff, Option.isNone_iff_eq_none]

theorem declared_eq_true_iff {sp : Space} {a : Nat} {s : State} :
    s.declared sp a = true ↔ ∃ w, s.reg sp a = some w := by
  rw [State.declared, Option.isSome_iff_exists]

theorem throughCallback_unbound {sp : Space} {acc : Access} {a : Nat} {s : State} (hc : s.callback sp acc a = none)
    (v : Word) : throughCallback sp acc a v s = (v, s) := by
  rw [throughCallback, hc]

theorem throughCallback_bound {sp : Space} {acc : Access} {a h : Nat} {s : State} (hc : s.callback sp acc a = some h)
    (v : Word) : throughCallback sp acc a v s = (callbackResult h a v s, noteCall ⟨sp, acc, h, a, v⟩ s) := by
  rw [throughCallback, hc]

theorem readReg_undeclared {sp : Space} {a : Nat} {s : State} (hd : s.declared sp a = false) :
    readReg sp a s = (none, s) := by
  rw [readReg, declared_eq_false_iff.mp hd]

theorem readReg_stored {sp : Space} {a : Nat} {v x : Word} {s t : State} (hv : s.reg sp a = some v)
    (hx : throughCallback sp .read a v s = (x, t)) : readReg sp a s = (some x, t) := by
  simp only [readReg, hv, hx]

theorem writeReg_undeclared {sp : Space} {a : Nat} {s : State} (hd : s.declared sp a = false) (v : Word) :
    writeReg sp a v s = (false, s) := by
  rw [writeReg, declared_eq_false_iff.mp hd]

theorem writeReg_of_declared {sp : Space} {a : Nat} {v x : Word} {s t : State} (hd : s.declared sp a = true)
    (hx : throughCallback sp .write a v s = (x, t)) :
    writeReg sp a v s = (true, t.setBank sp ((t.bank sp).set a x)) := by
  obtain ⟨w, hw⟩ := declared_eq_true_iff.mp hd
  rw [writeReg, hw, hx]

theorem writeReg_success {sp : Space} {a : Nat} {s : State} (hd : s.declared sp a = true) (v : Word) :
    writeReg sp a v s = (true, (writeReg sp a v s).2) := by
  rw [writeReg_of_declared hd (Prod.eta _).symm]

/-- One value in every register of a run, all other registers of both banks as before. -/
theorem stored_replicate {sp : Space} {a n : Nat} {x : Word} {s t : State}
    (h : ∀ sp' b, t.reg sp' b = if sp' = sp ∧ a ≤ b ∧ b < a + n then some x else s.reg sp' b) :
    Stored sp a (List.replicate n x) s t := by
  refine ⟨fun i hi => ?_, fun b hb => ?_, fun sp' b hne => ?_⟩
  · rw [List.length_replicate] at hi
    rw [h, if_pos ⟨rfl, by omega⟩, List.getElem_replicate]
  · rw [List.length_replicate] at hb
    rw [h, if_neg fun ⟨_, _⟩ => by omega]
  · rw [h, if_neg fun ⟨he, _⟩ => hne he]

/-- A write to a declared register stores what the callback path gives, there and nowhere else, and leaves the calls of that
path (44_register_store.md R223). -/
theorem writeReg_stored {sp : Space} {a : Nat} {v x : Word} {s t : State} (hd : s.declared sp a = true)
    (hx : throughCallback sp .write a v s = (x, t)) :
    Stored sp a [x] s (writeReg sp a v s).2 ∧ (writeReg sp a v s).2.calls = t.calls := by
  constructor
  · refine stored_replicate (n := 1) fun sp' b => ?_
    have hrun : (a ≤ b ∧ b < a + 1) ↔ b = a := by omega
    rw [writeReg_reg, ← State.declared, hd, hx]
    simp only [hrun, and_true]
  · rw [writeReg_of_declared hd hx, setBank_calls]

/-- Settles O11: `read` goes through the bound callback, if any, and a callback's bookkeeping touches no register. -/
theorem readRegisterContract : Obligations.ReadRegisterContract :=
  fun sp a s =>
    ⟨readReg_undeclared,
     fun v hv hc => readReg_stored hv (throughCallback_unbound hc v),
     fun v _ hv hc => readReg_stored hv (throughCallback_bound hc v),
     (readReg_same sp a s).reg⟩

/-- Settles O12: `write` stores what the callback path gives, the incoming value or the callback's answer to it. -/
theorem writeRegisterContract : Obligations.WriteRegisterContract :=
  fun sp a v s =>
    ⟨fun hd => writeReg_undeclared hd v,
     fun hd => ⟨(writeReg sp a v s).2, writeReg_success hd v,
       fun hc => writeReg_stored hd (throughCallback_unbound hc v),
       fun _ hc => writeReg_stored hd (throughCallback_bound hc v),
       writeReg_same sp a v s⟩⟩

end Sys2Proof.Machine

/-! The Register Store: `declare_range` (44_register_store.md R220). -/

namespace Sys2Proof.Machine

section

variable {sp : Space} {start count : Word} {s : State}

/-! One equation for each path, in the order of R220. -/

theorem declareRange_past_end (h : 65536 < start.toNat + count.toNat) (initial : Word) :
    declareRange sp start count initial s = (.invalidRange, s) :=
  if_pos h

theorem declareRange_empty (hin : start.toNat + count.toNat ≤ 65536) (h0 : count = 0) (initial : Word) :
    declareRange sp start count initial s = (.success, s) :=
  (if_neg hin.not_gt).trans (if_pos h0)

theorem declareRange_again (hin : start.toNat + count.toNat ≤ 65536)
    (hmem : (⟨sp, start, count⟩ : RegRange) ∈ s.ranges) (initial : Word) :
    declareRange sp start count initial s = (.success, s) := by
  rw [declareRange, if_neg hin.not_gt, if_pos hmem, ite_self]

theorem declareRange_overlapping (hin : start.toNat + count.toNat ≤ 65536) (h0 : count ≠ 0)
    (hmem : (⟨sp, start, count⟩ : RegRange) ∉ s.ranges) (hov : ∃ r ∈ s.ranges, r.overlaps sp start count = true)
    (initial : Word) : declareRange sp start count initial s = (.alreadyExists, s) := by
  rw [declareRange, if_neg hin.not_gt, if_neg h0, if_neg hmem, if_pos (List.any_eq_true.mpr hov)]

theorem declareRange_new (hin : start.toNat + count.toNat ≤ 65536) (h0 : count ≠ 0)
    (hmem : (⟨sp, start, count⟩ : RegRange) ∉ s.ranges) (hov : ∀ r ∈ s.ranges, r.overlaps sp start count = false)
    (initial : Word) : declareRange sp start count initial s =
      (.success, { s.setBank sp (allocate initial start.toNat count.toNat (s.bank sp)) with
        ranges := s.ranges ++ [⟨sp, start, count⟩] }) := by
  have hany : ¬ s.ranges.any (fun r => r.overlaps sp start count) = true := fun hany => by
    obtain ⟨r, hr, ho⟩ := List.any_eq_true.mp hany
    exact Bool.false_ne_true ((hov r hr).symm.trans ho)
  rw [declareRange, if_neg hin.not_gt, if_neg h0, if_neg hmem, if_neg hany]
  simp only [setBank_ranges]

theorem RegRange.overlaps_eq_true_iff {r : RegRange} : r.overlaps sp start count = true ↔
    r.space = sp ∧ r.start.toNat < start.toNat + count.toNat ∧ start.toNat < r.start.toNat + r.count.toNat := by
  simp only [RegRange.overlaps, Bool.and_eq_true, beq_iff_eq, decide_eq_true_eq, and_assoc]

/-- Ranges that share an address overlap. -/
theorem RegRange.overlaps_of_covers {r : RegRange} {a : Nat} (hr : r.covers sp a) (hlo : start.toNat ≤ a)
    (hhi : a < start.toNat + count.toNat) : r.overlaps sp start count = true := by
  obtain ⟨hsp, hra, har⟩ := hr
  exact overlaps_eq_true_iff.mpr ⟨hsp, by omega, by omega⟩

/-- Ranges of one bank of which one ends where the other begins, or before, do not overlap. -/
theorem RegRange.overlaps_eq_false_of_apart {r : RegRange}
    (h : r.space = sp → start.toNat + count.toNat ≤ r.start.toNat ∨ r.start.toNat + r.count.toNat ≤ start.toNat) :
    r.overlaps sp start count = false := by
  refine Bool.eq_false_iff.mpr fun hov => ?_
  obtain ⟨hsp, hlo, hhi⟩ := overlaps_eq_true_iff.mp hov
  have hapart := h hsp
  omega

/-- A range of at least one address overlaps itself. -/
theorem RegRange.overlaps_self (h0 : count ≠ 0) : (⟨sp, start, count⟩ : RegRange).overlaps sp start count = true := by
  have hpos : 0 < count.toNat := Nat.pos_of_ne_zero fun h => h0 (BitVec.eq_of_toNat_eq h)
  exact overlaps_eq_true_iff.mpr ⟨rfl, Nat.lt_add_of_pos_right hpos, Nat.lt_add_of_pos_right hpos⟩

end

/-- Allocating a run of registers fills exactly that run (44_register_store.md R220). -/
theorem stored_setBank_allocate (sp : Space) (a n : Nat) (initial : Word) (s : State) :
    Stored sp a (List.replicate n initial) s (s.setBank sp (allocate initial a n (s.bank sp))) := by
  refine stored_replicate fun sp' b => ?_
  rw [reg_setBank, allocate_get]
  by_cases h : sp' = sp
  · subst h
    simp only [true_and, if_true, State.reg]
  · rw [if_neg h, if_neg fun hrun => h hrun.1]

/-- Settles O14: one equation of `declareRange` per path. A range that overlaps none is not in the list, since it would overlap
itself there. -/
theorem declareRangeContract : Obligations.DeclareRangeContract := by
  intro sp start count initial s
  refine ⟨fun hout => declareRange_past_end hout initial,
    fun hin h0 => declareRange_empty hin h0 initial,
    fun hin hmem => declareRange_again hin hmem initial,
    fun hin h0 hmem ⟨r, hr, a, hcov, hlo, hhi⟩ =>
      declareRange_overlapping hin h0 hmem ⟨r, hr, RegRange.overlaps_of_covers hcov hlo hhi⟩ initial,
    fun hin h0 hapart => ?_⟩
  have hov : ∀ r ∈ s.ranges, r.overlaps sp start count = false := fun r hr =>
    RegRange.overlaps_eq_false_of_apart (hapart r hr)
  have hmem : (⟨sp, start, count⟩ : RegRange) ∉ s.ranges := fun hmem =>
    Bool.false_ne_true ((hov _ hmem).symm.trans (RegRange.overlaps_self h0))
  refine ⟨_, declareRange_new hin h0 hmem hov initial, ?_, rfl, ?_⟩
  · exact stored_setBank_allocate sp start.toNat count.toNat initial s
  · cases sp <;> rfl

end Sys2Proof.Machine

/-! The Register Store: `bind_callback` (44_register_store.md R224). -/

namespace Sys2Proof.Machine

/-- Whether some address of the run has a callback of that direction (44_register_store.md R224). -/
def anyBound (s : State) (sp : Space) (acc : Access) (start n : Nat) : Bool :=
  (List.range n).any fun i => (s.callback sp acc (start + i)).isSome

theorem anyBound_iff {s : State} {sp : Space} {acc : Access} {start n : Nat} : anyBound s sp acc start n = true ↔
    ∃ a h, start ≤ a ∧ a < start + n ∧ s.callback sp acc a = some h := by
  simp only [anyBound, List.any_eq_true, List.mem_range, Option.isSome_iff_exists]
  constructor
  · rintro ⟨i, hi, h, hc⟩
    exact ⟨start + i, h, by omega, by omega, hc⟩
  · rintro ⟨a, h, hlo, hhi, hc⟩
    exact ⟨a - start, by omega, h, by rwa [Nat.add_sub_cancel' hlo]⟩

theorem bindCallback_past_end {address count : Word} (h : 65536 < address.toNat + count.toNat) (sp : Space)
    (acc : Access) (handle : Nat) (s : State) :
    bindCallback sp address acc count handle s = (.invalidRange, s) :=
  if_pos h

theorem bindCallback_inside {address count : Word} (hin : address.toNat + count.toNat ≤ 65536) (sp : Space)
    (acc : Access) (handle : Nat) (s : State) :
    bindCallback sp address acc count handle s =
      (if anyBound s sp acc address.toNat count.toNat then .replaced else .bound,
        s.setCallbacks sp acc (bindAll handle address.toNat count.toNat (s.callbacks sp acc))) :=
  if_neg hin.not_gt

theorem callback_setCallbacks (s : State) (sp sp' : Space) (acc acc' : Access) (m : Cells Nat) (a : Nat) :
    (s.setCallbacks sp acc m).callback sp' acc' a =
      if sp' = sp ∧ acc' = acc then Cells.get m a else s.callback sp' acc' a := by
  by_cases h : sp' = sp ∧ acc' = acc
  · obtain ⟨rfl, rfl⟩ := h
    rw [if_pos ⟨rfl, rfl⟩, State.callback, callbacks_setCallbacks]
  · rw [if_neg h, State.callback, callbacks_setCallbacks_other s m fun he => h (Prod.mk.inj he), State.callback]

/-- Binding a run reaches exactly its addresses, in one bank and one direction (44_register_store.md R224). -/
theorem callback_bindAll (s : State) (sp sp' : Space) (acc acc' : Access) (handle start n a : Nat) :
    (s.setCallbacks sp acc (bindAll handle start n (s.callbacks sp acc))).callback sp' acc' a =
      if sp' = sp ∧ acc' = acc ∧ start ≤ a ∧ a < start + n then some handle else s.callback sp' acc' a := by
  rw [callback_setCallbacks, bindAll_get]
  by_cases h : sp' = sp ∧ acc' = acc
  · obtain ⟨rfl, rfl⟩ := h
    simp only [true_and, and_self, if_true, State.callback]
  · rw [if_neg h, if_neg fun ⟨hsp, hacc, _⟩ => h ⟨hsp, hacc⟩]

/-- Settles O15: inside the address space the result is `anyBound` of the run before it, and the run is bound over whatever was
there. -/
theorem bindCallbackContract : Obligations.BindCallbackContract := by
  intro sp address acc count handle s
  refine ⟨fun hout => bindCallback_past_end hout sp acc handle s, fun hin => ?_⟩
  refine ⟨_, _, bindCallback_inside hin sp acc handle s, ?_, ?_, ?_, ?_⟩
  · exact ite_eq_or_eq _ _ _
  · rw [← anyBound_iff, ite_eq_left_iff]
    simp
  · exact fun sp' acc' a => callback_bindAll s sp sp' acc acc' handle address.toNat count.toNat a
  · rw [callbacks_setCallbacks]

end Sys2Proof.Machine

/-! `setup` and the Polling Driver's phase 1 (45_direction_and_polling.md R258, R263). -/

namespace Sys2Proof.Machine

/-! ## `setup` -/

/-- `set_level` reaches the output and the trace, and only where a pin is bound (45_direction_and_polling.md R255, R270). -/
theorem drivePin_eq (l : Bool) (s : State) :
    drivePin l s = { s with
      dirOut := if s.hasDirPin then l else s.dirOut
      trace := if s.hasDirPin then s.trace ++ [.dir l] else s.trace } := by
  by_cases hp : s.hasDirPin = true
  · simp only [drivePin, if_pos hp]
    rfl
  · simp only [drivePin, if_neg hp]

theorem configure_eq (addr : Byte) (pin : Bool) (s : State) :
    configure addr pin s =
      { s with slaveAddr := addr, hasDirPin := pin, feState := .idle, len := 0, txPending := false,
               dirState := .receiving, setupDone := true,
               dirOut := if pin then !s.params.txLevel else s.dirOut,
               trace := if pin then s.trace ++ [.dir (!s.params.txLevel)] else s.trace } := by
  rw [configure, drivePin_eq]
  rfl

theorem setup_again {s : State} (h : s.setupDone = true) (addr : Byte) (pin : Bool) :
    setup addr pin s = (.configError, s) :=
  if_pos h

theorem setup_first {s : State} (h : s.setupDone = false) (addr : Byte) (pin : Bool) :
    setup addr pin s = if legalSlaveAddr addr then (.done, configure addr pin s) else (.configError, s) := by
  rw [setup, if_neg (Bool.eq_false_iff.mp h)]
  cases legalSlaveAddr addr <;> rfl

theorem setup_illegal {addr : Byte} (h : ¬ legalSlaveAddr addr = true) (pin : Bool) (s : State) :
    setup addr pin s = (.configError, s) := by
  cases hs : s.setupDone with
  | true => exact setup_again hs addr pin
  | false => rw [setup_first hs, if_neg h]

/-- Settles O41: one equation of `setup` per path; `configure_eq` says what the accepted one leaves. -/
theorem setupConfiguresOnce : Obligations.SetupConfiguresOnce := by
  intro s addr pin
  refine ⟨fun hs => setup_again hs addr pin, fun haddr => ?_, fun hs hlo hhi => ?_⟩
  · have hbad : ¬ legalSlaveAddr addr = true := by
      rw [legalSlaveAddr_iff]
      omega
    exact setup_illegal hbad pin s
  · rw [setup_first hs, if_pos ((legalSlaveAddr_iff addr).mpr ⟨hlo, hhi⟩), configure_eq]

/-! ## Phase 1 -/

theorem flushComplete_iff {s : State} : s.flushComplete = true ↔ s.tx = [] :=
  List.isEmpty_iff

theorem releasePhase_of_not_pending {s : State} (h : s.txPending = false) : releasePhase s = assertReceive s := by
  simp [releasePhase, h]

theorem releasePhase_of_flushed {s : State} (hp : s.txPending = true) (hf : s.flushComplete = true) :
    releasePhase s = assertReceive { s with txPending := false } := by
  simp [releasePhase, hp, hf]

theorem releasePhase_of_unflushed {s : State} (hp : s.txPending = true) (hf : ¬ s.flushComplete = true) :
    releasePhase s = s := by
  simp [releasePhase, hp, hf]

/-- Settles O44: one equation of `releasePhase` per path; the flush is complete exactly when the TX stream is empty. -/
theorem releasePhaseWaitsForFlush : Obligations.ReleasePhaseWaitsForFlush := by
  intro s
  exact ⟨fun hp htx => releasePhase_of_unflushed hp (mt flushComplete_iff.mp htx),
    fun hp htx => releasePhase_of_flushed hp (flushComplete_iff.mpr htx),
    releasePhase_of_not_pending⟩

end Sys2Proof.Machine

/-! What can change the Input bank (60_exceptions.md R305). -/

namespace Sys2Proof.Machine

/-! ## `step()` -/

theorem LineStep.bank_input {s t : State} (h : LineStep s t) : t.input = s.input := by
  rw [h]

/-- Neither the two transmit-side phases nor the drain between them writes to Input (60_exceptions.md R305). -/
theorem pollStep_input {s t : State} (h : pollStep s = .next t) : t.input = s.input := by
  rcases pollStep_cases h with ⟨-, rfl⟩ | ⟨-, u, v, -, -, -, hrelease, hdrain, htransmit⟩
  · rfl
  · calc t.input
        = v.input := htransmit.bank_input
      _ = u.input := hdrain.bank_input
      _ = s.input := hrelease.bank_input

/-! ## The host's calls -/

theorem setup_input (addr : Byte) (pin : Bool) (s : State) : (setup addr pin s).2.input = s.input := by
  unfold setup
  split
  · rfl
  · split
    · rfl
    · rw [configure_eq]

/-- `declare_range` in one bank leaves the other (44_register_store.md R220). -/
theorem declareRange_bank_other {sp sp' : Space} (hsp : sp' ≠ sp) (start count initial : Word) (s : State) :
    (declareRange sp start count initial s).2.bank sp' = s.bank sp' := by
  have hbank := bank_setBank_other s (allocate initial start.toNat count.toNat (s.bank sp)) hsp
  rcases declareRange_spec sp start count initial s with ⟨hr, -⟩ | ⟨hr, -⟩ | ⟨hr, -⟩ | ⟨-, -, -, -, hr⟩ <;> rw [hr]
  rw [← hbank]
  cases sp' <;> rfl

theorem bindCallback_input (sp : Space) (a : Word) (acc : Access) (count : Word) (handle : Nat) (s : State) :
    (bindCallback sp a acc count handle s).2.input = s.input := by
  unfold bindCallback
  split
  · rfl
  · exact setCallbacks_input ..

theorem hostRead_state (sp : Space) (a : Word) (s : State) : (hostRead sp a s).2 = (readReg sp a.toNat s).2 := by
  unfold hostRead
  split <;> simp only [*]

theorem hostWrite_state (sp : Space) (a v : Word) (s : State) : (hostWrite sp a v s).2 = (writeReg sp a.toNat v s).2 := by
  unfold hostWrite
  split <;> simp only [*]

/-- `write` to one bank leaves the other (44_register_store.md R223). -/
theorem writeReg_bank_other {sp sp' : Space} (hsp : sp' ≠ sp) (a : Nat) (v : Word) (s : State) :
    (writeReg sp a v s).2.bank sp' = s.bank sp' := by
  rw [(writeReg_same sp a v s).bank, bank_setBank_other _ _ hsp]

/-! ## Every move -/

/-- The two moves that may change an Input register (60_exceptions.md R305). -/
def Move.mayChangeInput (m : Move) : Prop :=
  (∃ a v, m = .callWrite .input a v) ∨ ∃ start count initial, m = .callDeclareRange .input start count initial

theorem hostCall_input {r : HostResult × State} {t : State} (h : hostCall r = .next t) : t.input = r.2.input := by
  cases h
  rfl

theorem receiveSilence_input (s : State) : (receiveSilence s).input = s.input := by
  unfold receiveSilence
  split <;> rfl

theorem wireOne_input (s : State) : (wireOne s).input = s.input :=
  (lineStep_wireMany 1 s).bank_input

/-- Every other move leaves the Input bank as it is. -/
theorem perform_input {m : Move} {s t : State} (h : perform m s = .next t) (hm : ¬ m.mayChangeInput) :
    t.input = s.input := by
  cases m with
  | callStep => exact pollStep_input h
  | callSetup addr pin => exact (hostCall_input h).trans (setup_input addr pin s)
  | callDeclareRange sp start count initial =>
    have hsp : .input ≠ sp := fun he => hm (.inr ⟨start, count, initial, by rw [he]⟩)
    exact (hostCall_input h).trans (declareRange_bank_other hsp start count initial s)
  | callRead sp a =>
    rw [hostCall_input h, hostRead_state]
    exact (readReg_same sp a.toNat s).bank .input
  | callWrite sp a v =>
    have hsp : .input ≠ sp := fun he => hm (.inl ⟨a, v, by rw [he]⟩)
    rw [hostCall_input h, hostWrite_state]
    exact writeReg_bank_other hsp a.toNat v s
  | callBindCallback sp a acc count handle =>
    exact (hostCall_input h).trans (bindCallback_input sp a acc count handle s)
  | lineByte b => cases h; rfl
  | lineError => cases h; rfl
  | lineSilence => cases h; exact receiveSilence_input s
  | wireByte => cases h; exact wireOne_input s

/-- Settles O57: `step()` is a chain of line and engine steps, which leave Input as it is; of the other moves only the two of
`Move.mayChangeInput` write to it. -/
theorem inputChangesOnlyByHost : Obligations.InputChangesOnlyByHost := by
  refine ⟨fun _ _ => pollStep_input, fun s t h hne => ?_⟩
  rcases step_cases h with ⟨a, hpoll⟩ | ⟨m, rest, hagenda, -, hperform⟩
  · exact absurd (pollStep_input hpoll) hne
  · rw [hagenda]
    have hm : m.mayChangeInput := not_imp_comm.mp (perform_input hperform) hne
    rcases hm with ⟨a, v, rfl⟩ | ⟨start, count, initial, rfl⟩
    · exact .inl ⟨a, v, rest, rfl⟩
    · exact .inr ⟨start, count, initial, rest, rfl⟩

end Sys2Proof.Machine

/-! The state after reset (70_reset_and_hazards.md R321). -/

namespace Sys2Proof.Machine

@[simp] theorem reset_bank (sp : Space) : State.reset.bank sp = [] := by
  cases sp <;> rfl

@[simp] theorem reset_callbacks (sp : Space) (acc : Access) : State.reset.callbacks sp acc = [] := by
  cases sp <;> cases acc <;> rfl

/-- Both banks are undeclared everywhere. -/
theorem reset_declared (sp : Space) (a : Nat) : State.reset.declared sp a = false := by
  rw [State.declared, State.reg, reset_bank, Cells.get_nil, Option.isSome_none]

/-- `cb` is empty. -/
theorem reset_callback (sp : Space) (acc : Access) (a : Nat) : State.reset.callback sp acc a = none := by
  rw [State.callback, reset_callbacks, Cells.get_nil]

/-- Settles O40: `setup_done` to `ranges` are fields, compared with their value; the register and callback maps are empty, so a
lookup at any address finds none. -/
theorem resetState : Obligations.ResetState :=
  ⟨rfl, rfl, rfl, rfl, rfl, rfl, reset_declared, rfl, reset_callback⟩

end Sys2Proof.Machine

/-! Encoding and decoding (30_encoding.md R90 to R102). -/

namespace Sys2Proof

/-! ## From an instruction to its frame and back -/

theorem decodeResponse_sealFrame {addr fc : Byte} {p : List Byte} {i : Instr} (ha : legalSlaveAddr addr = true)
    (hp : decodeResponsePayload addr fc p = .ok i) (hw : i.wellFormed = true) :
    decodeResponse (sealFrame (addr :: fc :: p)) = .ok i := by
  have hpay : payloadOf (p ++ crcBytes (crc16 (addr :: fc :: p))) = p := payloadOf_append p _ rfl
  simp only [sealFrame, List.cons_append, decodeResponse, hpay, ha, hp, hw]
  simp [crcBytes]

/-- The payload of a request of format RQ-R or RQ-W1 (30_encoding.md R93). -/
theorem decodeRequest_twoFieldBody (addr fc : Byte) (x y : Word) :
    decodeRequest (sealFrame (twoFieldBody addr fc x y)) =
      decodeRequestPayload addr fc [hi8 x, lo8 x, hi8 y, lo8 y] :=
  decodeRequest_sealFrame addr fc _ (by simp)

theorem decodeRequestPayload_write {bc : Byte} {data : List Byte} (h : data.length = bc.toNat) (addr : Byte)
    (start qty : Word) :
    decodeRequestPayload addr 0x10 (hi8 start :: lo8 start :: hi8 qty :: lo8 qty :: bc :: data) =
      .ok (.writeMultipleHoldingRegisters addr start qty bc data) := by
  simp [decodeRequestPayload, h]

theorem supportedFunction_eq_false_iff {fc : Byte} :
    supportedFunction fc = false ↔ fc ≠ 0x03 ∧ fc ≠ 0x04 ∧ fc ≠ 0x06 ∧ fc ≠ 0x10 := by
  simp only [supportedFunction, Bool.or_eq_false_iff, beq_eq_false_iff_ne, and_assoc, ne_eq]

theorem decodeRequestPayload_unsupported {fc : Byte} (h : supportedFunction fc = false) (addr : Byte)
    (p : List Byte) : decodeRequestPayload addr fc p = .ok (.unsupportedFunction addr fc p) := by
  obtain ⟨h3, h4, h6, h10⟩ := supportedFunction_eq_false_iff.mp h
  simp only [decodeRequestPayload, if_neg h3, if_neg h4, if_neg h6, if_neg h10]

theorem wellFormed_writeMultiple_iff {addr bc : Byte} {start qty : Word} {data : List Byte} :
    (Instr.writeMultipleHoldingRegisters addr start qty bc data).wellFormed = true ↔
      data.length = bc.toNat ∧ 9 + data.length ≤ 256 := by
  simp only [Instr.wellFormed, Bool.and_eq_true, beq_iff_eq, decide_eq_true_eq]

theorem wellFormed_unsupported_iff {addr fc : Byte} {payload : List Byte} :
    (Instr.unsupportedFunction addr fc payload).wellFormed = true ↔
      supportedFunction fc = false ∧ 4 + payload.length ≤ 256 := by
  simp only [Instr.wellFormed, Bool.and_eq_true, Bool.not_eq_true', decide_eq_true_eq]

/-- Settles O1: a sealed body decodes as its payload does, and each of the five payloads reads back its own operands. -/
theorem requestEncodingRoundTrip : Obligations.RequestEncodingRoundTrip := by
  intro i hw hr
  cases i with
  | readHoldingRegisters addr x y | readInputRegisters addr x y | writeSingleHoldingRegister addr x y =>
    rw [encode, bodyOf, decodeRequest_twoFieldBody]
    simp [decodeRequestPayload]
  | writeMultipleHoldingRegisters addr start qty bc data =>
    obtain ⟨hbc, hcap⟩  := wellFormed_writeMultiple_iff.mp hw
    have hfit : (hi8 start :: lo8 start :: hi8 qty :: lo8 qty :: bc :: data).length + 4 ≤ 256 := by
      simp only [List.length_cons]; omega
    exact (decodeRequest_sealFrame addr 0x10 _ hfit).trans (decodeRequestPayload_write hbc addr start qty)
  | unsupportedFunction addr fc payload =>
    obtain ⟨hfc, hcap⟩ := wellFormed_unsupported_iff.mp hw
    exact (decodeRequest_sealFrame addr fc payload (by omega)).trans (decodeRequestPayload_unsupported hfc addr payload)
  | readHoldingRegistersResponse | readInputRegistersResponse | writeSingleHoldingRegisterResponse
  | writeMultipleHoldingRegistersResponse | exceptionResponse => cases hr

/-- The byte count of a read response is that of its data, since at most 125 values fit it (43_serializer.md R201). -/
theorem byteCount_toNat {vs : List Word} (h : legalReadCount vs.length = true) :
    (BitVec.ofNat 8 (2 * vs.length)).toNat = (bytesOf vs).length := by
  obtain ⟨-, hmax⟩ := (Machine.legalReadCount_iff _).mp h
  rw [bytesOf_length, BitVec.toNat_ofNat]
  omega

theorem decodeResponsePayload_readHolding {vs : List Word} (h : legalReadCount vs.length = true) (addr : Byte) :
    decodeResponsePayload addr 0x03 (BitVec.ofNat 8 (2 * vs.length) :: bytesOf vs) =
      .ok (.readHoldingRegistersResponse addr vs) := by
  simp only [decodeResponsePayload, byteCount_toNat h, wordsOf_bytesOf, bytesOf_length, and_self, if_true]

theorem decodeResponsePayload_readInput {vs : List Word} (h : legalReadCount vs.length = true) (addr : Byte) :
    decodeResponsePayload addr 0x04 (BitVec.ofNat 8 (2 * vs.length) :: bytesOf vs) =
      .ok (.readInputRegistersResponse addr vs) := by
  simp only [decodeResponsePayload, byteCount_toNat h, wordsOf_bytesOf, bytesOf_length, and_self, if_true]
  simp

/-- Bit 7 of an exception's function byte keeps it apart from the four supported codes (60_exceptions.md R292). -/
theorem decodeResponsePayload_exception {fc : Byte} (h : fc.getLsbD 7 = true) (addr code : Byte) :
    decodeResponsePayload addr fc [code] = .ok (.exceptionResponse addr fc code) := by
  have hne : ∀ k : Byte, k.getLsbD 7 = false → fc ≠ k := fun k hk he => by
    rw [he, hk] at h
    cases h
  rw [decodeResponsePayload, if_neg (hne _ rfl), if_neg (hne _ rfl), if_neg (hne _ rfl), if_neg (hne _ rfl), if_pos h]

/-- Settles O2: the same, the byte count of a read response agreeing with its data. -/
theorem responseEncodingRoundTrip : Obligations.ResponseEncodingRoundTrip := by
  intro i hw hr
  cases i with
  | readHoldingRegisters | readInputRegisters | writeSingleHoldingRegister | writeMultipleHoldingRegisters
  | unsupportedFunction => cases hr
  | readHoldingRegistersResponse addr vs =>
    obtain ⟨ha, hq⟩ := Bool.and_eq_true_iff.mp hw
    exact decodeResponse_sealFrame ha (decodeResponsePayload_readHolding hq addr) hw
  | readInputRegistersResponse addr vs =>
    obtain ⟨ha, hq⟩ := Bool.and_eq_true_iff.mp hw
    exact decodeResponse_sealFrame ha (decodeResponsePayload_readInput hq addr) hw
  | writeSingleHoldingRegisterResponse addr x y =>
    exact decodeResponse_sealFrame hw (by simp [decodeResponsePayload]) hw
  | writeMultipleHoldingRegistersResponse addr x y =>
    obtain ⟨ha, -⟩ := Bool.and_eq_true_iff.mp hw
    exact decodeResponse_sealFrame ha (by simp [decodeResponsePayload]) hw
  | exceptionResponse addr fc code =>
    obtain ⟨hleft, -⟩ := Bool.and_eq_true_iff.mp hw
    obtain ⟨ha, hfc⟩ := Bool.and_eq_true_iff.mp hleft
    exact decodeResponse_sealFrame ha (decodeResponsePayload_exception hfc addr code) hw

/-! ## From a frame to its instruction and back -/

@[simp] theorem twoFieldBody_be16 (addr fc a b c d : Byte) :
    twoFieldBody addr fc (be16 a b) (be16 c d) = [addr, fc, a, b, c, d] := by
  simp only [twoFieldBody, hi8_be16, lo8_be16]

/-- A payload that decodes as a request is that request's, byte for byte (30_encoding.md R93, R95). -/
theorem decodeRequestPayload_sound {a fc : Byte} {p : List Byte} {i : Instr} (hfit : p.length + 4 ≤ 256)
    (h : decodeRequestPayload a fc p = .ok i) :
    bodyOf i = a :: fc :: p ∧ i.wellFormed = true ∧ i.isRequest = true := by
  unfold decodeRequestPayload at h
  split_ifs at h with h3 h4 h6 h10
  · subst h3
    split at h <;> cases h
    exact ⟨twoFieldBody_be16 .., rfl, rfl⟩
  · subst h4
    split at h <;> cases h
    exact ⟨twoFieldBody_be16 .., rfl, rfl⟩
  · subst h6
    split at h <;> cases h
    exact ⟨twoFieldBody_be16 .., rfl, rfl⟩
  · subst h10
    split at h
    · split at h <;> cases h
      rename_i hbc
      simp only [List.length_cons] at hfit
      refine ⟨?_, wellFormed_writeMultiple_iff.mpr ⟨hbc, by omega⟩, rfl⟩
      rw [bodyOf, twoFieldBody_be16]
      rfl
    · cases h
  · cases h
    have hfc := supportedFunction_eq_false_iff.mpr ⟨h3, h4, h6, h10⟩
    exact ⟨rfl, wellFormed_unsupported_iff.mpr ⟨hfc, by omega⟩, rfl⟩

/-- Data whose length is the byte count reads back as the body of a read response (43_serializer.md R201). -/
theorem readBody_wordsOf {bc : Byte} {data : List Byte} (hbc : bc.toNat = data.length)
    (heven : data.length = 2 * (wordsOf data).length) (addr fc : Byte) :
    readBody addr fc (wordsOf data) = addr :: fc :: bc :: data := by
  have hcount : BitVec.ofNat 8 (2 * (wordsOf data).length) = bc := by
    rw [← heven, ← hbc, BitVec.ofNat_toNat, BitVec.setWidth_eq]
  rw [readBody, hcount, bytesOf_wordsOf data (by omega)]

/-- The same of a response (30_encoding.md R94). -/
theorem decodeResponsePayload_sound {a fc : Byte} {p : List Byte} {i : Instr}
    (h : decodeResponsePayload a fc p = .ok i) : bodyOf i = a :: fc :: p ∧ i.isRequest = false := by
  unfold decodeResponsePayload at h
  split_ifs at h with h3 h4 h6 h10 hbit
  · subst h3
    split at h
    · split_ifs at h with hdata
      cases h
      exact ⟨readBody_wordsOf hdata.1 hdata.2 a _, rfl⟩
    · cases h
  · subst h4
    split at h
    · split_ifs at h with hdata
      cases h
      exact ⟨readBody_wordsOf hdata.1 hdata.2 a _, rfl⟩
    · cases h
  · subst h6
    split at h <;> cases h
    exact ⟨twoFieldBody_be16 .., rfl⟩
  · subst h10
    split at h <;> cases h
    exact ⟨twoFieldBody_be16 .., rfl⟩
  · split at h <;> cases h
    exact ⟨rfl, rfl⟩

/-- What a frame that decodes is: two bytes, a payload and two more, the payload that of the instruction
(30_encoding.md R91, R92). -/
theorem decodeRequest_sound {f : List Byte} {i : Instr} (h : decodeRequest f = .ok i) :
    ∃ a fc rest, f = a :: fc :: rest ∧ 2 ≤ rest.length ∧ bodyOf i = a :: fc :: payloadOf rest ∧
      i.wellFormed = true ∧ i.isRequest = true := by
  unfold decodeRequest at h
  split at h
  · rename_i a fc rest
    split_ifs at h with hshort hlong
    have hcap : rest.length + 1 + 1 ≤ 256 := Nat.not_lt.mp hlong
    have hfit : (payloadOf rest).length + 4 ≤ 256 := by
      rw [payloadOf, List.length_take]
      omega
    exact ⟨a, fc, rest, rfl, Nat.not_lt.mp hshort, decodeRequestPayload_sound hfit h⟩
  · cases h

@[inherit_doc decodeRequest_sound]
theorem decodeResponse_sound {f : List Byte} {i : Instr} (h : decodeResponse f = .ok i) :
    ∃ a fc rest, f = a :: fc :: rest ∧ 2 ≤ rest.length ∧ bodyOf i = a :: fc :: payloadOf rest ∧
      i.wellFormed = true ∧ i.isRequest = false := by
  unfold decodeResponse at h
  split at h
  · rename_i a fc rest
    split_ifs at h with hshort haddr
    split at h
    · rename_i j hj
      split_ifs at h with hw
      cases h
      obtain ⟨hbody, hkind⟩ := decodeResponsePayload_sound hj
      exact ⟨a, fc, rest, rfl, Nat.not_lt.mp hshort, hbody, hw, hkind⟩
    · cases h
  · cases h

/-- A frame with a good CRC is its body, sealed (40_crc.md R123, R124). -/
theorem eq_sealFrame_of_crcOk {a fc : Byte} {rest : List Byte} (hlen : 2 ≤ rest.length)
    (hcrc : crcOk (a :: fc :: rest) = true) : a :: fc :: rest = sealFrame (a :: fc :: payloadOf rest) := by
  obtain ⟨p, lo, hi, rfl⟩ := exists_append_pair rest hlen
  have hsum : crc16 (a :: fc :: p) = be16 hi lo := by
    rw [← beq_iff_eq, ← crcOk_append]
    exact hcrc
  rw [payloadOf_append p [lo, hi] rfl, sealFrame, hsum, crcBytes, lo8_be16, hi8_be16]
  rfl

/-- Settles O3: a decoded frame's body is its instruction's; a good CRC makes the frame that body, sealed. -/
theorem decodedFrameReencodes : Obligations.DecodedFrameReencodes := by
  intro f i hcrc
  refine ⟨fun h => ?_, fun h => ?_⟩
  · obtain ⟨a, fc, rest, rfl, hlen, hbody, hw, hkind⟩ := decodeRequest_sound h
    exact ⟨by rw [encode, hbody, ← eq_sealFrame_of_crcOk hlen hcrc], hw, hkind⟩
  · obtain ⟨a, fc, rest, rfl, hlen, hbody, hw, hkind⟩ := decodeResponse_sound h
    exact ⟨by rw [encode, hbody, ← eq_sealFrame_of_crcOk hlen hcrc], hw, hkind⟩

/-! ## The opcode table -/

theorem be16_and_be16 (a b c d : Byte) : be16 a b &&& be16 c d = be16 (a &&& c) (b &&& d) :=
  BitVec.and_append

/-- No mask of the table reaches the address byte (30_encoding.md R102). -/
theorem tableLookup_be16 (request : Bool) (a fc : Byte) :
    tableLookup request (be16 a fc) = tableLookup request (be16 0 fc) := by
  have hlow : ∀ r ∈ opcodeTable, r.mask = be16 0 (lo8 r.mask) := by decide
  refine congrArg (Option.map OpcodeRow.mnemonic) (List.find?_congr fun r hr => ?_)
  rw [hlow r hr]
  simp only [be16_and_be16, BitVec.ofNat_eq_ofNat, BitVec.and_zero]

theorem tableLookup_unsupported : ∀ fc : Byte, supportedFunction fc = false →
    tableLookup true (be16 0 fc) = some "unsupported-function" := by
  decide +kernel

theorem tableLookup_exception : ∀ fc : Byte, fc.getLsbD 7 = true →
    tableLookup false (be16 0 fc) = some "exception.response" := by
  decide +kernel

/-- The second byte of a well-formed frame selects its own row, among those of its kind (30_encoding.md R96, R102). -/
theorem tableLookup_of_bodyOf {a fc : Byte} {p : List Byte} {i : Instr} (hbody : bodyOf i = a :: fc :: p)
    (hw : i.wellFormed = true) : tableLookup i.isRequest (be16 a fc) = some i.mnemonic := by
  rw [tableLookup_be16]
  cases i with
  | readHoldingRegisters | readInputRegisters | writeSingleHoldingRegister | writeMultipleHoldingRegisters
  | readHoldingRegistersResponse | readInputRegistersResponse | writeSingleHoldingRegisterResponse
  | writeMultipleHoldingRegistersResponse => cases hbody; rfl
  | unsupportedFunction addr fc' payload =>
    cases hbody
    exact tableLookup_unsupported _ (wellFormed_unsupported_iff.mp hw).1
  | exceptionResponse addr fc' code =>
    cases hbody
    obtain ⟨hleft, -⟩ := Bool.and_eq_true_iff.mp hw
    exact tableLookup_exception _ (Bool.and_eq_true_iff.mp hleft).2

/-- Settles O4: the first two bytes of a decoded frame are those of its instruction's body, and no mask reaches
the first. -/
theorem opcodeTableSelectsInstruction : Obligations.OpcodeTableSelectsInstruction := by
  intro a fc rest i
  refine ⟨fun h => ?_, fun h => ?_⟩
  · obtain ⟨_, _, _, heq, -, hbody, hw, hkind⟩ := decodeRequest_sound h
    cases heq
    exact hkind ▸ tableLookup_of_bodyOf hbody hw
  · obtain ⟨_, _, _, heq, -, hbody, hw, hkind⟩ := decodeResponse_sound h
    cases heq
    exact hkind ▸ tableLookup_of_bodyOf hbody hw

/-! ## Printed frames and the item port -/

/-- Settles O5: the decoder run on the seven frames of 95_test_vectors.md. -/
theorem specFramesDecode : Obligations.SpecFramesDecode :=
  ⟨rfl, rfl, rfl, rfl, rfl, rfl, rfl⟩

end Sys2Proof

namespace Sys2Proof.Machine

/-- The kind and the data of a port value (30_encoding.md R90). -/
theorem itemOfPort_append (kind : BitVec 2) (data : Byte) :
    itemOfPort (kind ++ data) =
      if kind = 0 then some (.byte data) else if kind = 1 then some .gap else if kind = 2 then some .err else none := by
  rw [itemOfPort, BitVec.extractLsb'_append_eq_left, BitVec.extractLsb'_append_eq_right]

/-- Settles O6: each kind selects its own item, and 3 none. -/
theorem receiveItemPortRoundTrip : Obligations.ReceiveItemPortRoundTrip := by
  refine ⟨fun item => ?_, itemOfPort_append 3⟩
  cases item with
  | byte b => exact itemOfPort_append 0 b
  | gap => exact itemOfPort_append 1 0
  | err => exact itemOfPort_append 2 0

end Sys2Proof.Machine

/-! The table-driven CRC, its printed values and a changed last byte (40_crc.md R121, R122, R124). -/

namespace Sys2Proof

theorem be16_xor_be16 (a b c d : Byte) : be16 a b ^^^ be16 c d = be16 (a ^^^ c) (b ^^^ d) :=
  BitVec.xor_append

theorem setWidth_eq_be16 (b : Byte) : b.setWidth 16 = be16 0 b :=
  setWidth_eq_zero_append b

theorem be16_shiftRight_eight (h l : Byte) : be16 h l >>> 8 = be16 0 h := by
  apply BitVec.eq_of_getLsbD_eq
  intro i hi
  rw [BitVec.getLsbD_ushiftRight, be16, be16, BitVec.getLsbD_append, BitVec.getLsbD_append]
  by_cases h8 : i < 8
  · simp [h8]
  · simp [h8, BitVec.getLsbD_of_ge h i (by omega)]

/-- Feeding a byte cancels only the register's low half, so the eight shifts are one table step (40_crc.md R122). -/
theorem crcByte_be16 (h l b : Byte) : crcByte (be16 h l) b = be16 0 h ^^^ crcTable (l ^^^ b) := by
  calc crcByte (be16 h l) b
      = crcShifts 8 (be16 h l ^^^ be16 0 b) := by rw [crcByte, setWidth_eq_be16]
    _ = crcShifts 8 (be16 h 0 ^^^ be16 0 (l ^^^ b)) := by
      simp only [be16_xor_be16, BitVec.ofNat_eq_ofNat, BitVec.xor_zero, BitVec.zero_xor]
    _ = crcShifts 8 (be16 h 0) ^^^ crcShifts 8 (be16 0 (l ^^^ b)) := crcShifts_xor 8 _ _
    _ = be16 0 h ^^^ crcTable (l ^^^ b) := by
      rw [crcTable, setWidth_eq_be16]
      exact congrArg (· ^^^ _) (crcShifts_high h)

theorem crcTableByte_be16 (h l b : Byte) : crcTableByte (be16 h l) b = be16 0 h ^^^ crcTable (l ^^^ b) := by
  have hlow : lo8 (be16 h l ^^^ b.setWidth 16) = l ^^^ b := by
    rw [setWidth_eq_be16, be16_xor_be16, lo8_be16]
  rw [crcTableByte, be16_shiftRight_eight, hlow]

theorem crcTableByte_eq_crcByte : crcTableByte = crcByte := by
  funext c b
  rw [← be16_hi8_lo8 c, crcTableByte_be16, crcByte_be16]

/-- Settles O7: the two forms are folds of one function. -/
theorem crcTableFormAgrees : Obligations.CrcTableFormAgrees := by
  intro s
  rw [crc16Table, crcTableByte_eq_crcByte, crc16, crcRun]

/-- Settles O9: the generator run on the twelve sequences. -/
theorem crcPrintedValues : Obligations.CrcPrintedValues := by
  unfold Obligations.CrcPrintedValues
  decide +kernel

/-- Different bytes leave different registers. -/
theorem crcByte_byte_injective (c : Word) : Function.Injective (crcByte c) := by
  intro x y h
  have hx : x.setWidth 16 = y.setWidth 16 := (BitVec.xor_right_inj c).mp (crcShifts_injective 8 h)
  have hlo := congrArg lo8 hx
  rwa [setWidth_eq_be16, setWidth_eq_be16, lo8_be16, lo8_be16] at hlo

/-- Settles O10: both frames passing would leave the register 0 after different last bytes. -/
theorem corruptedLastByteFailsCrc : Obligations.CorruptedLastByteFailsCrc := by
  intro f x y hlen hx hne
  have hlast : ∀ z, crcOk (f ++ [z]) = true ↔ crcByte (crc16 f) z = 0 := fun z => by
    rw [crcOk_iff_crc16_eq_zero _ (by simp; omega), crc16, crcRun_append]
    rfl
  refine Bool.eq_false_iff.mpr fun hy => hne ?_
  exact crcByte_byte_injective (crc16 f) (((hlast y).mp hy).trans ((hlast x).mp hx).symm)

end Sys2Proof

/-! The Register Store: a read after a write, and runs of accesses (20_memory.md R65; 44_register_store.md R222 to
R225). -/

namespace Sys2Proof.Machine

theorem declared_of_writeReg {sp : Space} {a : Nat} {v : Word} {s t : State} (h : writeReg sp a v s = (true, t)) :
    s.declared sp a = true := by
  by_contra hd
  rw [writeReg_undeclared (Bool.eq_false_iff.mpr hd)] at h
  cases h

/-- What a write stored is what a read gives where no Read callback is bound (44_register_store.md R222, R223). -/
theorem readReg_after_writeReg {sp : Space} {a : Nat} {v : Word} {s t : State} (h : writeReg sp a v s = (true, t))
    (hc : s.callback sp .read a = none) : readReg sp a t = (some (throughCallback sp .write a v s).1, t) := by
  have ht : t = (writeReg sp a v s).2 := by rw [h]
  have hreg : t.reg sp a = some (throughCallback sp .write a v s).1 := by
    rw [ht, writeReg_reg, if_pos ⟨rfl, rfl, declared_of_writeReg h⟩]
  have hcb : t.callback sp .read a = none := by
    rw [ht, writeReg_callback, hc]
  exact readReg_stored hreg (throughCallback_unbound hcb _)

/-- Settles O13: the value stored is the one the Write callback path gives. -/
theorem readAfterWriteReturnsStored : Obligations.ReadAfterWriteReturnsStored := by
  intro sp a v s t h hread
  have hback := readReg_after_writeReg h hread
  refine ⟨fun hc => ?_, fun k hc => ?_⟩
  · rwa [throughCallback_unbound hc] at hback
  · rwa [throughCallback_bound hc] at hback

theorem sameButCalls_of_readSpan {sp : Space} {a n : Nat} {r : Option (List Word)} {s t : State}
    (hrun : readSpan sp a n s = (r, t)) : SameButCalls s t := by
  have hsame := readSpan_same sp n a s
  rwa [hrun] at hsame

theorem sameButCalls_of_writeSpan {sp : Space} {a : Nat} {vs : List Word} {ok : Bool} {s t : State}
    (hrun : writeSpan sp a vs s = (ok, t)) : SameButCalls (s.setBank sp (t.bank sp)) t := by
  have hsame := writeSpan_same sp vs a s
  rwa [hrun] at hsame

/-- Settles O17: `readSpan_spec` by induction over the run, with the frame of `readSpan_same`. -/
theorem readRunInAddressOrder : Obligations.ReadRunInAddressOrder := by
  intro sp start n s hd
  obtain ⟨stored, vs, t, hrun, hvs, hstored, hreg, hval, hcalls⟩ := readSpan_spec sp n start s hd
  exact ⟨stored, vs, t, hrun, hvs, hstored, hreg, hval, hcalls, sameButCalls_of_readSpan hrun⟩

/-- Settles O18: `writeSpan_spec` by induction over the values, with the frame of `writeSpan_same`. -/
theorem writeRunInAddressOrder : Obligations.WriteRunInAddressOrder := by
  intro sp start vs s hd
  obtain ⟨stored, t, hrun, hlen, hstored, hval, hcalls⟩ := writeSpan_spec sp vs start s hd
  exact ⟨stored, t, hrun, hlen, hstored, fun i h _ => hval i h, hcalls, sameButCalls_of_writeSpan hrun⟩

end Sys2Proof.Machine

/-! The requests: results and frames (42_dispatch.md R170 to R181; 43_serializer.md R200 to R207). -/

namespace Sys2Proof.Machine

/-! ## The two shared request bodies, one equation for each path -/

section

variable {sp : Space} {fc addr : Byte} {start qty y : Word} {values vs : List Word} {s t : State}

theorem readRequest_illegal (hq : legalReadCount qty.toNat = false) :
    readRequest sp fc addr start qty s = raiseException addr fc 0x03 s := by
  rw [readRequest, hq]
  rfl

theorem readRequest_undeclared (hq : legalReadCount qty.toNat = true)
    (hs : spanOk sp start.toNat qty.toNat s = false) :
    readRequest sp fc addr start qty s = raiseException addr fc 0x02 s := by
  rw [readRequest, hq, hs]
  rfl

theorem readRequest_of_readSpan (hq : legalReadCount qty.toNat = true)
    (hs : spanOk sp start.toNat qty.toNat s = true) (hrun : readSpan sp start.toNat qty.toNat s = (some vs, t)) :
    readRequest sp fc addr start qty s = respond addr (readBody s.slaveAddr fc vs) t := by
  have haddr : t.slaveAddr = s.slaveAddr := by rw [sameButCalls_of_readSpan hrun]
  rw [readRequest, hq, hs, hrun, ← haddr]
  rfl

theorem writeRequest_undeclared (hs : spanOk .holding start.toNat values.length s = false) :
    writeRequest fc addr start y values s = raiseException addr fc 0x02 s := by
  rw [writeRequest, hs]
  rfl

theorem writeRequest_of_writeSpan (hs : spanOk .holding start.toNat values.length s = true)
    (hrun : writeSpan .holding start.toNat values s = (true, t)) :
    writeRequest fc addr start y values s = respond addr (twoFieldBody s.slaveAddr fc start y) t := by
  have haddr : t.slaveAddr = s.slaveAddr := by
    rw [sameButCalls_of_writeSpan hrun]
    rfl
  rw [writeRequest, hs, hrun, ← haddr]
  rfl

end

theorem exec_read {sp : Space} {fc : Byte} (h : sp = .holding ∧ fc = 0x03 ∨ sp = .input ∧ fc = 0x04) (addr : Byte)
    (start qty : Word) (s : State) :
    exec (if sp = .holding then .readHoldingRegisters addr start qty else .readInputRegisters addr start qty) s =
      .next (readRequest sp fc addr start qty s) := by
  rcases h with ⟨rfl, rfl⟩ | ⟨rfl, rfl⟩ <;> rfl

theorem legalReadCount_eq_false {n : Nat} (h : n = 0 ∨ 125 < n) : legalReadCount n = false :=
  Bool.eq_false_iff.mpr fun hq => by
    obtain ⟨hmin, hmax⟩ := (legalReadCount_iff n).mp hq
    omega

theorem legalWriteFields_eq_false {qty : Word} {bc : Byte}
    (h : qty.toNat = 0 ∨ 123 < qty.toNat ∨ bc.toNat ≠ 2 * qty.toNat) : legalWriteFields qty bc = false :=
  Bool.eq_false_iff.mpr fun hq => by
    obtain ⟨⟨hmin, hmax⟩, hbc⟩ := (legalWriteFields_iff qty bc).mp hq
    omega

theorem exec_writeMultiple_illegal {qty : Word} {bc : Byte} (h : legalWriteFields qty bc = false) (addr : Byte)
    (start : Word) (data : List Byte) (s : State) :
    exec (.writeMultipleHoldingRegisters addr start qty bc data) s = .next (raiseException addr 0x10 0x03 s) := by
  rw [exec_writeMultipleHoldingRegisters, h]
  rfl

theorem exec_writeMultiple_legal {qty : Word} {bc : Byte} (h : legalWriteFields qty bc = true) (addr : Byte)
    (start : Word) (data : List Byte) (s : State) :
    exec (.writeMultipleHoldingRegisters addr start qty bc data) s =
      .next (writeRequest 0x10 addr start qty (wordsOf data) s) := by
  rw [exec_writeMultipleHoldingRegisters, h]
  rfl

/-! ## Exceptions -/

/-- Settles O24: the field check comes before every other, and raises 0x03. -/
theorem illegalFieldsRaiseIllegalValue : Obligations.IllegalFieldsRaiseIllegalValue := by
  intro s addr start qty bc data
  refine ⟨fun hq => ?_, fun hf => ?_⟩
  · have hbad := legalReadCount_eq_false hq
    refine ⟨⟨_, exec_readHoldingRegisters .., ?_⟩, ⟨_, exec_readInputRegisters .., ?_⟩⟩
    · rw [readRequest_illegal hbad]
      exact raiseException_spec addr 0x03 0x03 s
    · rw [readRequest_illegal hbad]
      exact raiseException_spec addr 0x04 0x03 s
  · exact ⟨_, exec_writeMultiple_illegal (legalWriteFields_eq_false hf) addr start data s,
      raiseException_spec addr 0x10 0x03 s⟩

/-- The data of a request with matching byte count are as many values as its quantity (30_encoding.md R95). -/
theorem wordsOf_length_of_byteCount {qty : Word} {bc : Byte} {data : List Byte} (hbc : bc.toNat = 2 * qty.toNat)
    (hdata : data.length = bc.toNat) : (wordsOf data).length = qty.toNat := by
  rw [wordsOf_length]
  omega

theorem spanOk_one_eq_false {reg : Word} {sp : Space} {s : State} (h : s.declared sp reg.toNat = false) :
    spanOk sp reg.toNat 1 s = false :=
  Bool.eq_false_iff.mpr fun hs => by
    obtain ⟨-, hall⟩ := (spanOk_iff sp reg.toNat 1 s).mp hs
    exact Bool.false_ne_true (h.symm.trans (hall 0 Nat.one_pos))

/-- Settles O25: after the field check the span is checked in the bank of the function code, before any access. -/
theorem undeclaredSpanRaisesIllegalAddress : Obligations.UndeclaredSpanRaisesIllegalAddress := by
  intro s addr start qty value bc data
  refine ⟨fun hmin hmax => ?_, fun hd => ?_, fun hmin hmax hbc hdata hs => ?_⟩
  · have hq := (legalReadCount_iff _).mpr ⟨hmin, hmax⟩
    refine ⟨fun hs => ⟨_, exec_readHoldingRegisters .., ?_⟩, fun hs => ⟨_, exec_readInputRegisters .., ?_⟩⟩
    · rw [readRequest_undeclared hq hs]
      exact raiseException_spec addr 0x03 0x02 s
    · rw [readRequest_undeclared hq hs]
      exact raiseException_spec addr 0x04 0x02 s
  · refine ⟨_, exec_writeSingleHoldingRegister .., ?_⟩
    rw [writeRequest_undeclared (values := [value]) (spanOk_one_eq_false hd)]
    exact raiseException_spec addr 0x06 0x02 s
  · have hf := (legalWriteFields_iff qty bc).mpr ⟨⟨hmin, hmax⟩, hbc⟩
    refine ⟨_, exec_writeMultiple_legal hf addr start data s, ?_⟩
    rw [writeRequest_undeclared (by rwa [wordsOf_length_of_byteCount hbc hdata])]
    exact raiseException_spec addr 0x10 0x02 s

/-! ## Reads -/

/-- What a unicast read leaves: the callback bookkeeping of its accesses, and the frame. -/
theorem SameButCalls.then_frame {s t u : State} (h1 : SameButCalls s t) (h2 : SameButFrame t u) :
    u = { s with buf := u.buf, len := u.len, feState := u.feState, calls := u.calls,
                 hostAnswers := u.hostAnswers, draws := u.draws } := by
  unfold SameButCalls at h1
  unfold SameButFrame at h2
  rw [h2, h1]

/-- Settles O19: `readSpan_spec` gives the values and the calls; the response is their body, sealed. -/
theorem readRequestsAnswerRegisters : Obligations.ReadRequestsAnswerRegisters := by
  intro s addr start qty sp fc hbank haddr hmin hmax hs
  obtain ⟨stored, vs, t, hrun, hvs, hstored, hreg, hval, hcalls⟩ :=
    readSpan_spec sp qty.toNat start.toNat s ((spanOk_iff _ _ _ _).mp hs).2
  have hlen : (readBody s.slaveAddr fc vs).length = 3 + 2 * qty.toNat := by rw [readBody_length, hvs]
  have hreq : readRequest sp fc addr start qty s = sendBody (readBody s.slaveAddr fc vs) t := by
    rw [readRequest_of_readSpan ((legalReadCount_iff _).mpr ⟨hmin, hmax⟩) hs hrun, respond_unicast haddr]
  refine ⟨vs, stored, sendBody (readBody s.slaveAddr fc vs) t, ?_, hvs, hstored, hreg, hval, ?_, rfl, ?_,
    (sendBody_calls ..).trans hcalls, (sameButCalls_of_readSpan hrun).then_frame (sameButFrame_sendBody _ t)⟩
  · rw [exec_read hbank, hreq]
  · rw [frame_sendBody _ _ (by omega), readBody, hvs]
  · rw [sendBody_len, sealFrame_length, hlen]
    omega

/-- A unicast read of a span without Read callbacks is answered with the stored values (42_dispatch.md R171, R172). -/
theorem readRequest_quiet {sp : Space} {addr : Byte} {start qty : Word} {stored : List Word} {s : State}
    (haddr : addr ≠ 0) (hmin : 1 ≤ qty.toNat) (hmax : qty.toNat ≤ 125) (hlen : stored.length = qty.toNat)
    (hin : start.toNat + qty.toNat ≤ 65536)
    (h : ∀ i (h : i < stored.length), s.reg sp (start.toNat + i) = some stored[i] ∧
      s.callback sp .read (start.toNat + i) = none) (fc : Byte) :
    readRequest sp fc addr start qty s = sendBody (readBody s.slaveAddr fc stored) s := by
  have hs : spanOk sp start.toNat qty.toNat s = true :=
    (spanOk_iff _ _ _ _).mpr ⟨hin, fun i hi => declared_eq_true_iff.mpr ⟨_, (h i (hlen ▸ hi)).1⟩⟩
  have hrun := readSpan_quiet sp start.toNat stored s h
  rw [hlen] at hrun
  rw [readRequest_of_readSpan ((legalReadCount_iff _).mpr ⟨hmin, hmax⟩) hs hrun, respond_unicast haddr]

/-- Settles O20: running the request and running the response serialize one body in one state. -/
theorem uncallbackedReadAnswersStoredValues : Obligations.UncallbackedReadAnswersStoredValues := by
  intro s addr start qty stored haddr hmin hmax hlen hin
  refine ⟨fun h => ?_, fun h => ?_⟩
  · rw [exec_readHoldingRegisters, readRequest_quiet haddr hmin hmax hlen hin h, exec_response rfl]
    rfl
  · rw [exec_readInputRegisters, readRequest_quiet haddr hmin hmax hlen hin h, exec_response rfl]
    rfl

/-! ## Writes -/

@[simp] theorem reg_sendBody (body : List Byte) (s : State) (sp : Space) (a : Nat) :
    (sendBody body s).reg sp a = s.reg sp a := by
  rw [State.reg, bank_sendBody, State.reg]

/-- Serializing a response touches no register. -/
theorem Stored.sendBody {sp : Space} {a : Nat} {vs : List Word} {s t : State} (h : Stored sp a vs s t)
    (body : List Byte) : Stored sp a vs s (sendBody body t) := by
  simpa only [Stored, reg_sendBody] using h

/-- What a unicast write leaves: the Holding bank, the callback bookkeeping of its accesses, and the frame. -/
theorem writes_then_frame {s t u : State} (h1 : SameButCalls (s.setBank .holding t.holding) t)
    (h2 : SameButFrame t u) :
    u = { s with holding := u.holding, buf := u.buf, len := u.len, feState := u.feState,
                 calls := u.calls, hostAnswers := u.hostAnswers, draws := u.draws } := by
  unfold SameButCalls at h1
  unfold SameButFrame at h2
  rw [h2, h1]
  rfl

theorem frame_sendBody_twoFieldBody (addr fc : Byte) (x y : Word) (t : State) :
    (sendBody (twoFieldBody addr fc x y) t).frame = sealFrame [addr, fc, hi8 x, lo8 x, hi8 y, lo8 y] :=
  frame_sendBody _ _ (by simp)

theorem len_sendBody_twoFieldBody (addr fc : Byte) (x y : Word) (t : State) :
    (sendBody (twoFieldBody addr fc x y) t).len = 8 := by
  rw [sendBody_len, sealFrame_twoFieldBody_length]

theorem writeSpan_one (sp : Space) (a : Nat) (v : Word) (s : State) : writeSpan sp a [v] s = writeReg sp a v s := by
  unfold writeSpan
  split <;> simp only [writeSpan, *]

/-- Settles O21: a declared register is a span of one, so the request is one `writeReg` and the echo of its fields. -/
theorem writeSingleStoresAndEchoes : Obligations.WriteSingleStoresAndEchoes := by
  intro s addr reg value haddr hd
  obtain ⟨x, t', hx⟩ : ∃ x t', throughCallback .holding .write reg.toNat value s = (x, t') := ⟨_, _, rfl⟩
  obtain ⟨t, ht⟩ : ∃ t, writeReg .holding reg.toNat value s = (true, t) := ⟨_, writeReg_success hd value⟩
  obtain ⟨hstored, hcalls⟩ := writeReg_stored hd hx
  rw [ht] at hstored hcalls
  have hrun : writeSpan .holding reg.toNat [value] s = (true, t) := by rw [writeSpan_one, ht]
  refine ⟨x, sendBody (twoFieldBody s.slaveAddr 0x06 reg value) t, ?_, hstored.sendBody _, fun hc => ?_, fun h hc => ?_,
    frame_sendBody_twoFieldBody .., rfl, len_sendBody_twoFieldBody ..,
    writes_then_frame (sameButCalls_of_writeSpan hrun) (sameButFrame_sendBody _ t)⟩
  · rw [exec_writeSingleHoldingRegister, writeRequest_of_writeSpan (spanOk_one hd) hrun, respond_unicast haddr]
  · rw [throughCallback_unbound hc] at hx
    cases hx
    exact ⟨rfl, (sendBody_calls ..).trans hcalls⟩
  · rw [throughCallback_bound hc] at hx
    cases hx
    exact ⟨rfl, (sendBody_calls ..).trans hcalls⟩

/-- Settles O22: with legal fields the data are `qty` values, and `writeSpan_spec` says what writing them does. -/
theorem writeMultipleStoresSpan : Obligations.WriteMultipleStoresSpan := by
  intro s addr start qty bc data haddr hmin hmax hbc hdata hs
  have hlen := wordsOf_length_of_byteCount hbc hdata
  have hspan : spanOk .holding start.toNat (wordsOf data).length s = true := by rwa [hlen]
  obtain ⟨stored, t, hrun, hl, hstored, hval, hcalls⟩ :=
    writeSpan_spec .holding (wordsOf data) start.toNat s ((spanOk_iff _ _ _ _).mp hspan).2
  have hf := (legalWriteFields_iff qty bc).mpr ⟨⟨hmin, hmax⟩, hbc⟩
  refine ⟨stored, sendBody (twoFieldBody s.slaveAddr 0x10 start qty) t, ?_, hl.trans hlen, hstored.sendBody _,
    fun i hi hi' => ?_, (sendBody_calls ..).trans hcalls, frame_sendBody_twoFieldBody .., rfl,
    len_sendBody_twoFieldBody ..,
    writes_then_frame (sameButCalls_of_writeSpan hrun) (sameButFrame_sendBody _ t)⟩
  · rw [exec_writeMultiple_legal hf, writeRequest_of_writeSpan hspan hrun, respond_unicast haddr]
  · rw [hval i (hl ▸ hi), wordsOf_get data i (hl ▸ hi) hi']

/-! ## Every request is answered -/

/-- A family of runs of one request, by its address byte, ends in serializing, or dropping, one response `r` of the block,
in a state `w` that only the accesses have changed (42_dispatch.md R170, R180, R181). -/
def Answers (s : State) (run : Byte → State) : Prop :=
  ∃ (r : Instr) (w : State), r.isRequest = false ∧ addressOf r = s.slaveAddr ∧
    (legalSlaveAddr s.slaveAddr = true → r.wellFormed = true) ∧ EngineStep s w ∧
    ∀ a, run a = respond a (bodyOf r) w

theorem raiseException_answers {code : Byte} (hcode : legalExceptionCode code = true) (fc : Byte) (s : State) :
    Answers s fun a => raiseException a fc code s := by
  have hbit : (fc ||| 0x80).getLsbD 7 = true := by simp
  refine ⟨.exceptionResponse s.slaveAddr (fc ||| 0x80) code, s, rfl, rfl, fun hs => ?_, EngineStep.refl s, fun _ => rfl⟩
  rw [Instr.wellFormed, hs, hbit, hcode]
  rfl

theorem readRequest_answers {sp : Space} {fc : Byte} (h : sp = .holding ∧ fc = 0x03 ∨ sp = .input ∧ fc = 0x04)
    (start qty : Word) (s : State) : Answers s fun a => readRequest sp fc a start qty s := by
  cases hq : legalReadCount qty.toNat with
  | false =>
    simp only [readRequest_illegal hq]
    exact raiseException_answers rfl fc s
  | true =>
    cases hs : spanOk sp start.toNat qty.toNat s with
    | false =>
      simp only [readRequest_undeclared hq hs]
      exact raiseException_answers rfl fc s
    | true =>
      obtain ⟨stored, vs, t, hrun, hvs, -⟩ :=
        readSpan_spec sp qty.toNat start.toNat s ((spanOk_iff _ _ _ _).mp hs).2
      have hstep := (sameButCalls_of_readSpan hrun).engineStep
      have hwf : legalSlaveAddr s.slaveAddr = true →
          (legalSlaveAddr s.slaveAddr && legalReadCount vs.length) = true := fun ha => by rw [ha, hvs, hq]; rfl
      simp only [readRequest_of_readSpan hq hs hrun]
      rcases h with ⟨-, rfl⟩ | ⟨-, rfl⟩
      · exact ⟨.readHoldingRegistersResponse s.slaveAddr vs, t, rfl, rfl, hwf, hstep, fun _ => rfl⟩
      · exact ⟨.readInputRegistersResponse s.slaveAddr vs, t, rfl, rfl, hwf, hstep, fun _ => rfl⟩

/-- A write answers with `r`, its two fields from the block's address, or with an exception. -/
theorem writeRequest_answers {fc : Byte} {start y : Word} {r : Instr} {s : State} (hr : r.isRequest = false)
    (haddr : addressOf r = s.slaveAddr) (hwf : legalSlaveAddr s.slaveAddr = true → r.wellFormed = true)
    (hbody : bodyOf r = twoFieldBody s.slaveAddr fc start y) (values : List Word) :
    Answers s fun a => writeRequest fc a start y values s := by
  cases hs : spanOk .holding start.toNat values.length s with
  | false =>
    simp only [writeRequest_undeclared hs]
    exact raiseException_answers rfl fc s
  | true =>
    obtain ⟨stored, t, hrun, -⟩ := writeSpan_spec .holding values start.toNat s ((spanOk_iff _ _ _ _).mp hs).2
    have hstep : EngineStep s t := by
      have := writeSpan_engineStep values start.toNat s
      rwa [hrun] at this
    simp only [writeRequest_of_writeSpan hs hrun, ← hbody]
    exact ⟨r, t, hr, haddr, hwf, hstep, fun _ => rfl⟩

/-- Every request is answered, whatever its operands (42_dispatch.md R181). -/
theorem exec_answers {i : Instr} (hi : i.isRequest = true) (s : State) :
    ∃ run, Answers s run ∧ ∀ a, exec (readdress a i) s = .next (run a) := by
  cases i with
  | readHoldingRegisters addr start qty =>
    exact ⟨_, readRequest_answers (.inl ⟨rfl, rfl⟩) start qty s, fun _ => rfl⟩
  | readInputRegisters addr start qty =>
    exact ⟨_, readRequest_answers (.inr ⟨rfl, rfl⟩) start qty s, fun _ => rfl⟩
  | writeSingleHoldingRegister addr reg value =>
    exact ⟨_, writeRequest_answers (r := .writeSingleHoldingRegisterResponse s.slaveAddr reg value) rfl rfl id rfl
      [value], fun _ => rfl⟩
  | writeMultipleHoldingRegisters addr start qty bc data =>
    cases hf : legalWriteFields qty bc with
    | false => exact ⟨_, raiseException_answers rfl 0x10 s, fun a => exec_writeMultiple_illegal hf a start data s⟩
    | true =>
      obtain ⟨hcount, -⟩ := Bool.and_eq_true_iff.mp hf
      exact ⟨_, writeRequest_answers (r := .writeMultipleHoldingRegistersResponse s.slaveAddr start qty) rfl rfl
        (fun ha => Bool.and_eq_true_iff.mpr ⟨ha, hcount⟩) rfl (wordsOf data),
        fun a => exec_writeMultiple_legal hf a start data s⟩
  | unsupportedFunction addr fc payload => exact ⟨_, raiseException_answers rfl fc s, fun _ => rfl⟩
  | readHoldingRegistersResponse | readInputRegistersResponse | writeSingleHoldingRegisterResponse
  | writeMultipleHoldingRegistersResponse | exceptionResponse => cases hi

theorem readdress_addressOf (i : Instr) : readdress (addressOf i) i = i := by
  cases i <;> rfl

/-- Settles O26: both runs reach the same state before `respond`, which serializes there for a slave and clears for a
broadcast. -/
theorem broadcastExecutesSilently : Obligations.BroadcastExecutesSilently := by
  intro s i a hi ha
  obtain ⟨run, ⟨r, w, -, -, -, hstep, hrun⟩, hexec⟩ := exec_answers hi s
  have hbroadcast : run 0 = clearFrame w := (hrun 0).trans (respond_broadcast _ w)
  have hunicast : run a = sendBody (bodyOf r) w := (hrun a).trans (respond_unicast ha _ w)
  refine ⟨clearFrame w, sendBody (bodyOf r) w, hbroadcast ▸ hexec 0, hunicast ▸ hexec a, rfl, rfl, ?_, ?_, ?_⟩
  · rw [clearFrame_trace, hstep.same]
  · rw [clearFrame_tx, hstep.same]
  · exact (sameButFrame_sendBody _ w).symm.trans (sameButFrame_clearFrame w)

/-- Settles O27: the response is a well-formed one, so its encoding is what the buffer holds, within the bounds of its
kind, and it decodes again. -/
theorem everyUnicastRequestIsAnsweredOnce : Obligations.EveryUnicastRequestIsAnsweredOnce := by
  intro s i hi _ ha hslave
  obtain ⟨run, ⟨r, w, hkind, haddr, hwf, hstep, hrun⟩, hexec⟩ := exec_answers hi s
  have hbounds := encode_response_bounds hkind (hwf hslave)
  have hlen : (encode r).length = (bodyOf r).length + 2 := sealFrame_length _
  have hframe : (sendBody (bodyOf r) w).frame = encode r := frame_sendBody _ _ (by omega)
  refine ⟨sendBody (bodyOf r) w, r, ?_, rfl, ?_, ?_, haddr, hbounds.1, hbounds.2, ?_, ?_⟩
  · rw [← respond_unicast ha, ← hrun, ← hexec, readdress_addressOf]
  · rw [hframe, encode, crcOk_sealFrame]
  · rw [hframe, responseEncodingRoundTrip r (hwf hslave) hkind]
  · rw [sendBody_trace, hstep.same]
  · rw [sendBody_tx, hstep.same]

/-! ## Responses -/

theorem serializes_bodyOf {i : Instr} (hi : i.isRequest = false) (hlen : (bodyOf i).length ≤ 254) (s : State) :
    Serializes i (bodyOf i) s :=
  ⟨sendBody (bodyOf i) s, exec_response hi s, frame_sendBody _ s hlen, sealFrame_length _, rfl,
    sameButFrame_sendBody _ s⟩

/-- Settles O28: running a response serializes its body, which fits the buffer. -/
theorem responsesAreSerialized : Obligations.ResponsesAreSerialized := by
  intro s addr
  refine ⟨fun vs hvs => ?_, fun reg value => ?_, fun start qty => ?_, fun fc code => ?_⟩
  · have hfit : ∀ fc, (readBody addr fc vs).length ≤ 254 := fun fc => by rw [readBody_length]; omega
    exact ⟨serializes_bodyOf (i := .readHoldingRegistersResponse addr vs) rfl (hfit 0x03) s,
      serializes_bodyOf (i := .readInputRegistersResponse addr vs) rfl (hfit 0x04) s⟩
  · exact serializes_bodyOf (i := .writeSingleHoldingRegisterResponse addr reg value) rfl (by simp [bodyOf]) s
  · exact serializes_bodyOf (i := .writeMultipleHoldingRegistersResponse addr start qty) rfl (by simp [bodyOf]) s
  · exact serializes_bodyOf (i := .exceptionResponse addr fc code) rfl (by simp [bodyOf]) s

end Sys2Proof.Machine

/-! The receive-side parser: bytes, gaps, rejected frames and validation (41_frame_parser.md R141 to R152). -/

namespace Sys2Proof.Machine

/-! ## Bytes -/

theorem feed_byte_idle {s : State} (h : s.feState = .idle) (b : Byte) :
    feed (.byte b) s = checkComplete (appendByte b { s with len := 0, feState := .accumulating }) := by
  rw [feed_idle h, feedIdle]

theorem frame_startFrame (b : Byte) (s : State) :
    (appendByte b { s with len := 0, feState := .accumulating }).frame = [b] := by
  rw [frame_appendByte b _ (by decide : 0 < 256), frame_empty _ rfl]
  rfl

/-- Settles O31: one byte says nothing of the frame's length, so the completion test leaves it. -/
theorem firstByteStartsFrame : Obligations.FirstByteStartsFrame := by
  intro s b h
  have hpartial : partialFrame (appendByte b { s with len := 0, feState := .accumulating }).frame := by
    rw [frame_startFrame]
    trivial
  refine ⟨_, ?_, rfl, rfl, frame_startFrame b s, sameButFrame_startFrame b s⟩
  rw [feed_byte_idle h, checkComplete_partial (by decide : 1 ≤ 256) hpartial]

/-- A byte that leaves the frame partial is only appended (41_frame_parser.md R142, R144). -/
theorem feed_byte_partial {s : State} {b : Byte} (h : s.feState = .accumulating) (hl : s.len < 256)
    (hp : partialFrame (s.frame ++ [b])) : feed (.byte b) s = .next (appendByte b s) := by
  rw [← frame_appendByte b s hl] at hp
  rw [feed_byte h hl, checkComplete_partial (s := appendByte b s) hl hp]

/-- Settles O32: the completion test does nothing to a partial frame. -/
theorem byteIsAppendedUntilComplete : Obligations.ByteIsAppendedUntilComplete :=
  fun s b h hl hp => ⟨_, feed_byte_partial h hl hp, h, rfl, frame_appendByte b s hl, sameButFrame_appendByte b s⟩

/-! ## Gaps -/

theorem feed_gap_closing {s : State} (h : s.feState = .accumulating)
    (ho : expectedLen s.frame = .openEnded ∧ 4 ≤ s.len) : feed .gap s = validate s := by
  rw [feed_accumulating h]
  exact if_pos ho

theorem feed_gap_discarding {s : State} (h : s.feState = .accumulating)
    (ho : ¬(expectedLen s.frame = .openEnded ∧ 4 ≤ s.len)) : feed .gap s = .next (clearFrame s) := by
  rw [feed_accumulating h]
  exact if_neg ho

/-- Settles O34: the two arms of R146. -/
theorem gapClosesOpenFrameElseDiscards : Obligations.GapClosesOpenFrameElseDiscards :=
  fun _ h => ⟨feed_gap_closing h, feed_gap_discarding h⟩

/-! ## Frames too long -/

theorem checkComplete_tooLong {s : State} (h : expectedLen s.frame = .tooLong) :
    checkComplete s = .next (clearFrame s) := by
  rw [checkComplete, h]
  rfl

theorem feed_byte_full {s : State} (h : s.feState = .accumulating) (hl : s.len = 256) (b : Byte) :
    feed (.byte b) s = .next (clearFrame s) := by
  rw [feed_accumulating h]
  exact if_neg hl.not_lt

/-- Settles O36: at its seventh byte the frame is `tooLong`, and the completion test rejects it; a full buffer is tested before
the append. -/
theorem lengthFailuresAreSilent : Obligations.LengthFailuresAreSilent := by
  intro s b h
  refine ⟨fun a w x y z hf hl hb => ?_, fun hl => feed_byte_full h hl b⟩
  have hfit : s.len < 256 := by omega
  have hlong : expectedLen (appendByte b s).frame = .tooLong := by
    rw [frame_appendByte b s hfit, hf]
    exact (expectedLen_write a w x y z b []).trans (if_pos hb)
  refine ⟨clearFrame (appendByte b s), ?_, rfl, rfl, ?_⟩
  · rw [feed_byte h hfit, checkComplete_tooLong hlong]
  · exact (sameButFrame_appendByte b s).trans (sameButFrame_clearFrame _)

/-! ## Validation -/

theorem addrOk_cons (slaveAddr a : Byte) (rest : List Byte) :
    addrOk slaveAddr (a :: rest) = true ↔ a = slaveAddr ∨ a = 0 := by
  simp only [addrOk, isBroadcast, Bool.or_eq_true, beq_iff_eq]

/-- The two checks of R150 in their order: CRC, then address. -/
theorem validate_eq (s : State) : validate s =
    if crcOk s.frame = false ∨ addrOk s.slaveAddr s.frame = false then .next (clearFrame s)
    else dispatch { s with feState := .validating } := by
  have hframe : State.frame { s with feState := .validating } = s.frame := rfl
  unfold validate
  dsimp only
  rw [hframe]
  cases crcOk s.frame <;> cases addrOk s.slaveAddr s.frame <;> rfl

/-- A frame with a bad CRC, or for another slave, is discarded (41_frame_parser.md R150, R152). -/
theorem validate_invalid {s : State} (h : crcOk s.frame = false ∨
    (∃ a rest, s.frame = a :: rest ∧ a ≠ s.slaveAddr ∧ a ≠ 0)) : validate s = .next (clearFrame s) := by
  rw [validate_eq, if_pos]
  refine h.imp_right fun ⟨a, rest, hf, hslave, hzero⟩ => ?_
  rw [hf, Bool.eq_false_iff, Ne, addrOk_cons]
  exact not_or.mpr ⟨hslave, hzero⟩

/-- Settles O37: validation clears such a frame; the byte that completes one has it validated. -/
theorem invalidFramesAreSilent : Obligations.InvalidFramesAreSilent := by
  refine ⟨fun s => validate_invalid, fun s b n h hl he hn hbad => ?_⟩
  rw [← frame_appendByte b s hl] at hbad
  refine ⟨clearFrame (appendByte b s), ?_, rfl, rfl, ?_⟩
  · rw [feed_byte_complete h hl he hn, validate_invalid hbad]
  · exact (sameButFrame_appendByte b s).trans (sameButFrame_clearFrame _)

theorem dispatch_of_decodeRequest {s : State} {i : Instr} (h : decodeRequest s.frame = .ok i) :
    dispatch s = exec i { s with feState := .dispatching } := by
  rw [dispatch, h]

/-- Settles O38: both checks pass, and dispatch runs what the frame decodes to. -/
theorem validFrameRunsItsInstruction : Obligations.ValidFrameRunsItsInstruction := by
  intro s i hcrc hdec haddr
  obtain ⟨rest, hf⟩ := decodeRequest_address hdec
  have hok : addrOk s.slaveAddr s.frame = true := by rwa [hf, addrOk_cons]
  rw [validate_eq, hcrc, hok, if_neg (by decide)]
  exact dispatch_of_decodeRequest (s := { s with feState := .validating }) hdec

end Sys2Proof.Machine

/-! The silence detector, the Direction Controller and the phases of `step()` (30_encoding.md R90;
45_direction_and_polling.md R253 to R269; 70_reset_and_hazards.md R324). -/

namespace Sys2Proof.Machine

/-! ## The silence detector -/

theorem receiveSilence_armed {s : State} (h : s.gapArmed = true) :
    receiveSilence s = { s with rx := s.rx ++ [.gap], gapArmed := false } :=
  if_pos h

theorem receiveSilence_unarmed {s : State} (h : s.gapArmed = false) : receiveSilence s = s :=
  if_neg (Bool.eq_false_iff.mp h)

/-- Silence leaves the detector unarmed. -/
theorem receiveSilence_gapArmed (s : State) : (receiveSilence s).gapArmed = false := by
  cases h : s.gapArmed with
  | false => rw [receiveSilence_unarmed h, h]
  | true => rw [receiveSilence_armed h]

/-- Settles O49: an item arms the detector, a gap disarms it. -/
theorem silenceYieldsOneGapPerIdlePeriod : Obligations.SilenceYieldsOneGapPerIdlePeriod := by
  intro s item
  refine ⟨?_, receiveSilence_unarmed (receiveSilence_gapArmed s), receiveSilence_unarmed⟩
  rw [receiveSilence_armed (receiveItem_gapArmed item s), receiveItem_rx, List.append_assoc]
  rfl

/-! ## The Direction Controller -/

section

variable {s : State}

theorem drivePin_unbound (h : s.hasDirPin = false) (l : Bool) : drivePin l s = s :=
  if_neg (Bool.eq_false_iff.mp h)

theorem drivePin_bound (h : s.hasDirPin = true) (l : Bool) : drivePin l s = setLevel l s :=
  if_pos h

theorem assertTransmit_of_transmitting (h : s.dirState = .transmitting) : assertTransmit s = s :=
  if_pos h

theorem assertReceive_of_receiving (h : s.dirState = .receiving) : assertReceive s = s :=
  if_pos h

theorem assertTransmit_of_receiving (h : s.dirState = .receiving) :
    assertTransmit s = { drivePin s.params.txLevel s with dirState := .transmitting } :=
  if_neg (by rw [h]; decide)

theorem assertReceive_of_transmitting (h : s.dirState = .transmitting) :
    assertReceive s = { drivePin (!s.params.txLevel) s with dirState := .receiving } :=
  if_neg (by rw [h]; decide)

end

/-- Settles O43: nothing where the recorded state matches, else the record and, with a pin bound, one `set_level`. -/
theorem directionControllerIsIdempotent : Obligations.DirectionControllerIsIdempotent := by
  intro s
  refine ⟨assertTransmit_of_transmitting, assertReceive_of_receiving, fun h hp => ?_, fun h hp => ?_, fun h hp => ?_,
    fun h hp => ?_⟩
  · rw [assertTransmit_of_receiving h, drivePin_unbound hp]
  · rw [assertReceive_of_transmitting h, drivePin_unbound hp]
  · rw [assertTransmit_of_receiving h, drivePin_bound hp]
    rfl
  · rw [assertReceive_of_transmitting h, drivePin_bound hp]
    rfl

/-! ## `step()` before `setup` -/

theorem pollStep_before_setup {s : State} (h : s.setupDone = false) : pollStep s = .next s :=
  if_neg (Bool.eq_false_iff.mp h)

theorem step_of_empty_agenda {s : State} (h : s.agenda = []) : step s = pollStep s := by
  rw [step, nextMove, h]

theorem step_of_agenda {s : State} {m : Move} {rest : List Move} (h : s.agenda = m :: rest) :
    step s = perform m { s with agenda := rest } := by
  rw [step, nextMove, h]

/-- Settles O42: `setup_done` is tested before anything else. -/
theorem stepBeforeSetupDoesNothing : Obligations.StepBeforeSetupDoesNothing :=
  fun _ h => ⟨pollStep_before_setup h, fun ha => (step_of_empty_agenda ha).trans (pollStep_before_setup h)⟩

/-! ## Phase 2 -/

theorem responseReady_iff {s : State} : s.responseReady = true ↔ s.feState = .responding := by
  rw [State.responseReady, beq_iff_eq]

/-- A ready response stops the drain: every item stays (45_direction_and_polling.md R264). -/
theorem drain_responding {s : State} (h : s.feState = .responding) :
    ∀ items, drain items s = .next { s with rx := items }
  | [] => rfl
  | _ :: _ => if_pos (responseReady_iff.mpr h)

/-- Settles O45: by induction over the items; each item is fed, or the drain stops before it. -/
theorem drainStopsAtResponse : Obligations.DrainStopsAtResponse := by
  intro items
  induction items with
  | nil =>
    intro s t h
    cases h
    exact ⟨[], rfl, .inl rfl, fun _ => ⟨rfl, rfl⟩⟩
  | cons item rest ih =>
    intro s t h
    by_cases hr : s.feState = .responding
    · rw [drain_responding hr] at h
      cases h
      exact ⟨[], rfl, .inr hr, fun _ => ⟨rfl, rfl⟩⟩
    · rw [drain_cons hr] at h
      obtain ⟨u, -, hdrain⟩ := andThen_next h
      obtain ⟨taken, hitems, hend, -⟩ := ih u t hdrain
      exact ⟨item :: taken, by rw [List.cons_append, ← hitems], hend, fun h' => absurd h' hr⟩

/-! ## Phase 3 -/

/-- Settles O47: what enters the TX stream is `takenBytes`. -/
theorem writeTakesResponseInOrder : Obligations.WriteTakesResponseInOrder :=
  fun v bytes _ => ⟨takenBytes v bytes, rfl, takenBytes_sublist v bytes, fun h => if_pos h, rfl⟩

theorem transmitPhase_idle {s : State} (h : s.feState ≠ .responding) : transmitPhase s = s :=
  if_neg (mt responseReady_iff.mp h)

/-- With a blocking flush every byte has left, so the completion test only asks whether any is left
(45_direction_and_polling.md R254, R266). -/
theorem transmitPhase_responding {s : State} (h : s.feState = .responding) :
    transmitPhase s =
      if (sendResponse (nextVerdict s) s).tx = [] then
        assertReceive { sendResponse (nextVerdict s) s with txPending := false }
      else { sendResponse (nextVerdict s) s with txPending := true } := by
  obtain ⟨_, _, _, -, -, hblock, hsend⟩ := sendResponse_spec (nextVerdict s) s
  have hparams : (sendResponse (nextVerdict s) s).params = s.params := by rw [hsend]
  rw [transmitPhase, if_pos (responseReady_iff.mpr h)]
  generalize sendResponse (nextVerdict s) s = u at hblock hparams
  have htest : (u.params.blockingFlush || u.flushComplete) = true ↔ u.tx = [] := by
    rw [Bool.or_eq_true, flushComplete_iff, hparams]
    exact ⟨fun h => h.elim hblock id, .inr⟩
  exact if_congr htest rfl rfl

section

variable {s : State}

/-- Phase 3 releases the line where no byte is left, and else leaves the flush pending (45_direction_and_polling.md
R266). -/
theorem transmitPhase_cases (h : s.feState = .responding) :
    ∃ u, u = sendResponse (nextVerdict s) s ∧ u.hasDirPin = s.hasDirPin ∧ u.params = s.params ∧
      u.feState = .idle ∧ u.len = 0 ∧ u.dirState = .transmitting ∧
      (u.tx = [] ∧ transmitPhase s = { u with
          txPending := false
          dirState := .receiving
          dirOut := if s.hasDirPin then !s.params.txLevel else u.dirOut
          trace := u.trace ++ if s.hasDirPin then [.dir (!s.params.txLevel)] else [] } ∨
        u.tx ≠ [] ∧ transmitPhase s = { u with txPending := true }) := by
  obtain ⟨_, _, _, -, -, -, hsend⟩ := sendResponse_spec (nextVerdict s) s
  have hpin : (sendResponse (nextVerdict s) s).hasDirPin = s.hasDirPin := by rw [hsend]
  have hparams : (sendResponse (nextVerdict s) s).params = s.params := by rw [hsend]
  have hdir : (sendResponse (nextVerdict s) s).dirState = .transmitting := by rw [hsend]
  refine ⟨_, rfl, hpin, hparams, by rw [hsend], by rw [hsend], hdir, ?_⟩
  rw [transmitPhase_responding h]
  generalize sendResponse (nextVerdict s) s = u at hpin hparams hdir
  by_cases htx : u.tx = []
  · refine .inl ⟨htx, ?_⟩
    rw [if_pos htx, assertReceive_eq]
    simp only [hpin, hparams, hdir, and_true]
  · exact .inr ⟨htx, if_neg htx⟩

theorem transmitPhase_tx (h : s.feState = .responding) :
    (transmitPhase s).tx = (sendResponse (nextVerdict s) s).tx := by
  obtain ⟨u, rfl, -, -, -, -, -, ⟨-, ht⟩ | ⟨-, ht⟩⟩ := transmitPhase_cases h <;> rw [ht]

theorem transmitPhase_pending (h : s.feState = .responding) :
    (transmitPhase s).txPending = true ↔ (transmitPhase s).tx ≠ [] := by
  obtain ⟨u, rfl, -, -, -, -, -, ⟨htx, ht⟩ | ⟨htx, ht⟩⟩ := transmitPhase_cases h <;> rw [ht] <;> simp [htx]

theorem transmitPhase_dirState (h : s.feState = .responding) :
    (transmitPhase s).dirState = .transmitting ↔ (transmitPhase s).txPending = true := by
  obtain ⟨u, rfl, -, -, -, -, hdir, ⟨-, ht⟩ | ⟨-, ht⟩⟩ := transmitPhase_cases h <;> rw [ht] <;> simp [hdir]

theorem transmitPhase_engine (h : s.feState = .responding) :
    (transmitPhase s).feState = .idle ∧ (transmitPhase s).len = 0 := by
  obtain ⟨u, rfl, -, -, hfe, hlen, -, ⟨-, ht⟩ | ⟨-, ht⟩⟩ := transmitPhase_cases h <;> rw [ht] <;> exact ⟨hfe, hlen⟩

theorem transmitPhase_trace (h : s.feState = .responding) :
    (transmitPhase s).trace = (sendResponse (nextVerdict s) s).trace ++
      if s.hasDirPin ∧ (transmitPhase s).txPending = false then [.dir (!s.params.txLevel)] else [] := by
  obtain ⟨u, rfl, -, -, -, -, -, ⟨-, ht⟩ | ⟨-, ht⟩⟩ := transmitPhase_cases h <;> rw [ht] <;> simp

end

theorem LineStep.bank {s t : State} (h : LineStep s t) (sp : Space) : t.bank sp = s.bank sp := by
  rw [h]
  cases sp <;> rfl

theorem LineStep.reg {s t : State} (h : LineStep s t) (sp : Space) (a : Nat) : t.reg sp a = s.reg sp a := by
  rw [State.reg, h.bank, State.reg]

/-- Settles O46: `sendResponse_spec` orders the events up to the completion test, which asks whether a byte is left; the
line is released exactly where none is. -/
theorem transmitPhaseOrdersItsOutputs : Obligations.TransmitPhaseOrdersItsOutputs := by
  intro s
  refine ⟨transmitPhase_idle, fun h => ?_⟩
  have hstep := lineStep_transmitPhase s
  obtain ⟨hidle, hlen⟩ := transmitPhase_engine h
  obtain ⟨w0, w1, w2, hbefore, hbytes, hblock, hsend⟩ := sendResponse_spec (nextVerdict s) s
  rw [← transmitPhase_tx h] at hbytes hblock
  refine ⟨w0, w1, w2, takenBytes (nextVerdict s) s.frame, takenBytes_sublist _ _, fun ha => if_pos ha, hbefore, hbytes,
    ?_, hidle, hlen, transmitPhase_pending h, transmitPhase_dirState h, fun hb => ?_, hstep.reg, by rw [hstep],
    by rw [hstep]⟩
  · rw [transmitPhase_trace h, hsend]
  · exact Bool.eq_false_iff.mpr fun hp => (transmitPhase_pending h).mp hp (hblock hb)

/-! ## Responses in one `step()` -/

/-- `t` has output what `s` had and more, of which at most `n` events are responses. -/
def AddsResponses (n : Nat) (s t : State) : Prop :=
  ∃ added, t.trace = s.trace ++ added ∧ added.countP isTx ≤ n

theorem AddsResponses.of_trace_eq {s t : State} (h : t.trace = s.trace) : AddsResponses 0 s t :=
  ⟨[], by rw [h, List.append_nil], Nat.le_refl 0⟩

theorem AddsResponses.trans {m n : Nat} {s t u : State} (h1 : AddsResponses m s t) (h2 : AddsResponses n t u) :
    AddsResponses (m + n) s u := by
  obtain ⟨x, hx, hm⟩ := h1
  obtain ⟨y, hy, hn⟩ := h2
  refine ⟨x ++ y, by rw [hy, hx, List.append_assoc], ?_⟩
  rw [List.countP_append]
  exact Nat.add_le_add hm hn

theorem assertReceive_addsResponses (s : State) : AddsResponses 0 s (assertReceive s) := by
  rw [assertReceive_eq]
  refine ⟨_, rfl, ?_⟩
  split <;> simp [isTx]

theorem releasePhase_addsResponses (s : State) : AddsResponses 0 s (releasePhase s) := by
  cases hp : s.txPending with
  | false =>
    rw [releasePhase_of_not_pending hp]
    exact assertReceive_addsResponses s
  | true =>
    by_cases hf : s.flushComplete = true
    · rw [releasePhase_of_flushed hp hf]
      exact assertReceive_addsResponses { s with txPending := false }
    · rw [releasePhase_of_unflushed hp hf]
      exact .of_trace_eq rfl

theorem countP_isTx_wires (w : List Byte) : (w.map Event.wire).countP isTx = 0 := by
  simp [isTx]

theorem transmitPhase_addsResponses (s : State) : AddsResponses 1 s (transmitPhase s) := by
  by_cases h : s.feState = .responding
  · obtain ⟨w0, w1, w2, taken, -, -, -, -, htrace, -⟩ := (transmitPhaseOrdersItsOutputs s).2 h
    simp only [List.append_assoc] at htrace
    refine ⟨_, htrace, ?_⟩
    simp only [List.countP_append, countP_isTx_wires]
    split <;> split <;> simp [isTx]
  · rw [transmitPhase_idle h]
    exact ⟨[], by rw [List.append_nil], Nat.zero_le 1⟩

/-- Settles O48: of the three phases only the third writes, once. -/
theorem atMostOneResponsePerStep : Obligations.AtMostOneResponsePerStep := by
  intro s t h
  rcases pollStep_cases h with ⟨-, rfl⟩ | ⟨-, u, v, rfl, -, rfl, -, hdrain, -⟩
  · exact ⟨[], by rw [List.append_nil], Nat.zero_le 1⟩
  · have hquiet : AddsResponses 0 (releasePhase s) v := .of_trace_eq (by rw [hdrain.same])
    exact ((releasePhase_addsResponses s).trans hquiet).trans (transmitPhase_addsResponses v)

end Sys2Proof.Machine

/-! The moves of the host, the line and the transmitter: their results, and what each leaves (00_scope.md R9, R10;
70_reset_and_hazards.md R327). -/

namespace Sys2Proof.Machine

/-! ## What a move may change -/

/-- What the host's Register API may change: the Register Store and the callback bookkeeping (44_register_store.md R220 to
R226). -/
def HostStep (s t : State) : Prop :=
  t = { s with holding := t.holding, input := t.input, ranges := t.ranges,
               cbHoldingRead := t.cbHoldingRead, cbHoldingWrite := t.cbHoldingWrite,
               cbInputRead := t.cbInputRead, cbInputWrite := t.cbInputWrite,
               calls := t.calls, hostAnswers := t.hostAnswers, draws := t.draws }

theorem HostStep.refl (s : State) : HostStep s s := rfl

theorem SameButCalls.hostStep {s t : State} (h : SameButCalls s t) : HostStep s t := by
  unfold SameButCalls at h
  unfold HostStep
  rw [h]

theorem readReg_hostStep (sp : Space) (a : Nat) (s : State) : HostStep s (readReg sp a s).2 :=
  (readReg_same sp a s).hostStep

theorem writeReg_hostStep (sp : Space) (a : Nat) (v : Word) (s : State) : HostStep s (writeReg sp a v s).2 := by
  have h := writeReg_same sp a v s
  generalize (writeReg sp a v s).2 = t at h
  unfold SameButCalls at h
  unfold HostStep
  rw [h]
  cases sp <;> rfl

theorem declareRange_hostStep (sp : Space) (start count initial : Word) (s : State) :
    HostStep s (declareRange sp start count initial s).2 := by
  rcases declareRange_spec sp start count initial s with ⟨hr, -⟩ | ⟨hr, -⟩ | ⟨hr, -⟩ | ⟨-, -, -, -, hr⟩ <;> rw [hr]
  · exact HostStep.refl s
  · exact HostStep.refl s
  · exact HostStep.refl s
  · cases sp <;> rfl

theorem bindCallback_hostStep (sp : Space) (a : Word) (acc : Access) (count : Word) (handle : Nat) (s : State) :
    HostStep s (bindCallback sp a acc count handle s).2 := by
  unfold bindCallback
  split
  · exact HostStep.refl s
  · cases sp <;> cases acc <;> rfl

theorem HostStep.results {s t : State} (h : HostStep s t) : t.results = s.results := by
  rw [h]

/-- `setup` is refused, or configures a block that has not been set up (45_direction_and_polling.md R258). -/
theorem setup_cases (addr : Byte) (pin : Bool) (s : State) :
    setup addr pin s = (.configError, s) ∨
    (s.setupDone = false ∧ legalSlaveAddr addr = true ∧ setup addr pin s = (.done, configure addr pin s)) := by
  cases hs : s.setupDone with
  | true => exact .inl (setup_again hs addr pin)
  | false =>
    cases ha : legalSlaveAddr addr with
    | false => exact .inl (setup_illegal (by rw [ha]; decide) pin s)
    | true => exact .inr ⟨rfl, rfl, by rw [setup_first hs, if_pos ha]⟩

/-! ## Each move does its operation -/

theorem wireOne_nil {s : State} (h : s.tx = []) : wireOne s = s := by
  rw [wireOne, h]

theorem wireOne_cons {s : State} {b : Byte} {bs : List Byte} (h : s.tx = b :: bs) :
    wireOne s = { s with tx := bs, trace := s.trace ++ [.wire b] } := by
  rw [wireOne, h]
  rfl

theorem hostRead_undeclared {sp : Space} {a : Word} {s : State} (h : s.declared sp a.toNat = false) :
    hostRead sp a s = (.outOfRange, s) := by
  rw [hostRead, readReg_undeclared h]

theorem hostRead_value {sp : Space} {a v : Word} {s t : State} (h : readReg sp a.toNat s = (some v, t)) :
    hostRead sp a s = (.value v, t) := by
  rw [hostRead, h]

theorem hostWrite_undeclared {sp : Space} {a : Word} {s : State} (h : s.declared sp a.toNat = false) (v : Word) :
    hostWrite sp a v s = (.outOfRange, s) := by
  rw [hostWrite, writeReg_undeclared h]

theorem hostWrite_success {sp : Space} {a v : Word} {s t : State} (h : writeReg sp a.toNat v s = (true, t)) :
    hostWrite sp a v s = (.success, t) := by
  rw [hostWrite, h]

theorem declared_with_agenda (s : State) (rest : List Move) (sp : Space) (a : Nat) :
    State.declared { s with agenda := rest } sp a = s.declared sp a := by
  cases sp <;> rfl

/-- A host call that keeps the list of results appends its own (00_scope.md R10 (d)). -/
theorem step_hostCall {s t : State} {m : Move} {rest : List Move} {r : HostResult} (hm : s.agenda = m :: rest)
    (hcall : perform m { s with agenda := rest } = hostCall (r, t)) (hkept : t.results = s.results) :
    step s = .next { t with results := s.results ++ [r] } := by
  rw [step_of_agenda hm, hcall, ← hkept]
  rfl

/-- The same of a call of the Register API, whose result and state are `call`. -/
theorem step_registerCall {s : State} {m : Move} {rest : List Move} {call : HostResult × State}
    (hm : s.agenda = m :: rest) (hcall : perform m { s with agenda := rest } = hostCall call)
    (hstep : HostStep { s with agenda := rest } call.2) :
    step s = .next { call.2 with results := s.results ++ [call.1] } :=
  step_hostCall hm hcall hstep.results

theorem setup_results (addr : Byte) (pin : Bool) (s : State) : (setup addr pin s).2.results = s.results := by
  rcases setup_cases addr pin s with h | ⟨-, -, h⟩ <;> rw [h]
  rw [configure_eq]

theorem hostRead_hostStep (sp : Space) (a : Word) (s : State) : HostStep s (hostRead sp a s).2 := by
  rw [hostRead_state]
  exact readReg_hostStep sp a.toNat s

theorem hostWrite_hostStep (sp : Space) (a v : Word) (s : State) : HostStep s (hostWrite sp a v s).2 := by
  rw [hostWrite_state]
  exact writeReg_hostStep sp a.toNat v s

theorem pollStep_results_agenda {s t : State} (h : pollStep s = .next t) :
    t.results = s.results ∧ t.agenda = s.agenda := by
  rcases pollStep_cases h with ⟨-, rfl⟩ | ⟨-, u, v, -, -, -, hrelease, hdrain, htransmit⟩
  · exact ⟨rfl, rfl⟩
  · have hdrain := hdrain.same
    constructor <;> rw [htransmit, hdrain, hrelease]

/-- Settles O60: `perform` names the operation of each move; a host call appends its result to a list the operation keeps. -/
theorem everyMoveDoesItsOperation : Obligations.EveryMoveDoesItsOperation := by
  refine ⟨fun s m rest hm => ?_, fun s t => pollStep_results_agenda⟩
  dsimp only
  refine ⟨?_, ?_, ?_, ?_, ?_, ?_, ?_, ?_, ?_, ?_, ?_, ?_⟩
  · rintro rfl
    exact step_of_agenda hm
  · rintro addr pin r t rfl hr
    have hkept := setup_results addr pin { s with agenda := rest }
    rw [hr] at hkept
    exact step_hostCall hm (congrArg hostCall hr) hkept
  · rintro sp start count initial r t rfl hr
    have hstep := declareRange_hostStep sp start count initial { s with agenda := rest }
    rw [hr] at hstep
    exact step_registerCall hm (congrArg hostCall hr) hstep
  · rintro sp a acc count handle r t rfl hr
    have hstep := bindCallback_hostStep sp a acc count handle { s with agenda := rest }
    rw [hr] at hstep
    exact step_registerCall hm (congrArg hostCall hr) hstep
  · rintro sp a rfl
    rw [← declared_with_agenda s rest]
    refine ⟨fun hd => ?_, fun hd => ?_⟩
    · exact step_registerCall hm (congrArg hostCall (hostRead_undeclared hd)) (HostStep.refl _)
    · obtain ⟨w, hw⟩ := declared_eq_true_iff.mp hd
      have hread := readReg_stored hw (Prod.eta _).symm
      have hstep := readReg_hostStep sp a.toNat { s with agenda := rest }
      rw [hread] at hstep
      exact ⟨_, _, hread, step_registerCall hm (congrArg hostCall (hostRead_value hread)) hstep⟩
  · rintro sp a v rfl
    rw [← declared_with_agenda s rest]
    refine ⟨fun hd => ?_, fun hd => ?_⟩
    · exact step_registerCall hm (congrArg hostCall (hostWrite_undeclared hd v)) (HostStep.refl _)
    · have hwrite := writeReg_success hd v
      exact ⟨_, hwrite, step_registerCall hm (congrArg hostCall (hostWrite_success hwrite))
        (writeReg_hostStep sp a.toNat v _)⟩
  · rintro b rfl
    exact step_of_agenda hm
  · rintro rfl
    exact step_of_agenda hm
  · rintro rfl harmed
    exact (step_of_agenda hm).trans (congrArg Host.Outcome.next (receiveSilence_armed harmed))
  · rintro rfl harmed
    exact (step_of_agenda hm).trans (congrArg Host.Outcome.next (receiveSilence_unarmed harmed))
  · rintro rfl htx
    exact (step_of_agenda hm).trans (congrArg Host.Outcome.next (wireOne_nil htx))
  · rintro b bs rfl htx
    exact (step_of_agenda hm).trans (congrArg Host.Outcome.next (wireOne_cons htx))

/-! ## What no move changes -/

/-- What a call of the Register API and a move of the line keep: the Frame Engine, the transmit side with its trace, the
configuration and the agenda. -/
def OutsideStep (s t : State) : Prop :=
  t = { s with holding := t.holding, input := t.input, ranges := t.ranges,
               cbHoldingRead := t.cbHoldingRead, cbHoldingWrite := t.cbHoldingWrite,
               cbInputRead := t.cbInputRead, cbInputWrite := t.cbInputWrite,
               rx := t.rx, gapArmed := t.gapArmed, calls := t.calls, results := t.results,
               hostAnswers := t.hostAnswers, draws := t.draws }

theorem HostStep.outsideStep_noteResult {s t : State} (h : HostStep s t) (r : HostResult) :
    OutsideStep s (noteResult r t) := by
  unfold HostStep at h
  unfold OutsideStep
  rw [h]
  rfl

theorem receiveSilence_outsideStep (s : State) : OutsideStep s (receiveSilence s) := by
  unfold receiveSilence
  split <;> rfl

/-- The transmitter idles, or the oldest byte leaves (45_direction_and_polling.md R253). -/
theorem wireOne_cases (s : State) : wireOne s = s ∨
    ∃ b bs, s.tx = b :: bs ∧ wireOne s = { s with tx := bs, trace := s.trace ++ [.wire b] } := by
  cases h : s.tx with
  | nil => exact .inl (wireOne_nil h)
  | cons b bs => exact .inr ⟨b, bs, rfl, wireOne_cons h⟩

/-- Everything a move can be: `step()`, `setup`, a move of the transmitter, or one that keeps all but the Register Store, the
RX stream and the host's records. -/
theorem perform_cases {m : Move} {s t : State} (h : perform m s = .next t) :
    (m = .callStep ∧ pollStep s = .next t) ∨
    (∃ addr pin, t = noteResult (setup addr pin s).1 (setup addr pin s).2) ∨
    t = wireOne s ∨ OutsideStep s t := by
  cases m with
  | callStep => exact .inl ⟨rfl, h⟩
  | callSetup addr pin => cases h; exact .inr (.inl ⟨addr, pin, rfl⟩)
  | callDeclareRange sp start count initial =>
    cases h; exact .inr (.inr (.inr ((declareRange_hostStep ..).outsideStep_noteResult _)))
  | callRead sp a => cases h; exact .inr (.inr (.inr ((hostRead_hostStep ..).outsideStep_noteResult _)))
  | callWrite sp a v => cases h; exact .inr (.inr (.inr ((hostWrite_hostStep ..).outsideStep_noteResult _)))
  | callBindCallback sp a acc count handle =>
    cases h; exact .inr (.inr (.inr ((bindCallback_hostStep ..).outsideStep_noteResult _)))
  | lineByte b => cases h; exact .inr (.inr (.inr rfl))
  | lineError => cases h; exact .inr (.inr (.inr rfl))
  | lineSilence => cases h; exact .inr (.inr (.inr (receiveSilence_outsideStep s)))
  | wireByte => cases h; exact .inr (.inr (.inl rfl))

/-- `t` has the configuration of `s`, but that a block not yet set up may have been (70_reset_and_hazards.md R327). -/
def SameConfiguration (s t : State) : Prop :=
  t.params = s.params ∧
    (s.setupDone = true → t.setupDone = true ∧ t.slaveAddr = s.slaveAddr ∧ t.hasDirPin = s.hasDirPin)

theorem pollStep_sameConfiguration {s t : State} (h : pollStep s = .next t) : SameConfiguration s t := by
  rcases pollStep_cases h with ⟨-, rfl⟩ | ⟨-, u, v, -, -, -, hrelease, hdrain, htransmit⟩
  · exact ⟨rfl, fun h => ⟨h, rfl, rfl⟩⟩
  · have hdrain := hdrain.same
    refine ⟨by rw [htransmit, hdrain, hrelease], fun h => ⟨?_, ?_, ?_⟩⟩
    · rw [htransmit, hdrain, hrelease, h]
    · rw [htransmit, hdrain, hrelease]
    · rw [htransmit, hdrain, hrelease]

theorem setup_sameConfiguration (addr : Byte) (pin : Bool) (s : State) : SameConfiguration s (setup addr pin s).2 := by
  rcases setup_cases addr pin s with h | ⟨hs, -, h⟩ <;> rw [h]
  · exact ⟨rfl, fun h => ⟨h, rfl, rfl⟩⟩
  · rw [configure_eq]
    exact ⟨rfl, fun h => absurd (hs.symm.trans h) Bool.false_ne_true⟩

theorem wireOne_sameConfiguration (s : State) : SameConfiguration s (wireOne s) := by
  rcases wireOne_cases s with h | ⟨b, bs, -, h⟩ <;> rw [h] <;> exact ⟨rfl, fun h => ⟨h, rfl, rfl⟩⟩

theorem OutsideStep.sameConfiguration {s t : State} (h : OutsideStep s t) : SameConfiguration s t := by
  refine ⟨by rw [h], fun hs => ⟨?_, ?_, ?_⟩⟩
  · rw [h, hs]
  · rw [h]
  · rw [h]

/-- Settles O59: only `setup` writes the configuration, and only before it has run. -/
theorem configurationIsFixedAfterSetup : Obligations.ConfigurationIsFixedAfterSetup := by
  intro s t h
  rcases step_cases h with ⟨a, hpoll⟩ | ⟨m, rest, -, -, hperform⟩
  · exact pollStep_sameConfiguration (s := { s with agenda := a }) hpoll
  · rcases perform_cases hperform with ⟨-, hpoll⟩ | ⟨addr, pin, rfl⟩ | rfl | hout
    · exact pollStep_sameConfiguration (s := { s with agenda := rest }) hpoll
    · exact setup_sameConfiguration addr pin { s with agenda := rest }
    · exact wireOne_sameConfiguration { s with agenda := rest }
    · exact hout.sameConfiguration

end Sys2Proof.Machine

/-! The Register Store over every move: nothing declared is lost, and its invariant is kept (10_state.md R21, R22, R41;
70_reset_and_hazards.md R327). -/

namespace Sys2Proof.Machine

/-! ## Moves that declare and bind nothing -/

/-- What every move but `declare_range` and `bind_callback` keeps of the Register Store: all but the registers' values. -/
structure StoreKept (s t : State) : Prop where
  ranges : t.ranges = s.ranges
  callbacks : ∀ sp acc, t.callbacks sp acc = s.callbacks sp acc
  declared : ∀ sp a, t.declared sp a = s.declared sp a
  memory : ∀ sp, Cells.wf (s.bank sp) = true → Cells.wf (t.bank sp) = true

theorem StoreKept.refl (s : State) : StoreKept s s :=
  ⟨rfl, fun _ _ => rfl, fun _ _ => rfl, fun _ => id⟩

theorem StoreKept.trans {s t u : State} (h1 : StoreKept s t) (h2 : StoreKept t u) : StoreKept s u :=
  ⟨h2.ranges.trans h1.ranges, fun sp acc => (h2.callbacks sp acc).trans (h1.callbacks sp acc),
    fun sp a => (h2.declared sp a).trans (h1.declared sp a), fun sp h => h2.memory sp (h1.memory sp h)⟩

theorem StoreKept.of_bank_eq {s t : State} (hr : t.ranges = s.ranges)
    (hc : ∀ sp acc, t.callbacks sp acc = s.callbacks sp acc) (hb : ∀ sp, t.bank sp = s.bank sp) : StoreKept s t :=
  ⟨hr, hc, fun sp a => by rw [State.declared, State.reg, hb, State.declared, State.reg], fun sp h => by rwa [hb]⟩

theorem LineStep.callbacks {s t : State} (h : LineStep s t) (sp : Space) (acc : Access) :
    t.callbacks sp acc = s.callbacks sp acc := by
  rw [h]
  cases sp <;> cases acc <;> rfl

theorem LineStep.storeKept {s t : State} (h : LineStep s t) : StoreKept s t :=
  .of_bank_eq (by rw [h]) h.callbacks h.bank

theorem SameButCalls.storeKept {s t : State} (h : SameButCalls s t) : StoreKept s t :=
  .of_bank_eq (by rw [h]) (fun sp acc => by rw [h]; cases sp <;> cases acc <;> rfl) h.bank

theorem EngineStep.storeKept {s t : State} (h : EngineStep s t) : StoreKept s t where
  ranges := by rw [h.same]
  callbacks := h.callbacks
  declared := h.declared_any
  memory
    | .holding => h.wf
    | .input => fun hw => by rwa [State.bank, h.bank_input]

theorem noteResult_storeKept (r : HostResult) (s : State) : StoreKept s (noteResult r s) :=
  .of_bank_eq rfl (callbacks_noteResult r s) (bank_noteResult r s)

theorem receiveItem_storeKept (item : RxItem) (s : State) : StoreKept s (receiveItem item s) :=
  .of_bank_eq rfl (callbacks_receiveItem item s) (bank_receiveItem item s)

theorem receiveSilence_storeKept (s : State) : StoreKept s (receiveSilence s) := by
  unfold receiveSilence
  split
  · exact .of_bank_eq rfl (fun sp acc => by cases sp <;> cases acc <;> rfl) (fun sp => by cases sp <;> rfl)
  · exact .refl s

theorem agenda_storeKept (rest : List Move) (s : State) : StoreKept s { s with agenda := rest } :=
  .of_bank_eq rfl (fun sp acc => by cases sp <;> cases acc <;> rfl) (fun sp => by cases sp <;> rfl)

theorem setup_storeKept (addr : Byte) (pin : Bool) (s : State) : StoreKept s (setup addr pin s).2 := by
  rcases setup_cases addr pin s with h | ⟨-, -, h⟩ <;> rw [h]
  · exact .refl s
  · rw [configure_eq]
    exact .of_bank_eq rfl (fun sp acc => by cases sp <;> cases acc <;> rfl) (fun sp => by cases sp <;> rfl)

/-- A write changes the value of a register, and neither what is declared nor the other bank. -/
theorem writeReg_storeKept (sp : Space) (a : Nat) (v : Word) (s : State) : StoreKept s (writeReg sp a v s).2 where
  ranges := (writeReg_same sp a v s).storeKept.ranges.trans (setBank_ranges ..)
  callbacks sp' acc := ((writeReg_same sp a v s).storeKept.callbacks sp' acc).trans (callbacks_setBank ..)
  declared := writeReg_declared sp a v s
  memory sp' hw := by
    by_cases h : sp' = sp
    · subst h
      exact writeReg_wf sp' a v s hw
    · rwa [writeReg_bank_other h]

theorem pollStep_storeKept {s t : State} (h : pollStep s = .next t) : StoreKept s t := by
  rcases pollStep_cases h with ⟨-, rfl⟩ | ⟨-, u, v, -, -, -, hrelease, hdrain, htransmit⟩
  · exact .refl _
  · exact hrelease.storeKept.trans (hdrain.storeKept.trans htransmit.storeKept)

/-- Every move but two keeps the Register Store. -/
theorem perform_storeKept {m : Move} {s t : State} (h : perform m s = .next t) :
    (∃ sp start count initial, m = .callDeclareRange sp start count initial) ∨
    (∃ sp a acc count handle, m = .callBindCallback sp a acc count handle) ∨ StoreKept s t := by
  cases m with
  | callStep => exact .inr (.inr (pollStep_storeKept h))
  | callSetup addr pin =>
    cases h; exact .inr (.inr ((setup_storeKept addr pin s).trans (noteResult_storeKept _ _)))
  | callDeclareRange sp start count initial => exact .inl ⟨sp, start, count, initial, rfl⟩
  | callRead sp a =>
    cases h
    rw [hostRead_state]
    exact .inr (.inr ((readReg_same sp a.toNat s).storeKept.trans (noteResult_storeKept _ _)))
  | callWrite sp a v =>
    cases h
    rw [hostWrite_state]
    exact .inr (.inr ((writeReg_storeKept sp a.toNat v s).trans (noteResult_storeKept _ _)))
  | callBindCallback sp a acc count handle => exact .inr (.inl ⟨sp, a, acc, count, handle, rfl⟩)
  | lineByte b => cases h; exact .inr (.inr (receiveItem_storeKept _ s))
  | lineError => cases h; exact .inr (.inr (receiveItem_storeKept _ s))
  | lineSilence => cases h; exact .inr (.inr (receiveSilence_storeKept s))
  | wireByte => cases h; exact .inr (.inr (lineStep_wireMany 1 s).storeKept)

/-! ## The two moves that declare and bind -/

/-- `declare_range` changes nothing, or adds a range that shares no address with those there (44_register_store.md R220). -/
theorem declareRange_cases (sp : Space) (start count initial : Word) (s : State) :
    (declareRange sp start count initial s).2 = s ∨
    (start.toNat + count.toNat ≤ 65536 ∧ count ≠ 0 ∧ (∀ q ∈ s.ranges, q.overlaps sp start count = false) ∧
      (declareRange sp start count initial s).2 =
        { s.setBank sp (allocate initial start.toNat count.toNat (s.bank sp)) with
          ranges := s.ranges ++ [⟨sp, start, count⟩] }) := by
  rcases declareRange_spec sp start count initial s with ⟨hr, -⟩ | ⟨hr, -⟩ | ⟨hr, -⟩ | ⟨hin, h0, -, hov, hr⟩ <;> rw [hr]
  · exact .inl rfl
  · exact .inl rfl
  · exact .inl rfl
  · exact .inr ⟨hin, h0, hov, rfl⟩

theorem declared_with_ranges (s : State) (rs : List RegRange) (sp : Space) (a : Nat) :
    State.declared { s with ranges := rs } sp a = s.declared sp a := by
  cases sp <;> rfl

theorem callbacks_with_ranges (s : State) (rs : List RegRange) (sp : Space) (acc : Access) :
    State.callbacks { s with ranges := rs } sp acc = s.callbacks sp acc := by
  cases sp <;> cases acc <;> rfl

/-- A run of registers allocated is declared, beside what was. -/
theorem declared_setBank_allocate (s : State) (sp sp' : Space) (initial : Word) (a n b : Nat) :
    (s.setBank sp (allocate initial a n (s.bank sp))).declared sp' b = true ↔
      (sp' = sp ∧ a ≤ b ∧ b < a + n) ∨ s.declared sp' b = true := by
  rw [State.declared, reg_setBank, allocate_get]
  by_cases h : sp' = sp
  · subst h
    by_cases hrun : a ≤ b ∧ b < a + n
    · simp [hrun]
    · rw [if_pos rfl, if_neg hrun]
      simp [hrun, State.declared, State.reg]
  · simp [h, State.declared]

theorem bindCallback_cases (sp : Space) (a : Word) (acc : Access) (count : Word) (handle : Nat) (s : State) :
    (bindCallback sp a acc count handle s).2 = s ∨
    (bindCallback sp a acc count handle s).2 =
      s.setCallbacks sp acc (bindAll handle a.toNat count.toNat (s.callbacks sp acc)) := by
  unfold bindCallback
  split
  · exact .inl rfl
  · exact .inr rfl

/-! ## Nothing is lost -/

/-- Nothing that `s` has declared, added or bound is missing in `t`. -/
structure Grows (s t : State) : Prop where
  declared : ∀ sp a, s.declared sp a = true → t.declared sp a = true
  ranges : ∀ r, r ∈ s.ranges → r ∈ t.ranges
  bound : ∀ sp acc a, (s.callback sp acc a).isSome = true → (t.callback sp acc a).isSome = true

theorem StoreKept.grows {s t : State} (h : StoreKept s t) : Grows s t :=
  ⟨fun sp a hd => (h.declared sp a).trans hd, fun r hr => h.ranges ▸ hr,
    fun sp acc a hb => by rwa [State.callback, h.callbacks]⟩

theorem Grows.trans {s t u : State} (h1 : Grows s t) (h2 : Grows t u) : Grows s u :=
  ⟨fun sp a h => h2.declared sp a (h1.declared sp a h), fun r h => h2.ranges r (h1.ranges r h),
    fun sp acc a h => h2.bound sp acc a (h1.bound sp acc a h)⟩

theorem declareRange_grows (sp : Space) (start count initial : Word) (s : State) :
    Grows s (declareRange sp start count initial s).2 := by
  rcases declareRange_cases sp start count initial s with h | ⟨-, -, -, h⟩ <;> rw [h]
  · exact (StoreKept.refl s).grows
  · refine ⟨fun sp' a hd => ?_, fun r hr => List.mem_append_left _ hr, fun sp' acc a hb => ?_⟩
    · rw [declared_with_ranges, declared_setBank_allocate]
      exact .inr hd
    · rwa [State.callback, callbacks_with_ranges, callbacks_setBank]

theorem bindCallback_grows (sp : Space) (a : Word) (acc : Access) (count : Word) (handle : Nat) (s : State) :
    Grows s (bindCallback sp a acc count handle s).2 := by
  rcases bindCallback_cases sp a acc count handle s with h | h <;> rw [h]
  · exact (StoreKept.refl s).grows
  · refine ⟨fun sp' b hd => ?_, fun r hr => ?_, fun sp' acc' b hb => ?_⟩
    · rwa [State.declared, State.reg, bank_setCallbacks]
    · rwa [setCallbacks_ranges]
    · rw [callback_bindAll]
      split
      · rfl
      · exact hb

theorem perform_grows {m : Move} {s t : State} (h : perform m s = .next t) : Grows s t := by
  rcases perform_storeKept h with ⟨sp, start, count, initial, rfl⟩ | ⟨sp, a, acc, count, handle, rfl⟩ | hkept
  · cases h
    exact (declareRange_grows ..).trans (noteResult_storeKept _ _).grows
  · cases h
    exact (bindCallback_grows ..).trans (noteResult_storeKept _ _).grows
  · exact hkept.grows

/-- Settles O58: two moves add to the store, every other keeps it. -/
theorem declarationsAreNeverLost : Obligations.DeclarationsAreNeverLost := by
  refine ⟨fun s t h => ?_, fun s t h => ?_⟩
  · have hgrows : Grows s t := by
      rcases step_cases h with ⟨a, hpoll⟩ | ⟨m, rest, -, -, hperform⟩
      · exact (agenda_storeKept a s).grows.trans (pollStep_storeKept hpoll).grows
      · exact (agenda_storeKept rest s).grows.trans (perform_grows hperform)
    exact ⟨hgrows.declared, hgrows.ranges, hgrows.bound⟩
  · have hkept := pollStep_storeKept h
    exact ⟨hkept.declared, hkept.ranges, fun sp acc a => by rw [State.callback, hkept.callbacks, State.callback]⟩

/-! ## The invariant -/

/-- Settles O50: nothing is declared, added or bound. -/
theorem storeSoundAtReset : Obligations.StoreSoundAtReset where
  memory := reset_memory_wf
  callbacks sp acc := by rw [reset_callbacks]; rfl
  inside _ hr := absurd hr List.not_mem_nil
  disjoint := List.Pairwise.nil
  declared sp a := by
    rw [reset_declared]
    exact ⟨fun h => absurd h Bool.false_ne_true, fun ⟨_, hr, _⟩ => absurd hr List.not_mem_nil⟩

theorem StoreInv.of_storeKept {s t : State} (h : StoreInv s) (hk : StoreKept s t) : StoreInv t where
  memory sp := hk.memory sp (h.memory sp)
  callbacks sp acc := by rw [hk.callbacks]; exact h.callbacks sp acc
  inside := by rw [hk.ranges]; exact h.inside
  disjoint := by rw [hk.ranges]; exact h.disjoint
  declared sp a := by rw [hk.declared, hk.ranges]; exact h.declared sp a

/-- A range beside the others keeps the invariant: its addresses are the ones that become declared (10_state.md R22). -/
theorem declareRange_storeInv {s : State} (h : StoreInv s) (sp : Space) (start count initial : Word) :
    StoreInv (declareRange sp start count initial s).2 := by
  have hmemory := fun sp' => declareRange_wf sp start count initial s sp' h.memory
  rcases declareRange_cases sp start count initial s with hr | ⟨hin, h0, hov, hr⟩
  · rwa [hr]
  · rw [hr] at hmemory ⊢
    refine ⟨hmemory, fun sp' acc => ?_, fun r hmem => ?_, ?_, fun sp' a => ?_⟩
    · rw [callbacks_with_ranges, callbacks_setBank]
      exact h.callbacks sp' acc
    · rcases List.mem_append.mp hmem with hold | hnew
      · exact h.inside r hold
      · rw [List.mem_singleton.mp hnew]
        exact ⟨Nat.pos_of_ne_zero fun hz => h0 (BitVec.eq_of_toNat_eq hz), hin⟩
    · refine List.pairwise_append.mpr ⟨h.disjoint, List.pairwise_singleton _ _, fun r hold q hnew => ?_⟩
      rw [List.mem_singleton.mp hnew]
      exact hov r hold
    · rw [declared_with_ranges, declared_setBank_allocate, h.declared]
      simp only [List.mem_append, List.mem_singleton, or_and_right, exists_or, exists_eq_left, RegRange.covers,
        eq_comm (a := sp')]
      exact or_comm

theorem bindCallback_storeInv {s : State} (h : StoreInv s) (sp : Space) (a : Word) (acc : Access) (count : Word)
    (handle : Nat) : StoreInv (bindCallback sp a acc count handle s).2 := by
  have hwf := fun sp' acc' => bindCallback_wf sp a acc count handle s sp' acc' h.callbacks
  rcases bindCallback_cases sp a acc count handle s with hr | hr
  · rwa [hr]
  · rw [hr] at hwf ⊢
    refine ⟨fun sp' => ?_, hwf, ?_, ?_, fun sp' b => ?_⟩
    · rw [bank_setCallbacks]
      exact h.memory sp'
    · rw [setCallbacks_ranges]
      exact h.inside
    · rw [setCallbacks_ranges]
      exact h.disjoint
    · rw [setCallbacks_ranges, State.declared, State.reg, bank_setCallbacks]
      exact h.declared sp' b

theorem perform_storeInv {m : Move} {s t : State} (h : StoreInv s) (hm : perform m s = .next t) : StoreInv t := by
  rcases perform_storeKept hm with ⟨sp, start, count, initial, rfl⟩ | ⟨sp, a, acc, count, handle, rfl⟩ | hkept
  · cases hm
    exact (declareRange_storeInv h ..).of_storeKept (noteResult_storeKept _ _)
  · cases hm
    exact (bindCallback_storeInv h ..).of_storeKept (noteResult_storeKept _ _)
  · exact h.of_storeKept hkept

/-- Settles O51: `declare_range` adds exactly the addresses of its range, `bind_callback` keeps the maps in form, and every
other move keeps all that the invariant speaks of. -/
theorem stepKeepsStoreSound : Obligations.StepKeepsStoreSound := by
  intro s t h hstep
  rcases step_cases hstep with ⟨a, hpoll⟩ | ⟨m, rest, -, -, hperform⟩
  · exact (h.of_storeKept (agenda_storeKept a s)).of_storeKept (pollStep_storeKept hpoll)
  · exact perform_storeInv (h.of_storeKept (agenda_storeKept rest s)) hperform

end Sys2Proof.Machine

/-! The Frame Engine over every move: it is left between frames or inside a partial one, and no move stops (10_state.md R25,
R27, R31, R41; 60_exceptions.md R293). -/

namespace Sys2Proof.Machine

/-! ## The three phases -/

/-- Phase 1 does not touch the Frame Engine (45_direction_and_polling.md R263). -/
theorem releasePhase_eq (s : State) : releasePhase s = { s with
    txPending := (releasePhase s).txPending
    dirState := (releasePhase s).dirState
    dirOut := (releasePhase s).dirOut
    trace := (releasePhase s).trace } := by
  cases hp : s.txPending with
  | false =>
    rw [releasePhase_of_not_pending hp, assertReceive_eq]
  | true =>
    by_cases hf : s.flushComplete = true
    · rw [releasePhase_of_flushed hp hf, assertReceive_eq]
    · rw [releasePhase_of_unflushed hp hf]

/-- An engine that an item can be fed to: between frames, or inside a partial one that fits (41_frame_parser.md R140). -/
def Feedable (s : State) : Prop :=
  (s.feState = .idle ∧ s.len = 0) ∨ (s.feState = .accumulating ∧ 1 ≤ s.len ∧ s.len ≤ 256 ∧ partialFrame s.frame)

theorem EngineReady.feedable {s : State} (h : EngineReady s) (hr : s.feState ≠ .responding) : Feedable s := by
  rcases h with (⟨hresp, -⟩ | hidle) | hacc
  · exact absurd hresp hr
  · exact .inl hidle
  · exact .inr hacc

/-- The drain completes and leaves the engine ready (45_direction_and_polling.md R264). -/
theorem drain_spec (items : List RxItem) {s : State} (h : EngineReady s) :
    ∃ t, drain items s = .next t ∧ EngineReady t := by
  induction items generalizing s with
  | nil => exact ⟨_, rfl, h⟩
  | cons item rest ih =>
    by_cases hr : s.feState = .responding
    · exact ⟨_, drain_responding hr _, h⟩
    · obtain ⟨u, hfeed, -, hready⟩ := feed_spec item (s := { s with rx := rest }) (h.feedable hr)
      obtain ⟨t, hdrain, ht⟩ := ih hready
      refine ⟨t, ?_, ht⟩
      rw [drain_cons hr, hfeed]
      exact hdrain

/-- Phase 3 hands off the response, if any, so that the engine can be fed again (45_direction_and_polling.md R266). -/
theorem transmitPhase_feedable {s : State} (h : EngineReady s) : Feedable (transmitPhase s) := by
  by_cases hr : s.feState = .responding
  · exact .inl (transmitPhase_engine hr)
  · rw [transmitPhase_idle hr]
    exact h.feedable hr

/-! ## The invariant -/

theorem EngineInv.ready {s : State} (h : EngineInv s) : EngineReady s :=
  h.engine.elim (fun hidle => .inl (.inr hidle)) .inr

theorem pollStep_engineInv {s : State} (h : EngineInv s) : ∃ t, pollStep s = .next t ∧ EngineInv t := by
  cases hs : s.setupDone with
  | false => exact ⟨s, pollStep_before_setup hs, h⟩
  | true =>
    have hrelease : EngineReady (releasePhase s) := by
      rw [releasePhase_eq]
      exact h.ready
    obtain ⟨v, hdrain, hready⟩ := drain_spec s.rx hrelease
    have hpoll : pollStep s = .next (transmitPhase v) := by
      rw [pollStep, if_pos hs, hdrain, andThen]
    obtain ⟨hdone, haddr, -⟩ := (pollStep_sameConfiguration hpoll).2 hs
    refine ⟨_, hpoll, transmitPhase_feedable hready, fun _ => haddr ▸ h.slave hs, fun hno => ?_⟩
    exact absurd (hno.symm.trans hdone) Bool.false_ne_true

/-- `setup` leaves the engine `Idle` under a legal address (45_direction_and_polling.md R258). -/
theorem setup_engineInv {s : State} (h : EngineInv s) (addr : Byte) (pin : Bool) : EngineInv (setup addr pin s).2 := by
  rcases setup_cases addr pin s with hr | ⟨-, haddr, hr⟩ <;> rw [hr]
  · exact h
  · rw [configure_eq]
    exact ⟨.inl ⟨rfl, rfl⟩, fun _ => haddr, fun hno => absurd hno.symm Bool.false_ne_true⟩

theorem wireOne_engineInv {s : State} (h : EngineInv s) : EngineInv (wireOne s) := by
  rcases wireOne_cases s with hr | ⟨b, bs, -, hr⟩ <;> rw [hr] <;> exact ⟨h.engine, h.slave, h.fresh⟩

theorem OutsideStep.engineInv {s t : State} (hout : OutsideStep s t) (h : EngineInv s) : EngineInv t := by
  rw [hout]
  exact ⟨h.engine, h.slave, h.fresh⟩

/-- Every move but `step()` completes at once. -/
theorem perform_completes {m : Move} (hm : m ≠ .callStep) (s : State) : ∃ t, perform m s = .next t := by
  cases m with
  | callStep => exact absurd rfl hm
  | callSetup | callDeclareRange | callRead | callWrite | callBindCallback | lineByte | lineError | lineSilence
  | wireByte => exact ⟨_, rfl⟩

theorem perform_engineInv (m : Move) {s : State} (h : EngineInv s) : ∃ t, perform m s = .next t ∧ EngineInv t := by
  by_cases hm : m = .callStep
  · subst hm
    exact pollStep_engineInv h
  · obtain ⟨t, ht⟩ := perform_completes hm s
    refine ⟨t, ht, ?_⟩
    rcases perform_cases ht with ⟨hstep, -⟩ | ⟨addr, pin, rfl⟩ | rfl | hout
    · exact absurd hstep hm
    · have hsetup := setup_engineInv h addr pin
      exact ⟨hsetup.engine, hsetup.slave, hsetup.fresh⟩
    · exact wireOne_engineInv h
    · exact hout.engineInv h

/-- A step from a sound engine completes and leaves it sound. -/
theorem step_engineInv {s : State} (h : EngineInv s) : ∃ t, step s = .next t ∧ EngineInv t := by
  cases ha : s.agenda with
  | nil =>
    rw [step_of_empty_agenda ha]
    exact pollStep_engineInv h
  | cons m rest =>
    rw [step_of_agenda ha]
    exact perform_engineInv m ⟨h.engine, h.slave, h.fresh⟩

/-- Settles O52: `Idle` with an empty buffer, before `setup`. -/
theorem engineSoundAtReset : Obligations.EngineSoundAtReset :=
  ⟨.inl ⟨rfl, rfl⟩, fun h => absurd h Bool.false_ne_true, fun _ => rfl⟩

/-- Settles O53: the drain leaves the engine ready, by induction over the items, and phase 3 clears a response. -/
theorem stepKeepsEngineSound : Obligations.StepKeepsEngineSound := by
  intro s t h hstep
  obtain ⟨u, hu, hinv⟩ := step_engineInv h
  cases hu.symm.trans hstep
  exact hinv

/-- Settles O56: no item is fed to an engine that is not ready for one, and only such an item or an undecodable complete
frame would fault. -/
theorem everyMoveCompletes : Obligations.EveryMoveCompletes := by
  intro s h
  obtain ⟨t, ht, -⟩ := step_engineInv h
  exact ⟨t, ht⟩

end Sys2Proof.Machine

/-! The line over every move: the direction discipline (10_state.md R41; 45_direction_and_polling.md R261, R268). -/

namespace Sys2Proof.Machine

/-! ## The output with a pin bound -/

/-- The clauses of `LineInv` that speak of the output and the trace, where a pin is bound. Unlike `LineInv` it also holds
inside phase 3, where the pending flag does not yet follow the direction. -/
structure PinInv (s : State) : Prop where
  bound : s.hasDirPin = true
  pin : s.dirOut = s.params.txLevel ↔ s.dirState = .transmitting
  level : levelAfter none s.trace = some s.dirOut
  guarded : sentUnderTransmit s.params.txLevel none s.trace = true
  alternate : dirAlternates none s.trace = true

theorem LineInv.pinInv {s : State} (h : LineInv s) (hp : s.hasDirPin = true) : PinInv s :=
  ⟨hp, h.pin hp, h.level hp, h.guarded hp, h.alternate hp⟩

theorem LineInv.of_pinInv {s : State} (hpending : s.dirState = .transmitting ↔ s.txPending = true)
    (hqueue : s.txPending = false → s.tx = []) (hdone : s.setupDone = true) (hpin : s.hasDirPin = true → PinInv s) :
    LineInv s :=
  ⟨hpending, hqueue, fun hno => absurd (hno.symm.trans hdone) Bool.false_ne_true, fun hp => (hpin hp).pin,
    fun hp => (hpin hp).level, fun hp => (hpin hp).guarded, fun hp => (hpin hp).alternate⟩

/-- The trace grows by events that are in order after the level before them. -/
theorem PinInv.append {s t : State} {events : List Event} (h : PinInv s) (hbound : t.hasDirPin = s.hasDirPin)
    (hparams : t.params = s.params) (htrace : t.trace = s.trace ++ events)
    (hpin : t.dirOut = s.params.txLevel ↔ t.dirState = .transmitting)
    (hlevel : levelAfter (some s.dirOut) events = some t.dirOut)
    (hguarded : sentUnderTransmit s.params.txLevel (some s.dirOut) events = true)
    (halternate : dirAlternates (some s.dirOut) events = true) : PinInv t where
  bound := hbound.trans h.bound
  pin := by rwa [hparams]
  level := by rw [htrace, levelAfter_append, h.level, hlevel]
  guarded := by rw [htrace, hparams, sentUnderTransmit_append, h.guarded, h.level, hguarded]; rfl
  alternate := by rw [htrace, dirAlternates_append, h.alternate, h.level, halternate]; rfl

theorem PinInv.txLevel {s : State} (h : PinInv s) (hd : s.dirState = .transmitting) : s.dirOut = s.params.txLevel :=
  h.pin.mpr hd

theorem PinInv.rxLevel {s : State} (h : PinInv s) (hd : s.dirState = .receiving) : s.dirOut = !s.params.txLevel := by
  have hne : s.dirOut ≠ s.params.txLevel := fun he => by
    rw [h.pin.mp he] at hd
    cases hd
  exact Bool.eq_not.mpr hne

/-- Releasing the line records the change of level, if it is one (45_direction_and_polling.md R260, R261). -/
theorem PinInv.assertReceive {s : State} (h : PinInv s) : PinInv (assertReceive s) := by
  cases hd : s.dirState with
  | receiving => rwa [assertReceive_of_receiving hd]
  | transmitting =>
    rw [assertReceive_of_transmitting hd, drivePin_bound h.bound]
    refine h.append (events := [.dir (!s.params.txLevel)]) rfl rfl rfl ?_ rfl rfl ?_
    · simp [setLevel]
    · simp [dirAlternates, h.txLevel hd]

/-- So does taking the line (45_direction_and_polling.md R259, R261). -/
theorem PinInv.assertTransmit {s : State} (h : PinInv s) : PinInv (assertTransmit s) := by
  cases hd : s.dirState with
  | transmitting => rwa [assertTransmit_of_transmitting hd]
  | receiving =>
    rw [assertTransmit_of_receiving hd, drivePin_bound h.bound]
    refine h.append (events := [.dir s.params.txLevel]) rfl rfl rfl ?_ rfl rfl ?_
    · simp [setLevel]
    · simp [dirAlternates, h.rxLevel hd]

/-- Bytes leave under the transmit level where any byte waits only while transmitting (45_direction_and_polling.md R268). -/
theorem PinInv.wireMany {s : State} (h : PinInv s) (hq : s.tx ≠ [] → s.dirState = .transmitting) (n : Nat) :
    PinInv (wireMany n s) := by
  obtain ⟨w, hw, -, heq⟩ := wireMany_spec n s
  have hlevel : w ≠ [] → some s.dirOut = some s.params.txLevel := fun hne =>
    congrArg some (h.txLevel (hq (by rw [hw]; exact List.append_ne_nil_of_left_ne_nil hne _)))
  rw [heq]
  exact h.append rfl rfl rfl h.pin (levelAfter_wires _ w) (sentUnderTransmit_wires hlevel) (dirAlternates_wires _ w)

theorem PinInv.txWrite {s : State} (h : PinInv s) (hd : s.dirState = .transmitting) (v : TxVerdict) (bytes : List Byte) :
    PinInv (txWrite v bytes s) := by
  refine h.append (events := [.tx bytes]) rfl rfl rfl h.pin rfl ?_ rfl
  simp [sentUnderTransmit, h.txLevel hd]

theorem PinInv.flushReq {s : State} (h : PinInv s) : PinInv (emit .flushReq s) :=
  h.append (events := [.flushReq]) rfl rfl rfl h.pin rfl rfl rfl

theorem PinInv.endResponse {s : State} (h : PinInv s) : PinInv (endResponse s) :=
  ⟨h.bound, h.pin, h.level, h.guarded, h.alternate⟩

theorem PinInv.with_txPending {s : State} (h : PinInv s) (p : Bool) : PinInv { s with txPending := p } :=
  ⟨h.bound, h.pin, h.level, h.guarded, h.alternate⟩

theorem wireMany_dirState (n : Nat) (s : State) : (wireMany n s).dirState = s.dirState := by
  obtain ⟨w, -, -, heq⟩ := wireMany_spec n s
  rw [heq]

theorem assertTransmit_dirState (s : State) : (assertTransmit s).dirState = .transmitting := by
  rw [assertTransmit_eq]

/-- The response is written, and every byte leaves, after `assert_transmit` (45_direction_and_polling.md R266, R268). -/
theorem PinInv.sendResponse {s : State} (h : PinInv s) (hq : s.tx ≠ [] → s.dirState = .transmitting) (v : TxVerdict) :
    PinInv (sendResponse v s) := by
  have hassert := (h.wireMany hq v.leaveBefore).assertTransmit
  have hd := assertTransmit_dirState (Machine.wireMany v.leaveBefore s)
  have hwrite := hassert.txWrite hd v s.frame
  have hbetween := hwrite.endResponse.wireMany (fun _ => hd) v.leaveBetween
  exact hbetween.flushReq.wireMany (fun _ => (wireMany_dirState _ _).trans hd) _

/-! ## The three phases -/

theorem assertReceive_lineInv {s : State} (h : LineInv s) (htx : s.tx = []) (hdone : s.setupDone = true) :
    LineInv (assertReceive { s with txPending := false }) := by
  have hpin : s.hasDirPin = true → PinInv (assertReceive { s with txPending := false }) := fun hp =>
    ((h.pinInv hp).with_txPending false).assertReceive
  rw [assertReceive_eq] at hpin ⊢
  exact .of_pinInv (by simp) (fun _ => htx) hdone hpin

theorem releasePhase_lineInv {s : State} (h : LineInv s) (hdone : s.setupDone = true) : LineInv (releasePhase s) := by
  cases hp : s.txPending with
  | false =>
    have hd : s.dirState = .receiving := by
      cases hd : s.dirState with
      | receiving => rfl
      | transmitting => exact absurd (hp.symm.trans (h.pending.mp hd)) Bool.false_ne_true
    rwa [releasePhase_of_not_pending hp, assertReceive_of_receiving hd]
  | true =>
    by_cases hf : s.flushComplete = true
    · rw [releasePhase_of_flushed hp hf]
      exact assertReceive_lineInv h (flushComplete_iff.mp hf) hdone
    · rwa [releasePhase_of_unflushed hp hf]

theorem EngineStep.lineInv {s t : State} (hstep : EngineStep s t) (h : LineInv s) : LineInv t := by
  rw [hstep.same]
  exact ⟨h.pending, h.queue, h.fresh, h.pin, h.level, h.guarded, h.alternate⟩

/-- A byte waits only while transmitting. -/
theorem LineInv.transmitting_of_tx {s : State} (h : LineInv s) (htx : s.tx ≠ []) : s.dirState = .transmitting :=
  h.pending.mpr (Bool.eq_true_of_not_eq_false fun hp => htx (h.queue hp))

theorem transmitPhase_lineInv {s : State} (h : LineInv s) (hdone : s.setupDone = true) : LineInv (transmitPhase s) := by
  by_cases hr : s.feState = .responding
  · have hstep := lineStep_transmitPhase s
    refine .of_pinInv (transmitPhase_dirState hr) (fun hp => ?_) (by rw [hstep, hdone]) (fun hp => ?_)
    · by_contra htx
      exact absurd (hp.symm.trans ((transmitPhase_pending hr).mpr htx)) Bool.false_ne_true
    · have hbound : s.hasDirPin = true := by rwa [hstep] at hp
      have hsend := (h.pinInv hbound).sendResponse h.transmitting_of_tx (nextVerdict s)
      rw [transmitPhase_responding hr]
      split
      · exact (hsend.with_txPending false).assertReceive
      · exact hsend.with_txPending true
  · rwa [transmitPhase_idle hr]

theorem pollStep_lineInv {s t : State} (h : LineInv s) (hpoll : pollStep s = .next t) : LineInv t := by
  rcases pollStep_cases hpoll with ⟨-, rfl⟩ | ⟨hdone, u, v, rfl, -, rfl, hrelease, hdrain, -⟩
  · exact h
  · have hv := hdrain.lineInv (releasePhase_lineInv h hdone)
    exact transmitPhase_lineInv hv (by rw [hdrain.same, hrelease, hdone])

/-! ## The other moves -/

/-- `setup` finds nothing output and starts the trace at the receive level (45_direction_and_polling.md R258). -/
theorem setup_lineInv {s : State} (h : LineInv s) (addr : Byte) (pin : Bool) : LineInv (setup addr pin s).2 := by
  rcases setup_cases addr pin s with hr | ⟨hs, -, hr⟩ <;> rw [hr]
  · exact h
  · obtain ⟨htrace, -, hpending⟩ := h.fresh hs
    have htx := h.queue hpending
    rw [configure_eq]
    refine .of_pinInv (by simp) (fun _ => htx) rfl fun hp => ?_
    obtain rfl : pin = true := hp
    rw [htrace]
    exact ⟨rfl, by simp, rfl, rfl, rfl⟩

theorem wireOne_lineInv {s : State} (h : LineInv s) : LineInv (wireOne s) := by
  rcases wireOne_cases s with hr | ⟨b, bs, htx, hr⟩
  · rwa [hr]
  · have hne : s.tx ≠ [] := by rw [htx]; exact List.cons_ne_nil b bs
    have hp := h.pending.mp (h.transmitting_of_tx hne)
    have hpin := fun hb => (h.pinInv hb).wireMany h.transmitting_of_tx 1
    have hdone : s.setupDone = true := Bool.eq_true_of_not_eq_false fun hno =>
      absurd ((h.fresh hno).2.2.symm.trans hp) Bool.false_ne_true
    simp only [wireMany, hr] at hpin ⊢
    exact .of_pinInv h.pending (fun hno => absurd (hno.symm.trans hp) Bool.false_ne_true) hdone hpin

theorem OutsideStep.lineInv {s t : State} (hout : OutsideStep s t) (h : LineInv s) : LineInv t := by
  rw [hout]
  exact ⟨h.pending, h.queue, h.fresh, h.pin, h.level, h.guarded, h.alternate⟩

theorem perform_lineInv {m : Move} {s t : State} (h : LineInv s) (hm : perform m s = .next t) : LineInv t := by
  rcases perform_cases hm with ⟨-, hpoll⟩ | ⟨addr, pin, rfl⟩ | rfl | hout
  · exact pollStep_lineInv h hpoll
  · obtain ⟨hpending, hqueue, hfresh, hpin, hlevel, hguarded, halternate⟩ := setup_lineInv h addr pin
    exact ⟨hpending, hqueue, hfresh, hpin, hlevel, hguarded, halternate⟩
  · exact wireOne_lineInv h
  · exact hout.lineInv h

/-- Settles O54: receiving, nothing waiting, nothing output. -/
theorem lineSoundAtReset : Obligations.LineSoundAtReset := by
  refine ⟨by decide, fun _ => rfl, fun _ => ⟨rfl, rfl, rfl⟩, ?_, ?_, ?_, ?_⟩ <;>
    exact fun hp => absurd hp Bool.false_ne_true

/-- Settles O55: each operation of a phase keeps `PinInv`, and at the end of each phase the pending flag follows the
direction; of the other moves only `setup` and the transmitter's touch the line. -/
theorem stepKeepsDirectionDiscipline : Obligations.StepKeepsDirectionDiscipline := by
  intro s t h hstep
  have hagenda : ∀ rest, LineInv { s with agenda := rest } := fun _ =>
    ⟨h.pending, h.queue, h.fresh, h.pin, h.level, h.guarded, h.alternate⟩
  rcases step_cases hstep with ⟨a, hpoll⟩ | ⟨m, rest, -, -, hperform⟩
  · exact pollStep_lineInv (hagenda a) hpoll
  · exact perform_lineInv (hagenda rest) hperform

end Sys2Proof.Machine

/-! A request on its way from the RX stream to `exec` (41_frame_parser.md R144, R154; 45_direction_and_polling.md R264). -/

namespace Sys2Proof.Machine

/-! ## A frame under way is partial -/

/-- Once the frame so far gives an expected length, no later byte changes it (41_frame_parser.md R143). -/
theorem expectedLen_need_or_append (f g : List Byte) :
    expectedLen f = .need ∨ expectedLen (f ++ g) = expectedLen f := by
  match f with
  | [] => exact .inl rfl
  | [_] => exact .inl rfl
  | a :: fc :: rest =>
    by_cases hfix : fc = 0x03 ∨ fc = 0x04 ∨ fc = 0x06
    · exact .inr ((expectedLen_of_fixed_function a _ hfix).trans (expectedLen_of_fixed_function a _ hfix).symm)
    · by_cases h10 : fc = 0x10
      · subst h10
        match rest with
        | w :: x :: y :: z :: bc :: more =>
          exact .inr ((expectedLen_write a w x y z bc _).trans (expectedLen_write a w x y z bc more).symm)
        | [] | [_] | [_, _] | [_, _, _] | [_, _, _, _] => exact .inl rfl
      · have hunsupported : supportedFunction fc = false := by
          simp only [not_or] at hfix
          exact supportedFunction_eq_false_iff.mpr ⟨hfix.1, hfix.2.1, hfix.2.2, h10⟩
        have hopen := fun more => expectedLen_of_unsupported a more hunsupported
        exact .inr ((hopen _).trans (hopen rest).symm)

/-- What the frame of a request says of its own length: just that, or nothing (41_frame_parser.md R143). -/
theorem expectedLen_encode {i : Instr} (hw : i.wellFormed = true) (hr : i.isRequest = true) :
    expectedLen (encode i) = .fixed (encode i).length ∨ expectedLen (encode i) = .openEnded := by
  cases i with
  | readHoldingRegisters addr x y | readInputRegisters addr x y | writeSingleHoldingRegister addr x y =>
    refine .inl ?_
    rw [encode, bodyOf, sealFrame_twoFieldBody_length]
    exact expectedLen_of_fixed_function _ _ (by decide)
  | writeMultipleHoldingRegisters addr start qty bc data =>
    obtain ⟨hbc, hcap⟩ := wellFormed_writeMultiple_iff.mp hw
    refine .inl ((expectedLen_write addr _ _ _ _ bc _).trans ?_)
    rw [if_neg (by omega), encode, sealFrame_length, bodyOf, List.length_append, twoFieldBody_length, List.length_cons]
    congr 1
    omega
  | unsupportedFunction addr fc payload =>
    exact .inr (expectedLen_of_unsupported addr _ (wellFormed_unsupported_iff.mp hw).1)
  | readHoldingRegistersResponse | readInputRegistersResponse | writeSingleHoldingRegisterResponse
  | writeMultipleHoldingRegistersResponse | exceptionResponse => cases hr

/-- The first bytes of a frame are a partial frame: all of them where it is open, all but the last where it is fixed. -/
theorem partialFrame_of_append {f g : List Byte}
    (h : expectedLen (f ++ g) = .openEnded ∨ (expectedLen (f ++ g) = .fixed (f ++ g).length ∧ g ≠ [])) :
    partialFrame f := by
  unfold partialFrame
  rcases expectedLen_need_or_append f g with hneed | hsame
  · rw [hneed]
    trivial
  · rw [← hsame]
    rcases h with hopen | ⟨hfix, hg⟩
    · rw [hopen]
      trivial
    · rw [hfix, List.length_append]
      exact Nat.lt_add_of_pos_right (List.length_pos_of_ne_nil hg)

/-! ## Feeding a frame -/

theorem Feedable.frame_length {s : State} (h : Feedable s) : s.frame.length = s.len := by
  have hlen : s.len ≤ 256 := by
    rcases h with ⟨-, h0⟩ | ⟨-, -, hle, -⟩ <;> omega
  rw [Machine.frame_length]
  omega

/-- A byte that leaves the frame partial is appended, in either state in which it can be fed (41_frame_parser.md R141,
R142). -/
theorem feed_byte_of_feedable {s : State} {b : Byte} (h : Feedable s) (hl : s.len < 256)
    (hp : partialFrame (s.frame ++ [b])) :
    ∃ t, feed (.byte b) s = .next t ∧ Feedable t ∧ t.frame = s.frame ++ [b] ∧ t.len = s.len + 1 ∧ SameButFrame s t := by
  rcases h with ⟨hidle, h0⟩ | ⟨hacc, -⟩
  · obtain ⟨t, hfeed, hstate, hlen, hframe, hsame⟩ := firstByteStartsFrame s b hidle
    have hframe' : t.frame = s.frame ++ [b] := by rw [hframe, frame_empty s h0, List.nil_append]
    exact ⟨t, hfeed, .inr ⟨hstate, by omega, by omega, hframe' ▸ hp⟩, hframe', by omega, hsame⟩
  · obtain ⟨t, hfeed, hstate, hlen, hframe, hsame⟩ := byteIsAppendedUntilComplete s b hacc hl hp
    exact ⟨t, hfeed, .inr ⟨hstate, by omega, by omega, hframe ▸ hp⟩, hframe, hlen, hsame⟩

theorem SameButFrame.with_rx {s t : State} (h : SameButFrame { s with rx := t.rx } t) (items : List RxItem) :
    SameButFrame { s with rx := items } { t with rx := items } := by
  unfold SameButFrame at *
  rw [h]

theorem Feedable.not_responding {s : State} (h : Feedable s) : s.feState ≠ .responding := by
  rcases h with ⟨hs, -⟩ | ⟨hs, -⟩ <;> rw [hs] <;> decide

/-- Bytes that leave the frame partial, one after the other. -/
theorem drain_bytes (bs : List Byte) (rest : List RxItem) {s : State} (h : Feedable s) (hfit : s.len + bs.length ≤ 256)
    (hp : ∀ f g, bs = f ++ g → partialFrame (s.frame ++ f)) :
    ∃ u, drain (bs.map .byte ++ rest) s = drain rest u ∧ Feedable u ∧ u.frame = s.frame ++ bs ∧
      SameButFrame { s with rx := u.rx } u := by
  induction bs generalizing s with
  | nil => exact ⟨s, rfl, h, (List.append_nil _).symm, rfl⟩
  | cons b bs ih =>
    rw [List.length_cons] at hfit
    obtain ⟨t, hfeed, hready, hframe, hlen, hsame⟩ := feed_byte_of_feedable
      (s := { s with rx := bs.map .byte ++ rest }) (b := b) h (by dsimp only; omega) (hp [b] bs rfl)
    have hframe : t.frame = s.frame ++ [b] := hframe
    have hlen : t.len = s.len + 1 := hlen
    obtain ⟨u, hdrain, hu, huframe, husame⟩ := ih hready (by omega) fun f g hfg => by
      rw [hframe, List.append_assoc]
      exact hp (b :: f) g (congrArg (b :: ·) hfg)
    refine ⟨u, ?_, hu, ?_, ?_⟩
    · rw [List.map_cons, List.cons_append, drain_cons h.not_responding, hfeed]
      exact hdrain
    · rw [huframe, hframe, List.append_assoc, List.singleton_append]
    · have hrx : SameButFrame { s with rx := u.rx } { t with rx := u.rx } := by
        unfold SameButFrame at hsame ⊢
        rw [hsame]
      exact hrx.trans husame

/-- An engine that can be fed and has a byte is inside a frame. -/
theorem Feedable.accumulating {s : State} (h : Feedable s) (hne : s.frame ≠ []) : s.feState = .accumulating := by
  rcases h with ⟨-, h0⟩ | ⟨hacc, -⟩
  · exact absurd (frame_empty s h0) hne
  · exact hacc

/-- A well-formed frame fits the buffer and passes its check (30_encoding.md R91). -/
theorem encode_fits {i : Instr} (hw : i.wellFormed = true) :
    4 ≤ (encode i).length ∧ (encode i).length ≤ 256 ∧ crcOk (encode i) = true := by
  cases i with
  | readHoldingRegisters => exact Laws.FrameFits.readHoldingRegisters _ _ _ hw
  | readInputRegisters => exact Laws.FrameFits.readInputRegisters _ _ _ hw
  | writeSingleHoldingRegister => exact Laws.FrameFits.writeSingleHoldingRegister _ _ _ hw
  | writeMultipleHoldingRegisters => exact Laws.FrameFits.writeMultipleHoldingRegisters _ _ _ _ _ hw
  | unsupportedFunction => exact Laws.FrameFits.unsupportedFunction _ _ _ hw
  | readHoldingRegistersResponse => exact Laws.FrameFits.readHoldingRegistersResponse _ _ hw
  | readInputRegistersResponse => exact Laws.FrameFits.readInputRegistersResponse _ _ hw
  | writeSingleHoldingRegisterResponse => exact Laws.FrameFits.writeSingleHoldingRegisterResponse _ _ _ hw
  | writeMultipleHoldingRegistersResponse => exact Laws.FrameFits.writeMultipleHoldingRegistersResponse _ _ _ hw
  | exceptionResponse => exact Laws.FrameFits.exceptionResponse _ _ _ hw

/-- The items of a frame that closes itself: its last byte has it validated (41_frame_parser.md R144). -/
theorem drain_fixed_frame {init : List Byte} {last : Byte} (hne : init ≠ []) (hfit : init.length < 256)
    (he : expectedLen (init ++ [last]) = .fixed (init ++ [last]).length) (rest : List RxItem) {s : State}
    (hi : s.feState = .idle) (hl : s.len = 0) :
    ∃ w, drain ((init ++ [last]).map .byte ++ rest) s = andThen (validate w) (drain rest) ∧ w.frame = init ++ [last] ∧
      w.len = (init ++ [last]).length ∧ w.rx = rest ∧ SameButFrame { s with rx := rest } w := by
  have hempty : s.frame = [] := frame_empty s hl
  obtain ⟨u, hdrain, hu, hframe, hsame⟩ := drain_bytes init (.byte last :: rest) (s := s) (.inl ⟨hi, hl⟩) (by omega)
    fun f g hfg => by
      rw [hempty, List.nil_append]
      refine partialFrame_of_append (g := g ++ [last]) (.inr ⟨?_, List.append_ne_nil_of_right_ne_nil g (by simp)⟩)
      rwa [← List.append_assoc, ← hfg]
  rw [hempty, List.nil_append] at hframe
  have hlen : u.len = init.length := by rw [← hu.frame_length, hframe]
  have hacc := hu.accumulating (by rwa [hframe])
  have hfeed : feed (.byte last) { u with rx := rest } = validate (appendByte last { u with rx := rest }) := by
    refine feed_byte_complete (s := { u with rx := rest }) (n := (init ++ [last]).length) hacc (hlen ▸ hfit) ?_ ?_
    · exact (congrArg (fun f => expectedLen (f ++ [last])) hframe).trans he
    · rw [List.length_append, hlen]; rfl
  refine ⟨appendByte last { u with rx := rest }, ?_, ?_, ?_, rfl, (hsame.with_rx rest).trans (sameButFrame_appendByte ..)⟩
  · rw [List.map_append, List.append_assoc]
    exact hdrain.trans ((drain_cons hu.not_responding _ _).trans (by rw [hfeed]))
  · rw [frame_appendByte last { u with rx := rest } (hlen ▸ hfit)]
    exact congrArg (· ++ [last]) hframe
  · rw [appendByte_len, List.length_append, hlen]; rfl

/-- The items of a frame without derivable length: the gap after it has it validated (41_frame_parser.md R146, R157). -/
theorem drain_open_frame {f : List Byte} (hmin : 4 ≤ f.length) (hfit : f.length ≤ 256) (he : expectedLen f = .openEnded)
    (rest : List RxItem) {s : State} (hi : s.feState = .idle) (hl : s.len = 0) :
    ∃ w, drain (f.map .byte ++ .gap :: rest) s = andThen (validate w) (drain rest) ∧ w.frame = f ∧ w.len = f.length ∧
      w.rx = rest ∧ SameButFrame { s with rx := rest } w := by
  have hempty : s.frame = [] := frame_empty s hl
  obtain ⟨u, hdrain, hu, hframe, hsame⟩ := drain_bytes f (.gap :: rest) (s := s) (.inl ⟨hi, hl⟩) (by omega)
    fun g k hgk => by
      rw [hempty, List.nil_append]
      exact partialFrame_of_append (.inl (hgk ▸ he))
  rw [hempty, List.nil_append] at hframe
  have hlen : u.len = f.length := by rw [← hu.frame_length, hframe]
  have hacc := hu.accumulating (by rw [hframe]; exact List.ne_nil_of_length_pos (by omega))
  have hfeed : feed .gap { u with rx := rest } = validate { u with rx := rest } :=
    feed_gap_closing hacc ⟨(congrArg expectedLen hframe).trans he, hlen ▸ hmin⟩
  refine ⟨{ u with rx := rest }, ?_, hframe, hlen, rfl, hsame.with_rx rest⟩
  exact hdrain.trans ((drain_cons hu.not_responding _ _).trans (by rw [hfeed]))

/-- The items of a request's frame have it validated, and the drain goes on with what validation leaves
(41_frame_parser.md R144, R146, R154). -/
theorem drain_frameItems {i : Instr} (hw : i.wellFormed = true) (hr : i.isRequest = true) (rest : List RxItem) {s : State}
    (hi : s.feState = .idle) (hl : s.len = 0) :
    ∃ w, drain (frameItems (encode i) ++ rest) s = andThen (validate w) (drain rest) ∧ w.frame = encode i ∧
      w.len = (encode i).length ∧ w.rx = rest ∧ SameButFrame { s with rx := rest } w := by
  obtain ⟨hmin, hmax, -⟩ := encode_fits hw
  rcases expectedLen_encode hw hr with hfix | hopen
  · obtain hnil | ⟨init, last, hf⟩ := List.eq_nil_or_concat (encode i)
    · rw [hnil] at hmin
      cases hmin
    · rw [List.concat_eq_append] at hf
      have hlen : (encode i).length = init.length + 1 := by rw [hf, List.length_append]; rfl
      have hitems : frameItems (encode i) = (encode i).map .byte := by
        rw [frameItems, if_neg (by rw [hfix]; exact Expected.noConfusion), List.append_nil]
      rw [hitems]
      rw [hf] at hfix ⊢
      exact drain_fixed_frame (List.ne_nil_of_length_pos (by omega)) (by omega) hfix rest hi hl
  · have hitems : frameItems (encode i) ++ rest = (encode i).map .byte ++ .gap :: rest := by
      rw [frameItems, if_pos hopen, List.append_assoc]
      rfl
    rw [hitems]
    exact drain_open_frame hmin hmax hopen rest hi hl

/-! ## The step -/

theorem andThen_assoc (o : Host.Outcome State Fault Refusal) (f g : State → Host.Outcome State Fault Refusal) :
    andThen (andThen o f) g = andThen o fun t => andThen (f t) g := by
  cases o <;> rfl

/-- Settles O39: feeding the frame ends in its validation, which runs the request it decodes to, `i` itself. -/
theorem stepRunsTheWaitingRequest : Obligations.StepRunsTheWaitingRequest := by
  intro s i rest hagenda hdone hidle hempty hw hr haddr hrx
  have hi : (releasePhase s).feState = .idle := by rw [releasePhase_eq, hidle]
  have hl : (releasePhase s).len = 0 := by rw [releasePhase_eq, hempty]
  have hslave : (releasePhase s).slaveAddr = s.slaveAddr := by rw [lineStep_releasePhase s]
  obtain ⟨w, hdrain, hframe, hlen, hwrx, hsame⟩ := drain_frameItems hw hr rest hi hl
  have hwslave : w.slaveAddr = s.slaveAddr := by
    rw [hsame]
    exact hslave
  have hvalid : validate w = exec i { w with feState := .dispatching } := by
    refine validFrameRunsItsInstruction w i ?_ ?_ (by rwa [hwslave])
    · rw [hframe]
      exact (encode_fits hw).2.2
    · rw [hframe]
      exact requestEncodingRoundTrip i hw hr
  refine ⟨{ w with feState := .dispatching }, hframe, hlen, rfl, hwrx, hsame.trans rfl, ?_⟩
  rw [step_of_empty_agenda hagenda, pollStep, if_pos hdone, hrx, hdrain, andThen_assoc, hvalid]

end Sys2Proof.Machine
